-- ==== Sys2Proof/Word.lean ====
section
/-! DEFINITION. The word type of the port, of the randomness source and of the Montgomery digit
(00_scope.md R5: `W = 32`), and the one reading of a word as an integer (R7: `sext_32`). -/

namespace Sys2Proof

/-- A 32-bit word: a limb, a bus word, a randomness word (R5, R7). -/
abbrev Word := BitVec 32

/-- `sext_32(w)`: `w` if `w < 2^31` and `w - 2^32` otherwise (R7). -/
abbrev sext32 (w : Word) : Int := w.toInt

end Sys2Proof
end

