-- ==== Sys2Proof/Config.lean ====
section
/-! DEFINITION. What a build of the engine fixes (00_scope.md R5). The two OPEN parameters are a
record that the state carries and no step writes (DESIGN CHOICE, log 4), so that every statement
holds for every build; the bounds that are fixed for this hardware are constants. No value of this
spec is left free, so there is no free value here. -/

namespace Sys2Proof

/-- The OPEN build parameters of R5. -/
structure Build where
  /-- `MAXBITS`: the width of every big register. -/
  maxBits : Nat
  /-- `DBG_PRIMES`: the build exposes the primes of the last key generation. -/
  dbgPrimes : Bool
deriving DecidableEq, Repr

/-- The default build of R5: `MAXBITS = 4096`, `DBG_PRIMES = 0`. -/
def Build.standard : Build := { maxBits := 4096, dbgPrimes := false }

/-- `L = MAXBITS / 32`, the limbs of a big register (R5). -/
def Build.limbCount (b : Build) : Nat := b.maxBits / 32

/-- R5: `MAXBITS` is a multiple of 32, at least 64, at most 65504. -/
abbrev Build.Legal (b : Build) : Prop :=
  b.maxBits % 32 = 0 ∧ 64 ≤ b.maxBits ∧ b.maxBits ≤ 65504

/-- `KEY_RETRY_CAP`, the bound on the retries of one GENKEY (R5, R245). -/
def Config.keyRetryCap : Nat := 64

/-- `E_RETRY_CAP`, the bound on rejected public exponents (R5, R249). -/
def Config.eRetryCap : Nat := 1024

/-- `BASE_REJECT_CAP`, the bound on rejected draws for one base (R5, R204). -/
def Config.baseRejectCap : Nat := 128

/-- The constant of the `ID` register, ASCII "ICR3" (R1, R39). -/
def Config.identification : Word := 0x49435233

end Sys2Proof
end

