-- ==== Sys2Proof/Syntax.lean ====
section
/-! DEFINITION. The twelve commands (30_encoding.md R102), one constructor per row of
spec/opcode_table.json. A command plays the part an instruction plays in an ISA (00_scope.md §7). -/

namespace Sys2Proof

/-- The number of a general big register, a 3-bit field of the command word (R21, R101). -/
abbrev Reg := Fin 8

/-- A command with its register fields. The names of the fields are those of R102: `d` is RD, `a` is
RA, `b` is RB, `m` is RM; the order is that of the "operands" column. -/
inductive Instr where
  /-- `MONTMUL Gd, Ga, Gb, Gm` (R140). -/
  | montmul (d a b m : Reg)
  /-- `TOMONT Gd, Ga, Gm` (R141). -/
  | tomont (d a m : Reg)
  /-- `FROMMONT Gd, Ga, Gm` (R142). -/
  | frommont (d a m : Reg)
  /-- `MODEXP Gd, Ga, Gb, Gm` (R165). -/
  | modexp (d a b m : Reg)
  /-- `GCD Gd, Ga, Gb` (R186). -/
  | gcd (d a b : Reg)
  /-- `MODINV Gd, Ga, Gm` (R187). -/
  | modinv (d a m : Reg)
  /-- `MRTEST Ga` (R212). -/
  | mrtest (a : Reg)
  /-- `GENPRIME Gd` (R228). -/
  | genprime (d : Reg)
  /-- `GENKEY Gd, Gb, Gm`: the private exponent to `Gd`, the public one to `Gb`, the modulus to `Gm` (R241). -/
  | genkey (d b m : Reg)
  /-- `ENCRYPT Gd, Ga, Gb, Gm` (R271). -/
  | encrypt (d a b m : Reg)
  /-- `DECRYPT Gd, Ga, Gb, Gm` (R272). -/
  | decrypt (d a b m : Reg)
  /-- `ZEROIZE` (R281). -/
  | zeroize
deriving DecidableEq, Repr

/-- The pseudo-instruction `MONTSQR Gd, Ga, Gm` is `MONTMUL Gd, Ga, Ga, Gm` (R112). -/
def Instr.montsqr (d a m : Reg) : Instr := .montmul d a a m

end Sys2Proof
end

