-- ==== Sys2Proof/WellFormed.lean ====
section
/-! DEFINITION. The check on a command that its fields' types do not already make: R106's third
check, the destinations of GENKEY. A register number is a `Fin 8`, so no other field can be wrong. -/

namespace Sys2Proof

/-- R106, check 3: "if OPC = GENKEY and not (d, b, m pairwise different)" the command is illegal. For
every other command any coincidence of register numbers is allowed (R107). A GENKEY with coinciding
destinations is still a GENKEY word (95 §2.8: "512 well-formed words, 176 of them with overlapping
destinations"); its meaning is the completion with DEST_OVERLAP (log 15). -/
abbrev Instr.WellFormed : Instr → Prop
  | .genkey d b m => d ≠ b ∧ d ≠ m ∧ b ≠ m
  | .montmul _ _ _ _ | .tomont _ _ _ | .frommont _ _ _ | .modexp _ _ _ _ | .gcd _ _ _
  | .modinv _ _ _ | .mrtest _ | .genprime _ | .encrypt _ _ _ _ | .decrypt _ _ _ _ | .zeroize => True

/-- The same check as a Bool, for the machine and for evaluation. -/
def Instr.wellFormed : Instr → Bool
  | .genkey d b m => d != b && d != m && b != m
  | .montmul _ _ _ _ | .tomont _ _ _ | .frommont _ _ _ | .modexp _ _ _ _ | .gcd _ _ _
  | .modinv _ _ _ | .mrtest _ | .genprime _ | .encrypt _ _ _ _ | .decrypt _ _ _ _ | .zeroize => true

end Sys2Proof
end

