-- ==== Sys2Proof/Decode.lean ====
section
/-! DEFINITION. The command word: decoder (30_encoding.md R101, R102, R106 checks 1 and 2, R113), total
on all `2^32` words and rejecting by name (R104), and the encoder written from the same table. -/

namespace Sys2Proof

/-- Why a word is no command: R106, checks 1 and 2. -/
inductive DecodeError where
  /-- "CW[7:0] is not one of the twelve opcodes of rule R102". -/
  | unknownOpcode
  /-- "(CW and mask(OPC)) != match(OPC)": a reserved bit or an unused field is not 0. -/
  | reservedBits
deriving DecidableEq, Repr

/-- The rows of R102. -/
inductive Opcode where
  | montmul | tomont | frommont | modexp | gcd | modinv | mrtest | genprime | genkey | encrypt | decrypt | zeroize
deriving DecidableEq, Repr

/-- Column `OPC` of R102. -/
def Opcode.code : Opcode → Nat
  | .montmul => 0x01
  | .tomont => 0x02
  | .frommont => 0x03
  | .modexp => 0x10
  | .gcd => 0x20
  | .modinv => 0x21
  | .mrtest => 0x30
  | .genprime => 0x40
  | .genkey => 0x50
  | .encrypt => 0x60
  | .decrypt => 0x61
  | .zeroize => 0x7F

/-- Column `match` of R102: the opcode, every other bit under the mask 0. -/
def Opcode.pattern (o : Opcode) : Word := BitVec.ofNat 32 o.code

/-- Column `mask` of R102: the opcode, the reserved bits and the fields the command does not use. -/
def Opcode.mask : Opcode → Word
  | .montmul => 0xFF8888FF
  | .tomont => 0xFF8F88FF
  | .frommont => 0xFF8F88FF
  | .modexp => 0xFF8888FF
  | .gcd => 0xFFF888FF
  | .modinv => 0xFF8F88FF
  | .mrtest => 0xFFFF8FFF
  | .genprime => 0xFFFFF8FF
  | .genkey => 0xFF88F8FF
  | .encrypt => 0xFF8888FF
  | .decrypt => 0xFF8888FF
  | .zeroize => 0xFFFFFFFF

/-- All rows of R102, in its order. -/
def Opcode.all : List Opcode :=
  [.montmul, .tomont, .frommont, .modexp, .gcd, .modinv, .mrtest, .genprime, .genkey, .encrypt, .decrypt, .zeroize]

/-- The field `OPC`, bits 7:0 (R101). -/
def fieldOPC (w : Word) : Nat := w.toNat % 2 ^ 8

/-- A 3-bit register field whose lowest bit is bit `lo` (R101). -/
def fieldReg (w : Word) (lo : Nat) : Reg := Fin.ofNat 8 (w.toNat / 2 ^ lo)

/-- The field `RD`, bits 10:8. -/
def fieldRD (w : Word) : Reg := fieldReg w 8
/-- The field `RA`, bits 14:12. -/
def fieldRA (w : Word) : Reg := fieldReg w 12
/-- The field `RB`, bits 18:16. -/
def fieldRB (w : Word) : Reg := fieldReg w 16
/-- The field `RM`, bits 22:20. -/
def fieldRM (w : Word) : Reg := fieldReg w 20

/-- The command of a row with the fields of a word, in the order of the "operands" column (R102). -/
def Opcode.instr (o : Opcode) (w : Word) : Instr :=
  match o with
  | .montmul => .montmul (fieldRD w) (fieldRA w) (fieldRB w) (fieldRM w)
  | .tomont => .tomont (fieldRD w) (fieldRA w) (fieldRM w)
  | .frommont => .frommont (fieldRD w) (fieldRA w) (fieldRM w)
  | .modexp => .modexp (fieldRD w) (fieldRA w) (fieldRB w) (fieldRM w)
  | .gcd => .gcd (fieldRD w) (fieldRA w) (fieldRB w)
  | .modinv => .modinv (fieldRD w) (fieldRA w) (fieldRM w)
  | .mrtest => .mrtest (fieldRA w)
  | .genprime => .genprime (fieldRD w)
  | .genkey => .genkey (fieldRD w) (fieldRB w) (fieldRM w)
  | .encrypt => .encrypt (fieldRD w) (fieldRA w) (fieldRB w) (fieldRM w)
  | .decrypt => .decrypt (fieldRD w) (fieldRA w) (fieldRB w) (fieldRM w)
  | .zeroize => .zeroize

/-- The row whose `OPC` is the word's (R113). -/
def opcodeOf (w : Word) : Option Opcode := Opcode.all.find? (fun o => o.code == fieldOPC w)

/-- The decoder of R113: the row of the opcode, then the mask. GENKEY's overlap check (R106, check 3)
is `Instr.wellFormed` and is made where the decode checks are made (`decodeChecks`). -/
def decode (w : Word) : Except DecodeError Instr :=
  match opcodeOf w with
  | none => .error .unknownOpcode
  | some o => if w &&& o.mask = o.pattern then .ok (o.instr w) else .error .reservedBits

/-- `word = OPC + 2^8 * RD + 2^12 * RA + 2^16 * RB + 2^20 * RM` (R101). -/
def encodeFields (o : Opcode) (d a b m : Reg) : Word :=
  BitVec.ofNat 32 (o.code + 2 ^ 8 * d.val + 2 ^ 12 * a.val + 2 ^ 16 * b.val + 2 ^ 20 * m.val)

/-- The row a command stands in. -/
def Instr.opcode : Instr → Opcode
  | .montmul _ _ _ _ => .montmul
  | .tomont _ _ _ => .tomont
  | .frommont _ _ _ => .frommont
  | .modexp _ _ _ _ => .modexp
  | .gcd _ _ _ => .gcd
  | .modinv _ _ _ => .modinv
  | .mrtest _ => .mrtest
  | .genprime _ => .genprime
  | .genkey _ _ _ => .genkey
  | .encrypt _ _ _ _ => .encrypt
  | .decrypt _ _ _ _ => .decrypt
  | .zeroize => .zeroize

/-- The word of a command: "a field a command does not use must be 0" (R101). -/
def encode : Instr → Word
  | .montmul d a b m => encodeFields .montmul d a b m
  | .tomont d a m => encodeFields .tomont d a 0 m
  | .frommont d a m => encodeFields .frommont d a 0 m
  | .modexp d a b m => encodeFields .modexp d a b m
  | .gcd d a b => encodeFields .gcd d a b 0
  | .modinv d a m => encodeFields .modinv d a 0 m
  | .mrtest a => encodeFields .mrtest 0 a 0 0
  | .genprime d => encodeFields .genprime d 0 0 0
  | .genkey d b m => encodeFields .genkey d 0 b m
  | .encrypt d a b m => encodeFields .encrypt d a b m
  | .decrypt d a b m => encodeFields .decrypt d a b m
  | .zeroize => encodeFields .zeroize 0 0 0 0

/-- The host's probe: what the decoder reads from a word numbered as spec/opcode_table.json numbers
it. Every command is one 32-bit word (R100), so `nbits` is at most 32 and the bits above it are 0. -/
def decodeTableWord (nbits w : Nat) : Option Instr :=
  if nbits ≤ 32 ∧ w < 2 ^ nbits then
    match decode (BitVec.ofNat 32 w) with
    | .ok i => some i
    | .error _ => none
  else none

end Sys2Proof
end

