-- ==== Sys2Proof/Machine/State.lean ====
section
/-! DEFINITION. The state of the engine: everything 10_state.md R20 gives it (the big registers, the
control and status registers, the debug registers, the engine's control state and its hidden
registers), beside the inputs the outside world will give it (the host's events, the words of the
randomness source) and the build parameters. All of it is plain data. -/

namespace Sys2Proof.Machine

/-- An error of a command: a pair `(ERRCODE, SUB)` of R301. -/
inductive Err where
  | bitlenBelowMin | bitlenAboveMax | bitlenOdd | noE | noInverse | badModulus
  | bitlenLt2 | exhausted | keyRetry | rngReject
  | operandGeModulus
  | unknownOpcode | reservedBits | destOverlap
  | aborted
deriving DecidableEq, Repr

/-- `PHASE` (R43): `IDLE` and the states of the sequencers, under the names of their tables. -/
inductive Phase where
  /-- Top level (R108). `fail` carries the error the command completes with. -/
  | idle | decode | latch | exec | writeback | fail (e : Err) | zero
  /-- `MPRE` and `MMUL` (R138). -/
  | mpNp | mpR2 | mmInit | mmMul | mmRed | mmSub
  /-- `MEXP` (R163). -/
  | mePre | meOne | meBase | meNext | meSqr | meMul | meOut
  /-- `XGCD` (R184). -/
  | xgInit | xgTest | xgDiv | xgUpd | xgFin
  /-- `MRT` (R210). -/
  | mrCheck | mrDecomp | mrRound | mrDraw | mrAccept | mrPow | mrCmp0 | mrSq | mrCmp
  /-- `PGEN` (R226). -/
  | pgCheck | pgCap | pgDraw | pgTest
  /-- `KGEN` (R252). -/
  | kgCheck | kgP | kgQ | kgEq | kgN | kgPhi | kgE | kgD
deriving DecidableEq, Repr

/-- Who waits for `MPRE`: the top level for one of the three Montgomery commands, `MEXP` in `ME_PRE`,
the tester in `MR_DECOMP`. -/
inductive PreCaller where
  | montmul | tomont | frommont | exponentiator | tester
deriving DecidableEq, Repr

/-- Who waits for `MMUL`: the top level, a state of `MEXP`, or one of the two products of `MR_SQ` (R206). -/
inductive MulCaller where
  | command | meOne | meBase | meSqr | meMul | meOut | mrSqFirst | mrSqSecond
deriving DecidableEq, Repr

/-- Who waits for `MEXP`: the top level, or the tester in `MR_POW`. -/
inductive ExpCaller where
  | command | tester
deriving DecidableEq, Repr

/-- Who waits for `XGCD`, which also fixes its mode: GCD and `KG_E` use gcd mode, MODINV and `KG_D`
inverse mode. -/
inductive EuclidCaller where
  | gcdCommand | invCommand | keyE | keyD
deriving DecidableEq, Repr

/-- Who waits for `MRT`: the top level, or the generator in `PG_TEST`. -/
inductive TestCaller where
  | command | generator
deriving DecidableEq, Repr

/-- Who waits for `PGEN`: the top level, or the key builder in `KG_P` or `KG_Q`. -/
inductive GenCaller where
  | command | keyP | keyQ
deriving DecidableEq, Repr

/-- `PHASE` and the hidden working registers of R44, each under its own name in lower case; who waits
for each block (the stack of waiting blocks of R43); and `dj`, the model's own counter of the words
the running `DrawBits` has taken (log 9). -/
structure Engine where
  phase : Phase
  preFor : PreCaller
  mulFor : MulCaller
  expFor : ExpCaller
  euclFor : EuclidCaller
  testFor : TestCaller
  genFor : GenCaller
  cw : Word
  opa : Nat
  opb : Nat
  opm : Nat
  res0 : Nat
  res1 : Nat
  res2 : Nat
  lrng : Word
  latt : Word
  ma : Nat
  mb : Nat
  mn : Nat
  t : Nat
  np : Word
  s : Nat
  mi : Nat
  mj : Nat
  r2 : Nat
  one : Nat
  bm : Nat
  x : Nat
  ei : Nat
  r0 : Nat
  r1 : Nat
  q : Nat
  t0 : Int
  t1 : Int
  tn : Nat
  td : Nat
  ta : Nat
  tx : Nat
  ts : Nat
  tj : Nat
  tr : Nat
  trej : Nat
  pk : Word
  pc : Nat
  patt : Nat
  kp : Nat
  kq : Nat
  kn : Nat
  kphi : Nat
  ke : Nat
  kd : Nat
  krt : Nat
  ert : Nat
  dj : Nat
deriving DecidableEq, Repr

/-- The engine with `PHASE = IDLE` and every hidden register 0 (R45 (c), R49, R305). -/
def Engine.cleared : Engine where
  phase := .idle
  preFor := .montmul
  mulFor := .command
  expFor := .command
  euclFor := .gcdCommand
  testFor := .command
  genFor := .command
  cw := 0
  opa := 0
  opb := 0
  opm := 0
  res0 := 0
  res1 := 0
  res2 := 0
  lrng := 0
  latt := 0
  ma := 0
  mb := 0
  mn := 0
  t := 0
  np := 0
  s := 0
  mi := 0
  mj := 0
  r2 := 0
  one := 0
  bm := 0
  x := 0
  ei := 0
  r0 := 0
  r1 := 0
  q := 0
  t0 := 0
  t1 := 0
  tn := 0
  td := 0
  ta := 0
  tx := 0
  ts := 0
  tj := 0
  tr := 0
  trej := 0
  pk := 0
  pc := 0
  patt := 0
  kp := 0
  kq := 0
  kn := 0
  kphi := 0
  ke := 0
  kd := 0
  krt := 0
  ert := 0
  dj := 0

/-- What the outside world does to the engine, one event at a time (R10, R71; log 1). -/
inductive HostEvent where
  /-- `MemWrite(0x000, 4, w)` and then nothing until the command has completed or waits for the
  randomness port: the command at the command level (R9; log 2). -/
  | command (w : Word)
  /-- `MemWrite(addr, 4, v)`; the next event may follow while a command runs. -/
  | write (addr : Nat) (v : Word)
  /-- `MemRead(addr, 4)`. -/
  | read (addr : Nat)
  /-- `WAIT` (R112): `MemRead(0x004, 4)` repeated until `BUSY` is 0. -/
  | wait
  /-- The engine makes one transition of its sequencer before the next host event. -/
  | engine
  /-- `rst_n` goes low and high again (R340). -/
  | hardReset
  /-- The randomness source will have one more word to present (R47). -/
  | supply (w : Word)
deriving DecidableEq, Repr

/-- The whole state (R20). -/
structure State where
  /-- The build parameters (R5), which no step writes (log 4). -/
  build : Build
  /-- `G[0]` to `G[7]` (R21). -/
  g : Vector Nat 8
  /-- `DBGP` (R41). -/
  dbgp : Nat
  /-- `DBGQ` (R41). -/
  dbgq : Nat
  /-- `STATUS.DONE` (R27). -/
  done : Bool
  /-- `STATUS.PRIME` (R28). -/
  prime : Bool
  /-- `STATUS.BUSYERR` (R25, R78). -/
  buserr : Bool
  /-- `STATUS.ERRCODE` (R27, R300). -/
  errcode : BitVec 4
  /-- `STATUS.SUB` (R27, R301). -/
  sub : BitVec 4
  /-- `CTRL.IE` (R30). -/
  ie : Bool
  /-- `BITLEN` (R32). -/
  bitlen : Word
  /-- `MINBITS` (R33). -/
  minbits : BitVec 16
  /-- `ROUNDS` (R34). -/
  rounds : BitVec 8
  /-- `ESTART` (R35). -/
  estart : Word
  /-- `ATTEMPTCAP` (R36). -/
  attemptcap : Word
  /-- `ATTEMPTS` (R37). -/
  attempts : Word
  /-- `RNGCNT` (R38). -/
  rngcnt : Word
  /-- `PHASE` and the hidden registers (R43, R44). -/
  engine : Engine
  /-- The words the randomness source will supply, the next one first (R47; log 3). -/
  rng : List Word
  /-- The host's events to come, the next one first (log 1). -/
  host : List HostEvent
  /-- `bus_rdata`: what the last transaction answered, `none` when it was no read (R71; log 12). -/
  rdata : Option Word
deriving DecidableEq, Repr

/-- Why the machine stops on an event. No command raises one. -/
inductive Fault where
  /-- Raised by a host access at an offset the `AW`-bit word address of the port cannot express (R71,
  R75). Safe: the spec gives such an access no meaning. -/
  | offsetOutsideSpace (addr : Nat)
deriving DecidableEq, Repr

/-- Why the model gives an event no meaning. -/
inductive Refusal where
  /-- Raised by exec for a command without a meaning; no arm does. Safe. -/
  | notModelled (mnemonic : String)
  /-- Raised by a host access at an address that is no multiple of 4: "this spec gives them no
  meaning, and a model should refuse them" (R79). Safe. -/
  | unalignedAccess (addr : Nat)
deriving DecidableEq, Repr

/-- The state right after a reset (R49, R340), of the default build, with no host event and no word
of the randomness source given yet. -/
def State.reset : State where
  build := Build.standard
  g := Vector.replicate 8 0
  dbgp := 0
  dbgq := 0
  done := false
  prime := false
  buserr := false
  errcode := 0
  sub := 0
  ie := false
  bitlen := 0
  minbits := 1024
  rounds := 40
  estart := 65537
  attemptcap := 65536
  attempts := 0
  rngcnt := 0
  engine := Engine.cleared
  rng := []
  host := []
  rdata := none

end Sys2Proof.Machine
end

