-- ==== Sys2Proof/Machine/Arith.lean ====
section
/-! DEFINITION. The arithmetic of the commands on naturals and integers, exact (00_scope.md R6, R7;
47_system.md R286), and the functions the rules of the families compute: `MontMul` (R131), `ModExp`
(R160), `Gcd` and `ModInv` (R180), and the limb algorithms of the blocks (R132, R133, R134). -/

namespace Sys2Proof.Machine

/-- `bitlen(v)`: 0 for 0, else the `k` with `2^(k-1) <= v < 2^k` (R7). -/
def bitLength (v : Nat) : Nat := if v = 0 then 0 else Nat.log2 v + 1

/-- `limb(v, j) = v[32j+31 : 32j]` (R7). -/
def limb (v j : Nat) : Nat := v / 2 ^ (32 * j) % 2 ^ 32

/-- Replace limb `j` and keep the others: `v - limb(v, j) * 2^(32j) + w * 2^(32j)` (R73). -/
def setLimb (v j w : Nat) : Nat := v - limb v j * 2 ^ (32 * j) + w * 2 ^ (32 * j)

/-- `limbs(v) = max(1, ceil(bitlen(v) / 32))` (R7). -/
def limbs (v : Nat) : Nat := max 1 ((bitLength v + 31) / 32)

/-- The Montgomery radix of a modulus, `R = 2^(32 * limbs(n))` (R130). -/
def radix (n : Nat) : Nat := 2 ^ (32 * limbs n)

/-! ### Euclid (R180 to R185) -/

/-- `Gcd(a, b)` (R180): `Gcd(a, 0) = Gcd(0, a) = a`. -/
def gcdOf (a b : Nat) : Nat := Nat.gcd a b

/-- The loop of R181 from `(R0, R1, T0, T1)`, for at most the given number of passes; at the exit
`(R0, T0)`. `R1` strictly decreases (R182), so `R1 + 1` passes are enough. -/
def euclidLoop : Nat → Nat → Nat → Int → Int → Nat × Int
  | 0, r0, _, t0, _ => (r0, t0)
  | k + 1, r0, r1, t0, t1 =>
    if r1 = 0 then (r0, t0)
    else euclidLoop k r1 (r0 % r1) t1 (t0 - ((r0 / r1 : Nat) : Int) * t1)

/-- `ModInv(a, m)` by extended Euclid (R180, R181): `some` of the inverse in `[0, m-1]` when
`Gcd(a mod m, m) = 1`, `none` otherwise. -/
def modInv (a m : Nat) : Option Nat :=
  let r := euclidLoop (a % m + 1) m (a % m) 0 1
  if r.1 = 1 then some (r.2 % (m : Int)).toNat else none

/-! ### Montgomery products and powers, at the command level -/

/-- `MontMul(a, b, n) = (a * b * R^(-1)) mod n` (R131); meant for `n` odd, `n >= 3`, `a, b < n`. -/
def montMul (a b n : Nat) : Nat := a * b * (modInv (radix n) n).getD 0 % n

/-- The scan of R161 on plain residues: bits `k-1` down to 0 of the exponent, square, and multiply
where the bit is 1. -/
def powScan (b e n : Nat) : Nat → Nat → Nat
  | 0, x => x
  | k + 1, x =>
    let y := x * x % n
    powScan b e n k (if e.testBit k then y * b % n else y)

/-- `ModExp(b, e, n) = b^e mod n`, with `b^0 = 1` (R160), by binary square-and-multiply. -/
def modExp (b e n : Nat) : Nat := powScan (b % n) e n (bitLength e) (1 % n)

/-! ### The blocks `MPRE` and `MMUL`, limb by limb -/

/-- One pass of R132: `y <- (y * ((2 - n0 * y) mod 2^32)) mod 2^32`. -/
def newtonPass (n0 y : Word) : Word := y * (2 - n0 * y)

/-- `np = (-n^(-1)) mod 2^32`, by four Newton passes from the low limb of `n` (R132). -/
def negInverse (n : Nat) : Word :=
  let n0 : Word := BitVec.ofNat 32 (limb n 0)
  0 - newtonPass n0 (newtonPass n0 (newtonPass n0 (newtonPass n0 n0)))

/-- One pass of R133: double, and subtract `n` if the result is not below it. -/
def doublePass (n x : Nat) : Nat := if n ≤ 2 * x then 2 * x - n else 2 * x

/-- The doublings of R133: so many passes from `x`. -/
def doublings (n : Nat) : Nat → Nat → Nat
  | 0, x => x
  | k + 1, x => doublings n k (doublePass n x)

/-- `r2 = R^2 mod n` by `64 * s` doublings of 1 (R133). -/
def radixSquared (n s : Nat) : Nat := doublings n (64 * s) 1

/-- The inner loop `t <- t + a * b[i]` of R134, limbs `j` onward for so many limbs, with the carry
`C`; answers the last carry and the accumulator. -/
def addProduct (a bi : Nat) : Nat → Nat → Nat → Nat → Nat × Nat
  | 0, _, c, t => (c, t)
  | k + 1, j, c, t =>
    let v := limb t j + limb a j * bi + c
    addProduct a bi k (j + 1) (v / 2 ^ 32) (setLimb t j (v % 2 ^ 32))

/-- The first half of outer pass `i` of R134: the inner loop, then `t[s]` and `t[s+1]`. -/
def mulHalf (a b s i t : Nat) : Nat :=
  let r := addProduct a (limb b i) s 0 0 t
  let v := limb r.2 s + r.1
  setLimb (setLimb r.2 s (v % 2 ^ 32)) (s + 1) (v / 2 ^ 32)

/-- The loop `t <- (t + m * n) / 2^32` of R134, limbs `j` onward (each stored one limb lower). -/
def shiftReduce (n m : Nat) : Nat → Nat → Nat → Nat → Nat × Nat
  | 0, _, c, t => (c, t)
  | k + 1, j, c, t =>
    let v := limb t j + m * limb n j + c
    shiftReduce n m k (j + 1) (v / 2 ^ 32) (setLimb t (j - 1) (v % 2 ^ 32))

/-- The second half of an outer pass of R134: the multiplier `m`, the reduction, and the top limbs. -/
def redHalf (n s : Nat) (np : Word) (t : Nat) : Nat :=
  let m := limb t 0 * np.toNat % 2 ^ 32
  let r := shiftReduce n m (s - 1) 1 ((limb t 0 + m * limb n 0) / 2 ^ 32) t
  let v := limb r.2 s + r.1
  let t1 := setLimb r.2 (s - 1) (v % 2 ^ 32)
  setLimb t1 s ((limb t1 (s + 1) + v / 2 ^ 32) % 2 ^ 32)

/-- `u <- sum over j = 0 .. s of t[j] * 2^(32j)`, then the one final subtraction (R134). -/
def mulResult (n s t : Nat) : Nat :=
  let u := t % 2 ^ (32 * (s + 1))
  if n ≤ u then u - n else u

/-- The outer passes `i` onward of R134. -/
def mulPasses (a b n s : Nat) (np : Word) : Nat → Nat → Nat → Nat
  | 0, _, t => t
  | k + 1, i, t => mulPasses a b n s np k (i + 1) (redHalf n s np (mulHalf a b s i t))

/-- `MMUL`'s whole loop (R134) with the precomputed values of `MPRE` (R132). -/
def mulLimbwise (a b n : Nat) : Nat :=
  mulResult n (limbs n) (mulPasses a b n (limbs n) (negInverse n) (limbs n) 0 0)

/-! ### `MEXP`, with every product a Montgomery product -/

/-- The scan of R161 in Montgomery form, bits `k-1` down to 0. -/
def montScan (bm e n : Nat) : Nat → Nat → Nat
  | 0, x => x
  | k + 1, x =>
    let y := mulLimbwise x x n
    montScan bm e n k (if e.testBit k then mulLimbwise y bm n else y)

/-- `MEXP(b, e, n)` as R161 computes it: into Montgomery form, the scan, and back. -/
def expMontgomery (b e n : Nat) : Nat :=
  let r2 := radixSquared n (limbs n)
  mulLimbwise (montScan (mulLimbwise b r2 n) e n (bitLength e) (mulLimbwise 1 r2 n)) 1 n

/-! ### Miller-Rabin arithmetic -/

/-- The number of trailing zero bits of `v`, looking at no more than so many bits (R203). -/
def trailingZeros : Nat → Nat → Nat
  | 0, _ => 0
  | k + 1, v => if v % 2 = 0 then trailingZeros k (v / 2) + 1 else 0

/-- `TS` of `Decompose(n)`: the trailing zero bits of `n - 1` (R203). -/
def decomposeS (n : Nat) : Nat := trailingZeros (bitLength (n - 1)) (n - 1)

/-- `TD` of `Decompose(n)`: `(n - 1) div 2^TS` (R203). -/
def decomposeD (n : Nat) : Nat := (n - 1) / 2 ^ decomposeS n

/-- The squarings of R206, so many of them, from `TX`: does one reach `n - 1` before 1? -/
def squaresPass (n : Nat) : Nat → Nat → Bool
  | 0, _ => false
  | k + 1, x =>
    let y := x * x % n
    if y = n - 1 then true else if y = 1 then false else squaresPass n k y

/-- `RoundPasses(n, TS, TD, a)` (R205, R206). -/
def roundPasses (n a : Nat) : Bool :=
  let x := modExp a (decomposeD n) n
  if x = 1 ∨ x = n - 1 then true else squaresPass n (decomposeS n - 1) x

end Sys2Proof.Machine
end

