-- ==== Sys2Proof/Machine/Flags.lean ====
section
/-! DEFINITION. The flags: error codes and sub-codes (60_exceptions.md R300, R301), the computed bits
of STATUS (10_state.md R25, R26), the words a read of a status or constant register returns (R25,
R30, R40), and the output lines (R47, R48, R310). The commands have no carry, zero, sign or overflow
flag (R286). -/

namespace Sys2Proof.Machine

/-- `ERRCODE` of an error (R300, R301). -/
def Err.code : Err → BitVec 4
  | .bitlenBelowMin | .bitlenAboveMax | .bitlenOdd | .noE | .noInverse | .badModulus => 1
  | .bitlenLt2 | .exhausted | .keyRetry | .rngReject => 2
  | .operandGeModulus => 3
  | .unknownOpcode | .reservedBits | .destOverlap => 4
  | .aborted => 5

/-- `SUB` of an error (R301). -/
def Err.subcode : Err → BitVec 4
  | .bitlenBelowMin => 1
  | .bitlenAboveMax => 2
  | .bitlenOdd => 3
  | .noE => 4
  | .noInverse => 5
  | .badModulus => 6
  | .bitlenLt2 => 1
  | .exhausted => 2
  | .keyRetry => 3
  | .rngReject => 4
  | .operandGeModulus => 1
  | .unknownOpcode => 1
  | .reservedBits => 2
  | .destOverlap => 3
  | .aborted => 0

/-- The pairs `(ERRCODE, SUB)` a completion can leave: `(0, 0)` and the table of R301. -/
def statusPairs : List (BitVec 4 × BitVec 4) :=
  [(0, 0), (1, 1), (1, 2), (1, 3), (1, 4), (1, 5), (1, 6), (2, 1), (2, 2), (2, 3), (2, 4), (3, 1),
   (4, 1), (4, 2), (4, 3), (5, 0)]

/-- `STATUS.BUSY`: "1 exactly when PHASE != IDLE" (R26). -/
def State.busy (s : State) : Bool := s.engine.phase != .idle

/-- `STATUS.ERR`: "always equal to (ERRCODE != 0)" (R25). -/
def State.err (s : State) : Bool := s.errcode != 0

/-- `irq = CTRL.IE and STATUS.DONE` at all times (R48, R310). -/
def State.irq (s : State) : Bool := s.ie && s.done

/-- `rng_req`: the engine waits in a drawing state (R47, R210, R226). -/
def State.rngReq (s : State) : Bool := s.engine.phase == .mrDraw || s.engine.phase == .pgDraw

/-- The word a read of `STATUS` returns (R25). -/
def State.statusWord (s : State) : Word :=
  BitVec.ofNat 32 (s.busy.toNat + 2 * s.done.toNat + 4 * s.err.toNat + 8 * s.prime.toNat
    + 16 * s.buserr.toNat + 2 ^ 8 * s.errcode.toNat + 2 ^ 16 * s.sub.toNat)

/-- The word a read of `CTRL` returns: `IE`; `ABORT` and `SRST` read 0 (R30). -/
def State.ctrlWord (s : State) : Word := BitVec.ofNat 32 s.ie.toNat

/-- The constant of `CAP`: bits 15:0 `MAXBITS`, 23:16 `W = 32`, 27:24 `NREG = 8`, 28 `DBG_PRIMES` (R40). -/
def capWord (b : Build) : Word :=
  BitVec.ofNat 32 (b.maxBits + 2 ^ 16 * 32 + 2 ^ 24 * 8 + 2 ^ 28 * b.dbgPrimes.toNat)

end Sys2Proof.Machine
end

