-- ==== Sys2Proof/Machine/Operands.lean ====
section
/-! DEFINITION. The operands of the commands: the big registers (10_state.md R21, R22, R41), which of
them a command reads (30_encoding.md R103, R107), and the checks the Montgomery-based commands make
on the latched operands (40_montgomery.md R137). There is one operand form: a big register named by a
3-bit field, and scalars from the control registers (R109). -/

namespace Sys2Proof.Machine

/-- `G[r]` (R8, R21). -/
def State.readG (s : State) (r : Reg) : Nat := s.g[r.val]

/-- `G[r] <- v` (R8): a register holds `MAXBITS` bits, every limb of it is replaced (R303). No rule
writes a value of more bits (R286), so the reduction changes nothing there (log 8). -/
def State.writeG (s : State) (r : Reg) (v : Nat) : State :=
  { s with g := s.g.set r.val (v % 2 ^ s.build.maxBits) r.isLt }

/-- `DBGP` as it reads: hardwired to 0 when `DBG_PRIMES = 0` (R41). -/
def State.readDbgP (s : State) : Nat := if s.build.dbgPrimes then s.dbgp else 0

/-- `DBGQ` as it reads: hardwired to 0 when `DBG_PRIMES = 0` (R41). -/
def State.readDbgQ (s : State) : Nat := if s.build.dbgPrimes then s.dbgq else 0

/-- `DBGP <- p; DBGQ <- q`; a build with `DBG_PRIMES = 0` holds 0 in both (R41). -/
def State.writeDbg (s : State) (p q : Nat) : State :=
  if s.build.dbgPrimes then
    { s with dbgp := p % 2 ^ s.build.maxBits, dbgq := q % 2 ^ s.build.maxBits }
  else { s with dbgp := 0, dbgq := 0 }

/-- The register the command latches into `OPA` (R103, R107). -/
def operandA : Instr → Option Reg
  | .montmul _ a _ _ | .tomont _ a _ | .frommont _ a _ | .modexp _ a _ _ | .gcd _ a _
  | .modinv _ a _ | .mrtest a | .encrypt _ a _ _ | .decrypt _ a _ _ => some a
  | .genprime _ | .genkey _ _ _ | .zeroize => none

/-- The register the command latches into `OPB` (R103, R107). -/
def operandB : Instr → Option Reg
  | .montmul _ _ b _ | .modexp _ _ b _ | .gcd _ _ b | .encrypt _ _ b _ | .decrypt _ _ b _ => some b
  | .tomont _ _ _ | .frommont _ _ _ | .modinv _ _ _ | .mrtest _ | .genprime _ | .genkey _ _ _
  | .zeroize => none

/-- The register the command latches into `OPM` (R103, R107). -/
def operandM : Instr → Option Reg
  | .montmul _ _ _ m | .tomont _ _ m | .frommont _ _ m | .modexp _ _ _ m | .modinv _ _ m
  | .encrypt _ _ _ m | .decrypt _ _ _ m => some m
  | .gcd _ _ _ | .mrtest _ | .genprime _ | .genkey _ _ _ | .zeroize => none

/-- The content of a latch: the register's if the command reads one, else what it held. -/
def State.latched (s : State) (r : Option Reg) (old : Nat) : Nat :=
  match r with
  | some r => s.readG r
  | none => old

/-- `CheckModulus(n)` (R137): "if n < 3 or n mod 2 = 0". -/
def badModulus (n : Nat) : Bool := decide (n < 3) || n % 2 == 0

/-- `CheckModulus(n)`, then `CheckRange` of each operand (R137); `none` when all pass. -/
def checkOperands (n : Nat) (xs : List Nat) : Option Err :=
  if badModulus n then some .badModulus
  else if xs.any (fun x => decide (n ≤ x)) then some .operandGeModulus
  else none

/-- `CheckKeyLength(B)` (R242), in its order; `none` when all pass. -/
def checkKeyLength (b : Build) (minbits : BitVec 16) (len : Int) : Option Err :=
  if len < (minbits.toNat : Int) then some .bitlenBelowMin
  else if (b.maxBits : Int) < len then some .bitlenAboveMax
  else if len % 2 = 1 then some .bitlenOdd
  else none

/-- The two tests of `PGEN` on its length (R223), in their order; `none` when both pass. -/
def checkPrimeLength (b : Build) (k : Int) : Option Err :=
  if k < 2 then some .bitlenLt2
  else if (b.maxBits : Int) < k then some .bitlenAboveMax
  else none

end Sys2Proof.Machine
end

