-- ==== Sys2Proof/Machine/Ops.lean ====
section
/-! DEFINITION. The operations every command shares: acceptance (30_encoding.md R105), the decode
checks (R106), the latch (R107), the successful completion (60_exceptions.md R303), the completion
with an error, which is this hardware's taking of an exception (R304; log 16), zeroisation (R305), and
the return from one, which needs nothing but the acknowledge of DONE (R313). Both levels of
description (R9) use them. -/

namespace Sys2Proof.Machine

/-- Zeroisation (R305): every hidden register 0, `PHASE <- IDLE`, so `BUSY = 0` and `rng_req = 0`. -/
def State.zeroise (s : State) : State := { s with engine := Engine.cleared }

/-- Acceptance of the word `w` (R105), without the decode checks and the latch. -/
def State.accept (s : State) (w : Word) : State :=
  { s with
    done := false
    errcode := 0
    sub := 0
    engine := { s.engine with cw := w, lrng := 0, latt := 0, phase := .decode } }

/-- The decode checks (R106), in their order: the command, or the error the word completes with. -/
def decodeChecks (w : Word) : Except Err Instr :=
  match decode w with
  | .error .unknownOpcode => .error .unknownOpcode
  | .error .reservedBits => .error .reservedBits
  | .ok i => if i.wellFormed then .ok i else .error .destOverlap

/-- The command in `CW` if its decode checks pass (R304: "and the decode checks had passed"). -/
def commandOf (w : Word) : Option Instr :=
  match decodeChecks w with
  | .ok i => some i
  | .error _ => none

/-- The latch (R107): the operands the command reads; MRTEST clears `PRIME`; on to `EXEC`. -/
def State.latch (s : State) (i : Instr) : State :=
  { s with
    prime := match i with
      | .mrtest _ => false
      | .montmul _ _ _ _ | .tomont _ _ _ | .frommont _ _ _ | .modexp _ _ _ _ | .gcd _ _ _
      | .modinv _ _ _ | .genprime _ | .genkey _ _ _ | .encrypt _ _ _ _ | .decrypt _ _ _ _
      | .zeroize => s.prime
    engine := { s.engine with
      opa := s.latched (operandA i) s.engine.opa
      opb := s.latched (operandB i) s.engine.opb
      opm := s.latched (operandM i) s.engine.opm
      phase := .exec } }

/-- The state in which the command `i` starts executing: accepted and latched. -/
def State.accepted (s : State) (i : Instr) : State := (s.accept (encode i)).latch i

/-- What a successful completion writes to host-visible registers besides the completion flags (R103,
R303). -/
inductive Commit where
  /-- `G[d] <- RES0`. -/
  | big (d : Reg) (v : Nat)
  /-- `STATUS.PRIME <- verdict`. -/
  | verdict (prime : Bool)
  /-- `G[m] <- n; G[b] <- e; G[d] <- d`, and the primes for `DBGP`, `DBGQ`. -/
  | key (d b m : Reg) (n e x p q : Nat)
  /-- Every `G`, `DBGP`, `DBGQ` and `PRIME` to 0. -/
  | clear
deriving DecidableEq, Repr

/-- The register writes of a successful completion (R303). -/
def State.commit (s : State) : Commit → State
  | .big d v => s.writeG d v
  | .verdict p => { s with prime := p }
  | .key d b m n e x p q => (((s.writeG m n).writeG b e).writeG d x).writeDbg p q
  | .clear => { s with g := Vector.replicate 8 0, dbgp := 0, dbgq := 0, prime := false }

/-- `if OPC in {GENPRIME, GENKEY}: ATTEMPTS <- LATT` (R37, R303, R304). -/
def State.countAttempts (s : State) : Instr → State
  | .genprime _ | .genkey _ _ _ => { s with attempts := s.engine.latt }
  | .montmul _ _ _ _ | .tomont _ _ _ | .frommont _ _ _ | .modexp _ _ _ _ | .gcd _ _ _
  | .modinv _ _ _ | .mrtest _ | .encrypt _ _ _ _ | .decrypt _ _ _ _ | .zeroize => s

/-- The completion flags and the draw count (R27, R38), then zeroisation: the end of R303 and R304. -/
def State.complete (s : State) (code subcode : BitVec 4) : State :=
  State.zeroise { s with
    rngcnt := s.rngcnt + s.engine.lrng
    errcode := code
    sub := subcode
    done := true }

/-- The successful completion of the command `i` (R303), one indivisible event. -/
def State.completeOk (s : State) (i : Instr) (c : Commit) : State :=
  ((s.commit c).countAttempts i).complete 0 0

/-- What a command that fails after its decode checks leaves besides the completion flags (R304): a
GENKEY clears `DBGP`, `DBGQ`; GENPRIME and GENKEY count their candidates; `PRIME` stays 0 for MRTEST. -/
def State.failEffects (s : State) : Instr → State
  | .genkey d b m => State.countAttempts { s with dbgp := 0, dbgq := 0 } (.genkey d b m)
  | .genprime d => s.countAttempts (.genprime d)
  | .mrtest _ => { s with prime := false }
  | .montmul _ _ _ _ | .tomont _ _ _ | .frommont _ _ _ | .modexp _ _ _ _ | .gcd _ _ _
  | .modinv _ _ _ | .encrypt _ _ _ _ | .decrypt _ _ _ _ | .zeroize => s

/-- TAKING AN EXCEPTION: the completion with an error (R304), one indivisible event. `i` is the
command whose decode checks had passed, `none` if they had not. No `G` is written. -/
def State.completeErr (s : State) (i : Option Instr) (e : Err) : State :=
  match i with
  | some i => (s.failEffects i).complete e.code e.subcode
  | none => s.complete e.code e.subcode

/-- RETURNING FROM ONE: nothing was entered, so there is no return (R313); the host may acknowledge
`DONE` by writing 1 to STATUS bit 1 (R25, R112 `ACK`). -/
def State.acknowledge (s : State) : State := { s with done := false }

/-- Abort of the running command (R316): the completion with `ABORTED`, in whatever state the engine
is; nothing when no command runs. -/
def State.abort (s : State) : State :=
  if s.busy then s.completeErr (commandOf s.engine.cw) .aborted else s

/-- A reset, hard (R340) or soft (R341): every piece of state as after reset (R49). The build, the
randomness source (R342) and the host's events to come are outside the block and stay. -/
def State.resetAll (s : State) : State :=
  { State.reset with build := s.build, rng := s.rng, host := s.host }

/-- A locked access (R78): dropped, and recorded. -/
def State.locked (s : State) : State := { s with buserr := true }

end Sys2Proof.Machine
end

