-- ==== Sys2Proof/Machine/Random.lean ====
section
/-! DEFINITION. Drawing from the randomness port at the command level (10_state.md R47, 44_primegen.md
R221, R222, 43_primality.md R204). A draw takes the next word of the list the source will supply; when
there is none the port is silent and the command waits. -/

namespace Sys2Proof.Machine

/-- What a drawing computation carries: the words to come, and the running command's live counts
`LRNG` and `LATT` (R44). -/
structure Draws where
  words : List Word
  lrng : Word
  latt : Word
deriving DecidableEq, Repr

/-- How a drawing computation ends: with a value, with an error (R46), or waiting on a silent port. -/
inductive Gen (α : Type) where
  | ok (a : α) (d : Draws)
  | err (e : Err) (d : Draws)
  | silent
deriving DecidableEq, Repr

/-- Go on with the value; pass an error or a silent port on unchanged (R46). -/
def Gen.andThen {α β : Type} (x : Gen α) (f : α → Draws → Gen β) : Gen β :=
  match x with
  | .ok a d => f a d
  | .err e d => .err e d
  | .silent => .silent

/-- So many calls of `RngNext()`, least significant limb first: `sum over j of w[j] * 2^(32j)` (R221). -/
def drawWords : Nat → Draws → Gen Nat
  | 0, d => .ok 0 d
  | c + 1, d =>
    match d.words with
    | [] => .silent
    | w :: ws =>
      (drawWords c { d with words := ws, lrng := d.lrng + 1 }).andThen
        fun v d' => .ok (w.toNat + 2 ^ 32 * v) d'

/-- The number of words of `DrawBits(k)`: `ceil(k / 32)` (R221). -/
def wordsFor (k : Nat) : Nat := (k + 31) / 32

/-- `DrawBits(k)` (R221). -/
def drawBits (k : Nat) (d : Draws) : Gen Nat :=
  (drawWords (wordsFor k) d).andThen fun v d' => .ok (v % 2 ^ k) d'

/-- `v OR 2^(k-1) OR 1` (R222): a candidate from its draw. -/
def candidateFrom (k v : Nat) : Nat := v ||| 2 ^ (k - 1) ||| 1

/-- `Candidate(k)` (R222). -/
def candidate (k : Nat) (d : Draws) : Gen Nat :=
  (drawBits k d).andThen fun v d' => .ok (candidateFrom k v) d'

/-- A base of `DrawBase(n)` is accepted: `2 <= a <= n - 2` (R204). -/
def baseInRange (n a : Nat) : Bool := decide (2 ≤ a) && decide (a ≤ n - 2)

/-- `DrawBase(n)` with so many rejections left before `RNG_REJECT` (R204). -/
def drawBase (n : Nat) : Nat → Draws → Gen Nat
  | 0, d => .err .rngReject d
  | k + 1, d =>
    (drawBits (bitLength n) d).andThen fun a d' =>
      if baseInRange n a then .ok a d' else drawBase n k d'

end Sys2Proof.Machine
end

