-- ==== Sys2Proof/Machine/Command.lean ====
section
/-! DEFINITION. The life of a command at the command level (00_scope.md R9): acceptance, decode checks,
latch, the command's own computation on the latched operands, completion. Every meaning is one call
of `runCommand`. -/

namespace Sys2Proof.Machine

/-- The counts a command starts with (R105), and the words the source will supply. -/
def State.draws (s : State) : Draws := { words := s.rng, lrng := s.engine.lrng, latt := s.engine.latt }

/-- The state with a computation's draws taken. -/
def State.withDraws (s : State) (d : Draws) : State :=
  { s with rng := d.words, engine := { s.engine with lrng := d.lrng, latt := d.latt } }

/-- The end of the command `i`, which started executing in `s`: the completion its computation asks
for (R303, R304); with a silent port it is still executing (R47; log 5). -/
def State.finish (s : State) (i : Instr) : Gen Commit → State
  | .ok c d => (s.withDraws d).completeOk i c
  | .err e d => (s.withDraws d).completeErr (some i) e
  | .silent => s

/-- The command `i`, issued in `s` and computing `body` in the state it starts executing in. A write of
`CMD` while a command runs is a locked access (R31, R78). A GENKEY whose destinations coincide fails
its decode checks and is not latched (R106). -/
def runCommand (i : Instr) (body : State → Gen Commit) (s : State) : Host.Outcome State Fault Refusal :=
  if s.busy then .next s.locked
  else if i.wellFormed then .next ((s.accepted i).finish i (body (s.accepted i)))
  else .next ((s.accept (encode i)).completeErr none .destOverlap)

/-- A computation that draws nothing: its result to `G[d]`, or its error. -/
def State.result (s : State) (d : Reg) (r : Except Err Nat) : Gen Commit :=
  match r with
  | .ok v => .ok (.big d v) s.draws
  | .error e => .err e s.draws

/-- A value guarded by a check (R46, R306). -/
def guarded (check : Option Err) (v : Nat) : Except Err Nat :=
  match check with
  | some e => .error e
  | none => .ok v

/-- A word written to `CMD` that is no command (R104, R106): accepted, and completed with the error. -/
def rejectWord (w : Word) (e : Err) (s : State) : State :=
  if s.busy then s.locked else (s.accept w).completeErr none e

end Sys2Proof.Machine
end

