-- ==== Sys2Proof/Machine/Cipher.lean ====
section
/-! DEFINITION. ENCRYPT and DECRYPT (46_cipher.md R271, R272): one datapath under two opcodes (R273). -/

namespace Sys2Proof.Machine

/-- The datapath of the cipher (R271, R272, R273): `CheckModulus`, `CheckRange`, one exponentiation. -/
def cipherResult (x e n : Nat) : Except Err Nat := guarded (checkOperands n [x]) (modExp x e n)

/-- `ENCRYPT Gd, Ga, Gb, Gm` (R271): `message^e mod n`. -/
def execEncrypt (d a b m : Reg) (s : State) : Host.Outcome State Fault Refusal :=
  runCommand (.encrypt d a b m)
    (fun u => u.result d (cipherResult u.engine.opa u.engine.opb u.engine.opm)) s

/-- `DECRYPT Gd, Ga, Gb, Gm` (R272): `ciphertext^d mod n`. -/
def execDecrypt (d a b m : Reg) (s : State) : Host.Outcome State Fault Refusal :=
  runCommand (.decrypt d a b m)
    (fun u => u.result d (cipherResult u.engine.opa u.engine.opb u.engine.opm)) s

end Sys2Proof.Machine
end

