-- ==== Sys2Proof/Machine/Primality.lean ====
section
/-! DEFINITION. The Miller-Rabin tester and MRTEST (43_primality.md R201, R212). -/

namespace Sys2Proof.Machine

/-- The rounds of R201, so many of them: a base a round, stopping at the first that proves `n`
composite. -/
def testRounds (n : Nat) : Nat → Draws → Gen Bool
  | 0, d => .ok true d
  | k + 1, d =>
    (drawBase n Config.baseRejectCap d).andThen fun a d' =>
      if roundPasses n a then testRounds n k d' else .ok false d'

/-- `MRT(n, rounds)` (R201): the verdict, true for "prime". -/
def millerRabin (n rounds : Nat) (d : Draws) : Gen Bool :=
  if n < 2 then .ok false d
  else if n % 2 = 0 then .ok false d
  else if n = 3 then .ok true d
  else testRounds n rounds d

/-- `MRTEST Ga` (R212). -/
def execMrtest (a : Reg) (s : State) : Host.Outcome State Fault Refusal :=
  runCommand (.mrtest a)
    (fun u => (millerRabin u.engine.opa u.rounds.toNat u.draws).andThen
      fun v d => .ok (.verdict v) d) s

end Sys2Proof.Machine
end

