-- ==== Sys2Proof/Machine/PrimeGen.lean ====
section
/-! DEFINITION. The prime generator and GENPRIME (44_primegen.md R223, R228). -/

namespace Sys2Proof.Machine

/-- The loop of R223 with so many attempts left before `EXHAUSTED`. -/
def primeSearch (k rounds : Nat) : Nat → Draws → Gen Nat
  | 0, d => .err .exhausted d
  | c + 1, d =>
    (candidate k { d with latt := d.latt + 1 }).andThen fun p d' =>
      (millerRabin p rounds d').andThen fun v d'' =>
        if v then .ok p d'' else primeSearch k rounds c d''

/-- `PGEN(k)` (R223). The cap and the rounds are those of the configuration. -/
def generatePrime (u : State) (k : Int) (d : Draws) : Gen Nat :=
  match checkPrimeLength u.build k with
  | some e => .err e d
  | none => primeSearch k.toNat u.rounds.toNat u.attemptcap.toNat d

/-- `GENPRIME Gd` (R228). -/
def execGenprime (r : Reg) (s : State) : Host.Outcome State Fault Refusal :=
  runCommand (.genprime r)
    (fun u => (generatePrime u (sext32 u.bitlen) u.draws).andThen
      fun p d => .ok (.big r p) d) s

end Sys2Proof.Machine
end

