-- ==== Sys2Proof/Machine/KeyGen.lean ====
section
/-! DEFINITION. The key-pair builder and GENKEY (45_keygen.md R241 to R251). -/

namespace Sys2Proof.Machine

/-- p: the one kept from before, when q alone is redrawn (R244), else a fresh one (R243). -/
def keptOrDrawn (u : State) (k : Int) (kept : Option Nat) (d : Draws) : Gen Nat :=
  match kept with
  | some p => .ok p d
  | none => generatePrime u k d

/-- Steps 1 and 2 of GENKEY (R243 to R247) with so many retries left before `KEY_RETRY`: p (kept, when
q alone is redrawn), q, the comparison, the window of n. Answers the pair `(p, q)`. -/
def keyPrimes (u : State) (len : Int) : Nat → Option Nat → Draws → Gen (Nat × Nat)
  | 0, _, d => .err .keyRetry d
  | k + 1, kept, d =>
    (keptOrDrawn u (len / 2) kept d).andThen fun p d1 =>
    (generatePrime u (len / 2) d1).andThen fun q d2 =>
      if q = p then keyPrimes u len k (some p) d2
      else if p * q < 2 ^ (len.toNat - 1) then keyPrimes u len k none d2
      else .ok (p, q) d2

/-- `FindE(phi)` (R249) from a candidate, with so many rejections left. -/
def findE (phi : Nat) : Nat → Nat → Option Nat
  | 0, _ => none
  | k + 1, e =>
    if phi ≤ e then none
    else if 1 < e ∧ gcdOf e phi = 1 then some e
    else findE phi k (e + 2)

/-- Steps 3 to 6 of GENKEY (R248, R249, R251, R253) from the two primes. -/
def keyFromPrimes (rd rb rm : Reg) (estart p q : Nat) (d : Draws) : Gen Commit :=
  let phi := (p - 1) * (q - 1)
  match findE phi Config.eRetryCap estart with
  | none => .err .noE d
  | some e =>
    match modInv e phi with
    | none => .err .noInverse d
    | some x => .ok (.key rd rb rm (p * q) e x p q) d

/-- `GENKEY Gd, Gb, Gm` (R241). -/
def execGenkey (d b m : Reg) (s : State) : Host.Outcome State Fault Refusal :=
  runCommand (.genkey d b m)
    (fun u =>
      match checkKeyLength u.build u.minbits (sext32 u.bitlen) with
      | some e => .err e u.draws
      | none =>
        (keyPrimes u (sext32 u.bitlen) Config.keyRetryCap none u.draws).andThen
          fun pq d' => keyFromPrimes d b m u.estart.toNat pq.1 pq.2 d') s

end Sys2Proof.Machine
end

