-- ==== Sys2Proof/Machine/ModExp.lean ====
section
/-! DEFINITION. MODEXP (41_modexp.md R165). -/

namespace Sys2Proof.Machine

/-- `MODEXP Gd, Ga, Gb, Gm` (R165): the base is reduced, not refused. -/
def execModexp (d a b m : Reg) (s : State) : Host.Outcome State Fault Refusal :=
  runCommand (.modexp d a b m)
    (fun u => u.result d (guarded (checkOperands u.engine.opm [])
      (modExp (u.engine.opa % u.engine.opm) u.engine.opb u.engine.opm))) s

end Sys2Proof.Machine
end

