-- ==== Sys2Proof/Machine/ModInv.lean ====
section
/-! DEFINITION. GCD and MODINV (42_modinv.md R186, R187). -/

namespace Sys2Proof.Machine

/-- `GCD Gd, Ga, Gb` (R186). -/
def execGcd (d a b : Reg) (s : State) : Host.Outcome State Fault Refusal :=
  runCommand (.gcd d a b) (fun u => u.result d (.ok (gcdOf u.engine.opa u.engine.opb))) s

/-- The result of MODINV (R187): the modulus is checked first, then whether there is an inverse. -/
def inverseOrError (x modulus : Nat) : Except Err Nat :=
  if modulus < 2 then .error .badModulus
  else match modInv x modulus with
    | some v => .ok v
    | none => .error .noInverse

/-- `MODINV Gd, Ga, Gm` (R187). -/
def execModinv (d a m : Reg) (s : State) : Host.Outcome State Fault Refusal :=
  runCommand (.modinv d a m) (fun u => u.result d (inverseOrError u.engine.opa u.engine.opm)) s

end Sys2Proof.Machine
end

