-- ==== Sys2Proof/Machine/Montgomery.lean ====
section
/-! DEFINITION. MONTMUL, TOMONT, FROMMONT (40_montgomery.md R140, R141, R142). -/

namespace Sys2Proof.Machine

/-- `MONTMUL Gd, Ga, Gb, Gm` (R140): the Montgomery product of two registers. -/
def execMontmul (d a b m : Reg) (s : State) : Host.Outcome State Fault Refusal :=
  runCommand (.montmul d a b m)
    (fun u => u.result d (guarded (checkOperands u.engine.opm [u.engine.opa, u.engine.opb])
      (montMul u.engine.opa u.engine.opb u.engine.opm))) s

/-- `TOMONT Gd, Ga, Gm` (R141): `MontMul(x, R^2 mod n, n)`, which is `x * R mod n`. -/
def execTomont (d a m : Reg) (s : State) : Host.Outcome State Fault Refusal :=
  runCommand (.tomont d a m)
    (fun u => u.result d (guarded (checkOperands u.engine.opm [u.engine.opa])
      (u.engine.opa * radix u.engine.opm % u.engine.opm))) s

/-- `FROMMONT Gd, Ga, Gm` (R142): `MontMul(x, 1, n)`, which is `x * R^(-1) mod n`. -/
def execFrommont (d a m : Reg) (s : State) : Host.Outcome State Fault Refusal :=
  runCommand (.frommont d a m)
    (fun u => u.result d (guarded (checkOperands u.engine.opm [u.engine.opa])
      (montMul u.engine.opa 1 u.engine.opm))) s

end Sys2Proof.Machine
end

