-- ==== Sys2Proof/Machine/System.lean ====
section
/-! DEFINITION. ZEROIZE (47_system.md R281). -/

namespace Sys2Proof.Machine

/-- `ZEROIZE` (R281): every big register and `PRIME` to 0. -/
def execZeroize (s : State) : Host.Outcome State Fault Refusal :=
  runCommand .zeroize (fun u => .ok .clear u.draws) s

end Sys2Proof.Machine
end

