-- ==== Sys2Proof/Machine/Dispatch.lean ====
section
/-! DEFINITION. One arm per command (30_encoding.md R102): the command issued by the host in this
state, at the command level (00_scope.md R9). -/

namespace Sys2Proof.Machine

/-- The meaning of a command. -/
def exec (i : Instr) (s : State) : Host.Outcome State Fault Refusal :=
  match i with
  | .montmul d a b m => Sys2Proof.Machine.execMontmul d a b m s
  | .tomont d a m => Sys2Proof.Machine.execTomont d a m s
  | .frommont d a m => Sys2Proof.Machine.execFrommont d a m s
  | .modexp d a b m => Sys2Proof.Machine.execModexp d a b m s
  | .gcd d a b => Sys2Proof.Machine.execGcd d a b s
  | .modinv d a m => Sys2Proof.Machine.execModinv d a m s
  | .mrtest a => Sys2Proof.Machine.execMrtest a s
  | .genprime d => Sys2Proof.Machine.execGenprime d s
  | .genkey d b m => Sys2Proof.Machine.execGenkey d b m s
  | .encrypt d a b m => Sys2Proof.Machine.execEncrypt d a b m s
  | .decrypt d a b m => Sys2Proof.Machine.execDecrypt d a b m s
  | .zeroize => Sys2Proof.Machine.execZeroize s

end Sys2Proof.Machine
end

