-- ==== Sys2Proof/Machine/Sequencer.lean ====
section
/-! DEFINITION. The sequencer level (00_scope.md R9): one transition of the engine's state tables, R108
(top), R138 (`MPRE`, `MMUL`), R163 (`MEXP`), R184 (`XGCD`), R210 (`MRT`), R226 (`PGEN`), R252 (`KGEN`).
A block that starts a sub-block waits in its `...For` field until the sub-block is done (R43, R46); a
block that reports an error passes it up to the top level unchanged (R46), so the engine goes to
`FAIL`. -/

namespace Sys2Proof.Machine

/-- An error reported by the innermost block reaches the top level unchanged (R46). -/
def Engine.report (e : Engine) (x : Err) : Engine := { e with phase := .fail x }

/-- The top level has its (first) result and goes to `WRITEBACK` (R108). -/
def Engine.writeback (e : Engine) (v : Nat) : Engine := { e with res0 := v, phase := .writeback }

/-! ### Starting a block -/

/-- Start `MPRE(n)`. -/
def Engine.startPre (e : Engine) (n : Nat) (c : PreCaller) : Engine :=
  { e with mn := n, preFor := c, phase := .mpNp }

/-- Start `MMUL(a, b, n)`, with `np` and `s` as `MPRE` left them. -/
def Engine.startMul (e : Engine) (a b n : Nat) (c : MulCaller) : Engine :=
  { e with ma := a, mb := b, mn := n, mulFor := c, phase := .mmInit }

/-- Start `MEXP`; its operands are the caller's registers. -/
def Engine.startExp (e : Engine) (c : ExpCaller) : Engine := { e with expFor := c, phase := .mePre }

/-- Start `XGCD`; its operands and mode are fixed by the caller. -/
def Engine.startEuclid (e : Engine) (c : EuclidCaller) : Engine := { e with euclFor := c, phase := .xgInit }

/-- Start `MRT(n, ROUNDS)`. -/
def Engine.startTest (e : Engine) (n : Nat) (c : TestCaller) : Engine :=
  { e with tn := n, testFor := c, phase := .mrCheck }

/-- Start `PGEN(k)`. -/
def Engine.startGen (e : Engine) (k : Word) (c : GenCaller) : Engine :=
  { e with pk := k, genFor := c, phase := .pgCheck }

/-! ### The operands of the blocks that hold none of their own -/

/-- The base `MEXP` works on: the operand (reduced, R165) or the tester's base (R205). -/
def Engine.expBase (e : Engine) : Nat :=
  match e.expFor with
  | .command => e.opa % e.opm
  | .tester => e.ta

/-- The exponent of `MEXP`. -/
def Engine.expExponent (e : Engine) : Nat :=
  match e.expFor with
  | .command => e.opb
  | .tester => e.td

/-- The modulus of `MEXP`. -/
def Engine.expModulus (e : Engine) : Nat :=
  match e.expFor with
  | .command => e.opm
  | .tester => e.tn

/-- The first operand of `XGCD`. -/
def Engine.euclidA (e : Engine) : Nat :=
  match e.euclFor with
  | .gcdCommand | .invCommand => e.opa
  | .keyE | .keyD => e.ke

/-- The second operand of `XGCD`: the modulus in inverse mode. -/
def Engine.euclidM (e : Engine) : Nat :=
  match e.euclFor with
  | .gcdCommand => e.opb
  | .invCommand => e.opm
  | .keyE | .keyD => e.kphi

/-- `XGCD` runs in inverse mode. -/
def Engine.euclidInverse (e : Engine) : Bool :=
  match e.euclFor with
  | .gcdCommand | .keyE => false
  | .invCommand | .keyD => true

/-! ### A block is done: its caller goes on -/

/-- `MPRE` is done; `NP`, `S`, `R2` hold its results. -/
def Engine.preDone (e : Engine) : Engine :=
  match e.preFor with
  | .montmul => e.startMul e.opa e.opb e.opm .command
  | .tomont => e.startMul e.opa e.r2 e.opm .command
  | .frommont => e.startMul e.opa 1 e.opm .command
  | .exponentiator => { e with phase := .meOne }
  | .tester => { e with phase := .mrRound }

/-- `MEXP` is done with `y`. -/
def Engine.expDone (e : Engine) (y : Nat) : Engine :=
  match e.expFor with
  | .command => e.writeback y
  | .tester => { e with tx := y, phase := .mrCmp0 }

/-- `MMUL` is done with `u` (the states of R163, and the two products of `MR_SQ`, R206). -/
def Engine.mulDone (e : Engine) (u : Nat) : Engine :=
  match e.mulFor with
  | .command => e.writeback u
  | .meOne => { e with one := u, phase := .meBase }
  | .meBase => { e with bm := u, x := e.one, ei := bitLength e.expExponent, phase := .meNext }
  | .meSqr => { e with x := u, phase := if e.expExponent.testBit e.ei then .meMul else .meNext }
  | .meMul => { e with x := u, phase := .meNext }
  | .meOut => e.expDone u
  | .mrSqFirst => e.startMul u e.tx e.tn .mrSqSecond
  | .mrSqSecond => { e with tx := u, phase := .mrCmp }

/-- A candidate of `FindE` is rejected (R249). -/
def Engine.rejectE (e : Engine) : Engine :=
  if e.ert + 1 = Config.eRetryCap then Engine.report { e with ert := e.ert + 1 } .noE
  else { e with ert := e.ert + 1, ke := e.ke + 2, phase := .kgE }

/-- `KGEN` is done: `n`, `e`, `d` wait for write-back (R252, R253). -/
def Engine.keyDone (e : Engine) : Engine :=
  { e with res0 := e.kn, res1 := e.ke, res2 := e.kd, phase := .writeback }

/-- `XGCD` is done with `g` and, in inverse mode, `inv` (R184); no inverse when `g` is not 1 (R181). -/
def Engine.euclidDone (e : Engine) (g inv : Nat) : Engine :=
  match e.euclFor with
  | .gcdCommand => e.writeback g
  | .invCommand => if g = 1 then e.writeback inv else e.report .noInverse
  | .keyE => if g = 1 then { e with phase := .kgD } else e.rejectE
  | .keyD => if g = 1 then Engine.keyDone { e with kd := inv } else e.report .noInverse

/-- `PGEN` is done with `PC`. -/
def Engine.genDone (e : Engine) : Engine :=
  match e.genFor with
  | .command => e.writeback e.pc
  | .keyP => { e with kp := e.pc, phase := .kgQ }
  | .keyQ => { e with kq := e.pc, phase := .kgEq }

/-- `MRT` is done with a verdict: `RES0` holds it for MRTEST; the generator returns its candidate or
goes to the next (R226). -/
def Engine.testDone (e : Engine) (verdict : Bool) : Engine :=
  match e.testFor with
  | .command => e.writeback verdict.toNat
  | .generator => if verdict then e.genDone else { e with phase := .pgCap }

/-- `Retry()` (R245): the counter, the error at its bound, or the next state. -/
def Engine.retry (e : Engine) (next : Phase) : Engine :=
  if e.krt + 1 = Config.keyRetryCap then Engine.report { e with krt := e.krt + 1 } .keyRetry
  else { e with krt := e.krt + 1, phase := next }

/-! ### The top level (R108) -/

/-- `DECODE`: the checks of R106. -/
def State.tickDecode (s : State) : State :=
  match decodeChecks s.engine.cw with
  | .error x => { s with engine := s.engine.report x }
  | .ok _ => { s with engine := { s.engine with phase := .latch } }

/-- `LATCH`: R107. -/
def State.tickLatch (s : State) : State :=
  match commandOf s.engine.cw with
  | some i => s.latch i
  | none => s

/-- `EXEC`, first state of the wait: the command's own checks, then its block is started (R108). -/
def Engine.startCommand (e : Engine) (bitlen : Word) (i : Instr) : Engine :=
  match i with
  | .montmul _ _ _ _ =>
    match checkOperands e.opm [e.opa, e.opb] with
    | some x => e.report x
    | none => e.startPre e.opm .montmul
  | .tomont _ _ _ =>
    match checkOperands e.opm [e.opa] with
    | some x => e.report x
    | none => e.startPre e.opm .tomont
  | .frommont _ _ _ =>
    match checkOperands e.opm [e.opa] with
    | some x => e.report x
    | none => e.startPre e.opm .frommont
  | .modexp _ _ _ _ =>
    match checkOperands e.opm [] with
    | some x => e.report x
    | none => e.startExp .command
  | .gcd _ _ _ => e.startEuclid .gcdCommand
  | .modinv _ _ _ => if e.opm < 2 then e.report .badModulus else e.startEuclid .invCommand
  | .mrtest _ => e.startTest e.opa .command
  | .genprime _ => e.startGen bitlen .command
  | .genkey _ _ _ => { e with phase := .kgCheck }
  | .encrypt _ _ _ _ | .decrypt _ _ _ _ =>
    match checkOperands e.opm [e.opa] with
    | some x => e.report x
    | none => e.startExp .command
  | .zeroize => { e with phase := .writeback }

/-- `EXEC` for the command in `CW`. -/
def State.tickExec (s : State) : State :=
  match commandOf s.engine.cw with
  | some i => { s with engine := s.engine.startCommand s.bitlen i }
  | none => s

/-- What `WRITEBACK` commits: the result registers to the destinations of the command (R303). -/
def Engine.results (e : Engine) : Instr → Commit
  | .montmul d _ _ _ | .tomont d _ _ | .frommont d _ _ | .modexp d _ _ _ | .gcd d _ _
  | .modinv d _ _ | .genprime d | .encrypt d _ _ _ | .decrypt d _ _ _ => .big d e.res0
  | .mrtest _ => .verdict (e.res0 == 1)
  | .genkey d b m => .key d b m e.res0 e.res1 e.res2 e.kp e.kq
  | .zeroize => .clear

/-- `WRITEBACK` with `ZERO`, one indivisible event (R108, R303). -/
def State.tickWriteback (s : State) : State :=
  match commandOf s.engine.cw with
  | some i => s.completeOk i (s.engine.results i)
  | none => s

/-! ### `MPRE` and `MMUL` (R138), `MEXP` (R163), `XGCD` (R184): registers of the engine only -/

/-- A transition of `MPRE` or `MMUL` (R132, R133, R134). -/
def Engine.tickMul (e : Engine) : Engine :=
  match e.phase with
  | .mpNp => { e with np := negInverse e.mn, s := limbs e.mn, phase := .mpR2 }
  | .mpR2 => Engine.preDone { e with r2 := radixSquared e.mn e.s }
  | .mmInit => { e with t := 0, mi := 0, mj := 0, phase := .mmMul }
  | .mmMul => { e with t := mulHalf e.ma e.mb e.s e.mi e.t, mj := e.s, phase := .mmRed }
  | .mmRed =>
    { e with
      t := redHalf e.mn e.s e.np e.t
      mi := e.mi + 1
      mj := e.s
      phase := if e.mi + 1 < e.s then .mmMul else .mmSub }
  | .mmSub => e.mulDone (mulResult e.mn e.s e.t)
  | _ => e

/-- A transition of `MEXP` (R163). -/
def Engine.tickExp (e : Engine) : Engine :=
  match e.phase with
  | .mePre => e.startPre e.expModulus .exponentiator
  | .meOne => e.startMul 1 e.r2 e.expModulus .meOne
  | .meBase => e.startMul e.expBase e.r2 e.expModulus .meBase
  | .meNext => if e.ei = 0 then { e with phase := .meOut } else { e with ei := e.ei - 1, phase := .meSqr }
  | .meSqr => e.startMul e.x e.x e.expModulus .meSqr
  | .meMul => e.startMul e.x e.bm e.expModulus .meMul
  | .meOut => e.startMul e.x 1 e.expModulus .meOut
  | _ => e

/-- A transition of `XGCD` (R181, R183, R184). -/
def Engine.tickEuclid (e : Engine) : Engine :=
  match e.phase with
  | .xgInit =>
    if e.euclidInverse then
      { e with r0 := e.euclidM, r1 := e.euclidA % e.euclidM, t0 := 0, t1 := 1, phase := .xgTest }
    else { e with r0 := e.euclidA, r1 := e.euclidM, phase := .xgTest }
  | .xgTest => { e with phase := if e.r1 = 0 then .xgFin else .xgDiv }
  | .xgDiv => { e with q := e.r0 / e.r1, phase := .xgUpd }
  | .xgUpd =>
    if e.euclidInverse then
      { e with
        r0 := e.r1
        r1 := e.r0 - e.q * e.r1
        t0 := e.t1
        t1 := e.t0 - (e.q : Int) * e.t1
        phase := .xgTest }
    else { e with r0 := e.r1, r1 := e.r0 - e.q * e.r1, phase := .xgTest }
  | .xgFin =>
    e.euclidDone e.r0 (if 0 ≤ e.t0 then e.t0.toNat else (e.t0 + (e.euclidM : Int)).toNat)
  | _ => e

/-! ### Drawing: one word of the port a transition (R47, R221) -/

/-- Take the next word of a `DrawBits(k)` that assembles its value in `acc`: `none` when the port is
silent; otherwise the accumulator and whether it was the last word (R221). -/
def takeWord (k dj acc : Nat) : List Word → Option (Nat × Bool)
  | [] => none
  | w :: _ => some (acc + w.toNat * 2 ^ (32 * dj), dj + 1 == wordsFor k)

/-- `MR_DRAW` (R210): one word of `DrawBits(bitlen(n))` into `TA`; waits while the port is silent. -/
def State.tickTestDraw (s : State) : State :=
  let e := s.engine
  match takeWord (bitLength e.tn) e.dj e.ta s.rng with
  | none => s
  | some (v, true) =>
    { s with
      rng := s.rng.tail
      engine := { e with ta := v % 2 ^ bitLength e.tn, dj := 0, lrng := e.lrng + 1, phase := .mrAccept } }
  | some (v, false) =>
    { s with rng := s.rng.tail, engine := { e with ta := v, dj := e.dj + 1, lrng := e.lrng + 1 } }

/-- `PG_DRAW` (R226): one word of `Candidate(k)` into `PC`; waits while the port is silent. -/
def State.tickGenDraw (s : State) : State :=
  let e := s.engine
  let k := (sext32 e.pk).toNat
  match takeWord k e.dj e.pc s.rng with
  | none => s
  | some (v, true) =>
    { s with
      rng := s.rng.tail
      engine := { e with
        pc := candidateFrom k (v % 2 ^ k), dj := 0, lrng := e.lrng + 1, phase := .pgTest } }
  | some (v, false) =>
    { s with rng := s.rng.tail, engine := { e with pc := v, dj := e.dj + 1, lrng := e.lrng + 1 } }

/-! ### `MRT` (R210), `PGEN` (R226), `KGEN` (R252) -/

/-- A transition of the tester other than `MR_DRAW` (R210), with `ROUNDS`. -/
def Engine.tickTest (e : Engine) (rounds : Nat) : Engine :=
  match e.phase with
  | .mrCheck =>
    if e.tn < 2 then e.testDone false
    else if e.tn % 2 = 0 then e.testDone false
    else if e.tn = 3 then e.testDone true
    else { e with phase := .mrDecomp }
  | .mrDecomp =>
    Engine.startPre { e with ts := decomposeS e.tn, td := decomposeD e.tn, tr := 0 } e.tn .tester
  | .mrRound =>
    if e.tr = rounds then e.testDone true
    else { e with tr := e.tr + 1, trej := 0, ta := 0, dj := 0, phase := .mrDraw }
  | .mrAccept =>
    if baseInRange e.tn e.ta then { e with phase := .mrPow }
    else if e.trej + 1 = Config.baseRejectCap then Engine.report { e with trej := e.trej + 1 } .rngReject
    else { e with trej := e.trej + 1, ta := 0, dj := 0, phase := .mrDraw }
  | .mrPow => e.startExp .tester
  | .mrCmp0 =>
    if e.tx = 1 ∨ e.tx = e.tn - 1 then { e with phase := .mrRound }
    else { e with tj := 1, phase := .mrSq }
  | .mrSq =>
    if e.tj = e.ts then e.testDone false
    else Engine.startMul { e with tj := e.tj + 1 } e.tx e.r2 e.tn .mrSqFirst
  | .mrCmp =>
    if e.tx = e.tn - 1 then { e with phase := .mrRound }
    else if e.tx = 1 then e.testDone false
    else { e with phase := .mrSq }
  | _ => e

/-- A transition of the generator other than `PG_DRAW` (R226), with `ATTEMPTCAP`. -/
def Engine.tickGen (e : Engine) (b : Build) (cap : Word) : Engine :=
  match e.phase with
  | .pgCheck =>
    match checkPrimeLength b (sext32 e.pk) with
    | some x => e.report x
    | none => { e with patt := 0, phase := .pgCap }
  | .pgCap =>
    if e.patt = cap.toNat then e.report .exhausted
    else { e with patt := e.patt + 1, latt := e.latt + 1, pc := 0, dj := 0, phase := .pgDraw }
  | .pgTest => e.startTest e.pc .generator
  | _ => e

/-- A transition of the key builder (R252), with `MINBITS`, `BITLEN` and `ESTART`. -/
def Engine.tickKey (e : Engine) (b : Build) (minbits : BitVec 16) (bitlen estart : Word) : Engine :=
  let len := sext32 bitlen
  match e.phase with
  | .kgCheck =>
    match checkKeyLength b minbits len with
    | some x => e.report x
    | none => { e with krt := 0, phase := .kgP }
  | .kgP => e.startGen (BitVec.ofInt 32 (len / 2)) .keyP
  | .kgQ => e.startGen (BitVec.ofInt 32 (len / 2)) .keyQ
  | .kgEq => if e.kq = e.kp then e.retry .kgQ else { e with phase := .kgN }
  | .kgN =>
    let e1 := { e with kn := e.kp * e.kq }
    if e1.kn.testBit (len.toNat - 1) then { e1 with phase := .kgPhi } else e1.retry .kgP
  | .kgPhi =>
    { e with kphi := (e.kp - 1) * (e.kq - 1), ke := estart.toNat, ert := 0, phase := .kgE }
  | .kgE =>
    if e.kphi ≤ e.ke then e.report .noE
    else if 1 < e.ke then e.startEuclid .keyE
    else e.rejectE
  | .kgD => e.startEuclid .keyD
  | _ => e

/-! ### The stack of waiting blocks (R43) -/

/-- The states of the blocks that wait for `PGEN`, innermost first. -/
def Engine.aboveGen (e : Engine) : List Phase :=
  match e.genFor with
  | .command => [.exec]
  | .keyP => [.kgP, .exec]
  | .keyQ => [.kgQ, .exec]

/-- The states of the blocks that wait for `MRT`, innermost first. -/
def Engine.aboveTest (e : Engine) : List Phase :=
  match e.testFor with
  | .command => [.exec]
  | .generator => .pgTest :: e.aboveGen

/-- The states of the blocks that wait for `MEXP`, innermost first. -/
def Engine.aboveExp (e : Engine) : List Phase :=
  match e.expFor with
  | .command => [.exec]
  | .tester => .mrPow :: e.aboveTest

/-- The states of the blocks that wait for `XGCD`, innermost first. -/
def Engine.aboveEuclid (e : Engine) : List Phase :=
  match e.euclFor with
  | .gcdCommand | .invCommand => [.exec]
  | .keyE => [.kgE, .exec]
  | .keyD => [.kgD, .exec]

/-- The states of the blocks that wait for `MPRE`, innermost first. -/
def Engine.abovePre (e : Engine) : List Phase :=
  match e.preFor with
  | .montmul | .tomont | .frommont => [.exec]
  | .exponentiator => .mePre :: e.aboveExp
  | .tester => .mrDecomp :: e.aboveTest

/-- The states of the blocks that wait for `MMUL`, innermost first. -/
def Engine.aboveMul (e : Engine) : List Phase :=
  match e.mulFor with
  | .command => [.exec]
  | .meOne => .meOne :: e.aboveExp
  | .meBase => .meBase :: e.aboveExp
  | .meSqr => .meSqr :: e.aboveExp
  | .meMul => .meMul :: e.aboveExp
  | .meOut => .meOut :: e.aboveExp
  | .mrSqFirst | .mrSqSecond => .mrSq :: e.aboveTest

/-- The stack of waiting blocks of R43, innermost first: the state each waits in. -/
def Engine.waiting (e : Engine) : List Phase :=
  match e.phase with
  | .idle | .decode | .latch | .exec | .writeback | .fail _ | .zero => []
  | .mpNp | .mpR2 => e.abovePre
  | .mmInit | .mmMul | .mmRed | .mmSub => e.aboveMul
  | .mePre | .meOne | .meBase | .meNext | .meSqr | .meMul | .meOut => e.aboveExp
  | .xgInit | .xgTest | .xgDiv | .xgUpd | .xgFin => e.aboveEuclid
  | .mrCheck | .mrDecomp | .mrRound | .mrDraw | .mrAccept | .mrPow | .mrCmp0 | .mrSq | .mrCmp =>
    e.aboveTest
  | .pgCheck | .pgCap | .pgDraw | .pgTest => e.aboveGen
  | .kgCheck | .kgP | .kgQ | .kgEq | .kgN | .kgPhi | .kgE | .kgD => [.exec]

/-! ### One transition -/

/-- One transition of the engine in its present state; nothing when it is idle (R108, R325), nothing
when it waits for a word of a silent port (R47). -/
def State.tick (s : State) : State :=
  match s.engine.phase with
  | .idle => s
  | .decode => s.tickDecode
  | .latch => s.tickLatch
  | .exec => s.tickExec
  | .writeback => s.tickWriteback
  | .fail x => s.completeErr (commandOf s.engine.cw) x
  | .zero => s.zeroise
  | .mpNp | .mpR2 | .mmInit | .mmMul | .mmRed | .mmSub => { s with engine := s.engine.tickMul }
  | .mePre | .meOne | .meBase | .meNext | .meSqr | .meMul | .meOut =>
    { s with engine := s.engine.tickExp }
  | .xgInit | .xgTest | .xgDiv | .xgUpd | .xgFin => { s with engine := s.engine.tickEuclid }
  | .mrDraw => s.tickTestDraw
  | .mrCheck | .mrDecomp | .mrRound | .mrAccept | .mrPow | .mrCmp0 | .mrSq | .mrCmp =>
    { s with engine := s.engine.tickTest s.rounds.toNat }
  | .pgDraw => s.tickGenDraw
  | .pgCheck | .pgCap | .pgTest => { s with engine := s.engine.tickGen s.build s.attemptcap }
  | .kgCheck | .kgP | .kgQ | .kgEq | .kgN | .kgPhi | .kgE | .kgD =>
    { s with engine := s.engine.tickKey s.build s.minbits s.bitlen s.estart }

/-- So many transitions of the engine. -/
def State.ticks : Nat → State → State
  | 0, s => s
  | n + 1, s => State.ticks n s.tick

/-- A `CMD` write that is taken (R31, R105): acceptance, decode and latch belong to the write's own
transaction (R80, R82; log 6), so they are made here at once. -/
def State.issue (s : State) (w : Word) : State :=
  let s1 := (s.accept w).tickDecode
  if s1.engine.phase = .latch then s1.tickLatch else s1

end Sys2Proof.Machine
end

