-- ==== Sys2Proof/Machine/Bus.lean ====
section
/-! DEFINITION. The host's side: the register map (20_memory.md R74, R75, 10_state.md R42), reads and
writes (R72, R73) with the busy lock (R78), the events of the host list, and the host's
pseudo-instructions as lists of events (30_encoding.md R112). -/

namespace Sys2Proof.Machine

/-! ### The map -/

/-- Offsets of the control and status registers (R42). -/
def offCMD : Nat := 0x000
def offSTATUS : Nat := 0x004
def offCTRL : Nat := 0x008
def offID : Nat := 0x00C
def offCAP : Nat := 0x010
def offBITLEN : Nat := 0x014
def offMINBITS : Nat := 0x018
def offROUNDS : Nat := 0x01C
def offESTART : Nat := 0x020
def offATTEMPTCAP : Nat := 0x024
def offATTEMPTS : Nat := 0x028
def offRNGCNT : Nat := 0x02C

/-- The offset of limb `j` of big register `i` (0 to 7 are `G`, 8 is `DBGP`, 9 is `DBGQ`): R74. -/
def windowOffset (b : Build) (i j : Nat) : Nat := 0x1000 + 4 * (i * b.limbCount + j)

/-- The big register and the limb at an offset of the register window (R74, R75). -/
def windowAt (b : Build) (addr : Nat) : Option (Nat × Nat) :=
  if 0x1000 ≤ addr ∧ addr < 0x1000 + 40 * b.limbCount then
    some ((addr - 0x1000) / 4 / b.limbCount, (addr - 0x1000) / 4 % b.limbCount)
  else none

/-- `AW`: "the least width that holds the last address" of the window (R71, R75). -/
def addressWidth (b : Build) : Nat := bitLength (0x1000 + 40 * b.limbCount - 1)

/-- `BIG[i]` of R72: `G[0..7]`, `DBGP`, `DBGQ`. -/
def State.big (s : State) (i : Nat) : Nat :=
  if h : i < 8 then s.readG ⟨i, h⟩ else if i = 8 then s.readDbgP else s.readDbgQ

/-- The control or status register at an offset, as it reads: reserved bits and write-only fields 0
(R42, R72); `none` at every other offset. -/
def State.csr (s : State) (addr : Nat) : Option Word :=
  if addr = offCMD then some 0
  else if addr = offSTATUS then some s.statusWord
  else if addr = offCTRL then some s.ctrlWord
  else if addr = offID then some Config.identification
  else if addr = offCAP then some (capWord s.build)
  else if addr = offBITLEN then some s.bitlen
  else if addr = offMINBITS then some (s.minbits.setWidth 32)
  else if addr = offROUNDS then some (s.rounds.setWidth 32)
  else if addr = offESTART then some s.estart
  else if addr = offATTEMPTCAP then some s.attemptcap
  else if addr = offATTEMPTS then some s.attempts
  else if addr = offRNGCNT then some s.rngcnt
  else none

/-! ### Reads (R72) -/

/-- The word a read of `addr` answers (R72, R76, R78). -/
def State.readValue (s : State) (addr : Nat) : Word :=
  match s.csr addr with
  | some w => w
  | none =>
    match windowAt s.build addr with
    | some (i, j) => if s.busy then 0 else BitVec.ofNat 32 (limb (s.big i) j)
    | none => 0

/-- A read's one side effect: a locked read sets `BUSYERR` (R72, R78). -/
def State.readEffect (s : State) (addr : Nat) : State :=
  match s.csr addr with
  | some _ => s
  | none =>
    match windowAt s.build addr with
    | some _ => if s.busy then s.locked else s
    | none => s

/-- `MemRead(addr, 4)`: the effect, and the data on `bus_rdata` (R71, R72). -/
def State.memRead (s : State) (addr : Nat) : State :=
  { s.readEffect addr with rdata := some (s.readValue addr) }

/-! ### Writes (R73) -/

/-- A write to `STATUS`: bits 1 and 4 clear `DONE` and `BUSYERR` (R25). -/
def State.writeStatus (s : State) (v : Word) : State :=
  { s with done := s.done && !v.getLsbD 1, buserr := s.buserr && !v.getLsbD 4 }

/-- A write to `CTRL` (R30): a soft reset (R341), else `IE` and perhaps an abort, which the engine
takes as its next event, before the host's next transaction (R316). -/
def State.writeCtrl (s : State) (v : Word) : State :=
  if v.getLsbD 2 then s.resetAll
  else if v.getLsbD 1 then State.abort { s with ie := v.getLsbD 0 }
  else { s with ie := v.getLsbD 0 }

/-- A write to a configuration register: its writable bits (R32 to R36, R73). -/
def State.writeConfig (s : State) (addr : Nat) (v : Word) : State :=
  if addr = offBITLEN then { s with bitlen := v }
  else if addr = offMINBITS then { s with minbits := v.setWidth 16 }
  else if addr = offROUNDS then { s with rounds := v.setWidth 8 }
  else if addr = offESTART then { s with estart := v }
  else { s with attemptcap := v }

/-- The configuration registers of R73. -/
def configOffsets : List Nat := [offBITLEN, offMINBITS, offROUNDS, offESTART, offATTEMPTCAP]

/-- A write of the register window: limb `j` of `G[i]` is replaced; `DBGP` and `DBGQ` are read-only
(R73). -/
def State.writeWindow (s : State) (i j : Nat) (v : Word) : State :=
  if h : i < 8 then s.writeG ⟨i, h⟩ (setLimb (s.readG ⟨i, h⟩) j v.toNat) else s

/-- `MemWrite(addr, 4, v)` (R73). A `CMD` write is the acceptance of a command (R105). -/
def State.memWrite (s : State) (addr : Nat) (v : Word) : State :=
  if addr = offSTATUS then s.writeStatus v
  else if addr = offCTRL then s.writeCtrl v
  else if addr = offCMD then (if s.busy then s.locked else s.issue v)
  else if addr ∈ configOffsets then (if s.busy then s.locked else s.writeConfig addr v)
  else
    match windowAt s.build addr with
    | some (i, j) => if s.busy then s.locked else s.writeWindow i j v
    | none => s

/-! ### Events -/

/-- An access the port can carry (R71, R79): aligned, and within the `AW`-bit space. -/
def access (b : Build) (addr : Nat) (ok : State) : Host.Outcome State Fault Refusal :=
  if addr % 4 ≠ 0 then .refused (.unalignedAccess addr)
  else if 2 ^ addressWidth b ≤ addr then .fault (.offsetOutsideSpace addr)
  else .next ok

/-- A command at the command level: a word that is a command runs it, any other completes with
ILLEGAL_CMD (R104, R106). -/
def runWord (w : Word) (s : State) : Host.Outcome State Fault Refusal :=
  match decode w with
  | .ok i => exec i s
  | .error .unknownOpcode => .next (rejectWord w .unknownOpcode s)
  | .error .reservedBits => .next (rejectWord w .reservedBits s)

/-- `WAIT` (R112), one poll: while `BUSY` is 1 the poll is made again after the engine's next
transition; when it is 0 the read of `STATUS` is the last. -/
def State.poll (s : State) : State :=
  if s.busy then State.tick { s with host := .wait :: s.host, rdata := some s.statusWord }
  else { s with rdata := some s.statusWord }

/-- One host event, in a state whose list no longer holds it. -/
def hostEvent (ev : HostEvent) (s : State) : Host.Outcome State Fault Refusal :=
  match ev with
  | .command w => runWord w s
  | .write addr v => access s.build addr (s.memWrite addr v)
  | .read addr => access s.build addr (s.memRead addr)
  | .wait => .next s.poll
  | .engine => .next s.tick
  | .hardReset => .next s.resetAll
  | .supply w => .next { s with rng := s.rng ++ [w] }

/-- The state from which the next event acts: the event taken from the list, no read data on the bus. -/
def State.taken (s : State) (rest : List HostEvent) : State := { s with host := rest, rdata := none }

/-- `s` with the engine idle and the host about to write the command word to `CMD`: what
`withFetchWord` stands for (log 14). -/
def State.withCommand (s : State) (w : Word) : State :=
  { s with engine := Engine.cleared, host := .command w :: s.host }

/-! ### The host's pseudo-instructions (R112) -/

/-- `WR reg, v`. -/
def hostWR (offset : Nat) (v : Word) : List HostEvent := [.write offset v]

/-- `RD reg`. -/
def hostRD (offset : Nat) : List HostEvent := [.read offset]

/-- `LDG Gi, v`: all limbs, limb 0 first. -/
def hostLDG (b : Build) (i : Reg) (v : Nat) : List HostEvent :=
  (List.range b.limbCount).map fun j => .write (windowOffset b i.val j) (BitVec.ofNat 32 (limb v j))

/-- `RDG Gi`: all limbs, limb 0 first. -/
def hostRDG (b : Build) (i : Reg) : List HostEvent :=
  (List.range b.limbCount).map fun j => .read (windowOffset b i.val j)

/-- `WAIT`. -/
def hostWAIT : List HostEvent := [.wait]

/-- `ACK`: clears `DONE`. -/
def hostACK : List HostEvent := [.write offSTATUS 0x00000002]

end Sys2Proof.Machine
end

