-- ==== Sys2Proof/Machine/Step.lean ====
section
/-! DEFINITION. One step of the machine, and the host's probe. The machine fetches nothing (R29): a
step takes the next event of the host's list; when there is none the engine makes a transition. -/

namespace Sys2Proof.Machine

/-- One step. -/
def step (s : State) : Host.Outcome State Fault Refusal :=
  match s.host with
  | [] => .next s.tick
  | ev :: rest => hostEvent ev (s.taken rest)

/-- `s` with the word, numbered as spec/opcode_table.json numbers it, about to be written to `CMD`, so
that the very next step runs it. There is no program memory: a command comes to run because the host
writes it (R29, R31); this stands for the host being about to do so (log 14). The engine is made idle,
which a `CMD` write needs. `nbits` is at most 32 (R100). -/
def State.withFetchWord (s : State) (nbits w : Nat) : State :=
  s.withCommand (BitVec.ofNat 32 (w % 2 ^ nbits))

end Sys2Proof.Machine
end

