-- ==== Sys2Proof/Safety.lean ====
section
/-! DEFINITION. The terms statements are made in: the invariant of the machine, what a completion
leaves, which host events the port can carry, and the number-theoretic notions the rules name. -/

namespace Sys2Proof.Machine

/-- What holds in every state a run reaches, with the rules it comes from. -/
structure State.Inv (s : State) : Prop where
  /-- The build is one R5 allows. -/
  build : s.build.Legal
  /-- "Every big register holds a natural below `2^MAXBITS`" (R6, R21). -/
  big : ∀ r : Reg, s.readG r < 2 ^ s.build.maxBits
  /-- The debug registers are as wide (R41). -/
  dbg : s.dbgp < 2 ^ s.build.maxBits ∧ s.dbgq < 2 ^ s.build.maxBits
  /-- "If `DBG_PRIMES = 0` both are hardwired to 0" (R41). -/
  dbgOff : s.build.dbgPrimes = false → s.dbgp = 0 ∧ s.dbgq = 0
  /-- "Every pair `(ERRCODE, SUB)` not in this table is never produced" (R301). -/
  pair : (s.errcode, s.sub) ∈ statusPairs
  /-- Hidden registers do not outlive a command (R29, R45 (c)). -/
  idle : s.busy = false → s.engine = Engine.cleared
  /-- Acceptance clears DONE, ERRCODE, SUB, and nothing sets them before the completion (R27, R82 (c)). -/
  running : s.busy = true → s.done = false ∧ s.errcode = 0 ∧ s.sub = 0
  /-- Decode and latch belong to the CMD write, zeroisation to the completion (R80): no event finds the
  engine there. -/
  settled : s.engine.phase ≠ .decode ∧ s.engine.phase ≠ .latch ∧ s.engine.phase ≠ .zero
  /-- A command that executes has passed its decode checks (R106, R108). -/
  decoded : s.busy = true → (∀ x, s.engine.phase ≠ .fail x) → ∃ i, commandOf s.engine.cw = some i
  /-- `PRIME` is 0 while MRTEST runs (R28, R107). -/
  tester : s.busy = true → ∀ a, commandOf s.engine.cw = some (.mrtest a) → s.prime = false

/-- What no command changes: the build, the configuration registers, `IE`, `BUSYERR` (R78, R80: "Commands
read the configuration registers, they never write them"), and the host's side. -/
structure SameSettings (s t : State) : Prop where
  build : t.build = s.build
  buserr : t.buserr = s.buserr
  ie : t.ie = s.ie
  bitlen : t.bitlen = s.bitlen
  minbits : t.minbits = s.minbits
  rounds : t.rounds = s.rounds
  estart : t.estart = s.estart
  attemptcap : t.attemptcap = s.attemptcap
  host : t.host = s.host
  rdata : t.rdata = s.rdata

/-- `t` is a completion from `s` with these codes (0, 0 for a success) after `c` draws: the flags of R27,
`RNGCNT` and the source's words (R38, R47), the engine idle and zeroised (R305), and every setting as
it was. -/
structure Completed (s t : State) (code subcode : BitVec 4) (c : Nat) : Prop where
  done : t.done = true
  errcode : t.errcode = code
  sub : t.sub = subcode
  engine : t.engine = Engine.cleared
  drawn : c ≤ s.rng.length
  rng : t.rng = s.rng.drop c
  rngcnt : t.rngcnt = s.rngcnt + BitVec.ofNat 32 c
  settings : SameSettings s t

/-- Only `G[d]` among the big registers may differ. -/
def OthersSame (s t : State) (d : Reg) : Prop := ∀ r : Reg, r ≠ d → t.readG r = s.readG r

/-- `DBGP`, `DBGQ`, `ATTEMPTS` and `PRIME` are as they were. -/
structure SpecialsSame (s t : State) : Prop where
  dbgp : t.dbgp = s.dbgp
  dbgq : t.dbgq = s.dbgq
  attempts : t.attempts = s.attempts
  prime : t.prime = s.prime

/-- A command that draws nothing has succeeded and put `v` in `G[d]`: everything it changes, and that it
changes nothing else. -/
structure Delivered (s t : State) (d : Reg) (v : Nat) : Prop where
  completed : Completed s t 0 0 0
  result : t.readG d = v
  others : OthersSame s t d
  specials : SpecialsSame s t

/-- A command that draws nothing has failed with the error: no big register and no special register has
changed. -/
structure Failed (s t : State) (e : Err) : Prop where
  completed : Completed s t e.code e.subcode 0
  big : t.g = s.g
  specials : SpecialsSame s t

/-- The commands that may draw (R103). -/
def Drawing : Instr → Prop
  | .mrtest _ | .genprime _ | .genkey _ _ _ => True
  | .montmul _ _ _ _ | .tomont _ _ _ | .frommont _ _ _ | .modexp _ _ _ _ | .gcd _ _ _
  | .modinv _ _ _ | .encrypt _ _ _ _ | .decrypt _ _ _ _ | .zeroize => False

/-- The commands that may write `G[r]` (R103). -/
def MayWrite (r : Reg) : Instr → Prop
  | .montmul d _ _ _ | .tomont d _ _ | .frommont d _ _ | .modexp d _ _ _ | .gcd d _ _
  | .modinv d _ _ | .genprime d | .encrypt d _ _ _ | .decrypt d _ _ _ => r = d
  | .genkey d b m => r = d ∨ r = b ∨ r = m
  | .mrtest _ => False
  | .zeroize => True

/-- The offset of an event's access is one the port can carry (R71, R75, R79). -/
def HostEvent.Expressible (b : Build) : HostEvent → Prop
  | .write addr _ | .read addr => addr % 4 = 0 ∧ addr < 2 ^ addressWidth b
  | .command _ | .wait | .engine | .hardReset | .supply _ => True

/-- A round with base `a` passes, in the words of R205 and R206: with `n - 1 = 2^S * D`, `D` odd, `a^D` is
1, or some `a^(2^j * D)` with `j < S` is `-1`, modulo `n`. -/
def StrongPasses (n a : Nat) : Prop :=
  ∃ S D, n - 1 = 2 ^ S * D ∧ D % 2 = 1 ∧
    (a ^ D % n = 1 ∨ ∃ j, j < S ∧ a ^ (2 ^ j * D) % n = n - 1)

/-- So many steps, if none of them stops. -/
def steps : Nat → State → Option State
  | 0, s => some s
  | n + 1, s =>
    match step s with
    | .next t => steps n t
    | .fault _ | .refused _ => none

/-! ### What the port answers -/

/-- The natural whose limbs are these words, least significant first (R221). -/
def valueOf : List Word → Nat
  | [] => 0
  | w :: ws => w.toNat + 2 ^ 32 * valueOf ws

/-- What `DrawBits(k)` returns when the port answers these words (R221). -/
def drawValue (k : Nat) (ws : List Word) : Nat := valueOf ws % 2 ^ k

/-- The answers to the draws of one base (R204): the rejected ones, then the accepted one, each so many
words. -/
structure BaseDraws where
  rejected : List (List Word)
  accepted : List Word
deriving DecidableEq, Repr

/-- The words of one base in the order they are drawn. -/
def BaseDraws.words (r : BaseDraws) : List Word := r.rejected.flatten ++ r.accepted

/-- The base they make. -/
def BaseDraws.base (n : Nat) (r : BaseDraws) : Nat := drawValue (bitLength n) r.accepted

/-- One draw of `DrawBase(n)` that is rejected: the value is not in `[2, n - 2]` (R204). -/
def RejectedDraw (n : Nat) (ws : List Word) : Prop :=
  ws.length = wordsFor (bitLength n) ∧ ¬(2 ≤ drawValue (bitLength n) ws ∧ drawValue (bitLength n) ws ≤ n - 2)

/-- The answers lead to a base of `n` (R204): fewer than 128 rejections in a row, then a value in
`[2, n - 2]`. -/
structure BaseDraws.Valid (n : Nat) (r : BaseDraws) : Prop where
  few : r.rejected.length < 128
  outside : ∀ ws ∈ r.rejected, RejectedDraw n ws
  size : r.accepted.length = wordsFor (bitLength n)
  inside : 2 ≤ r.base n ∧ r.base n ≤ n - 2

/-- The rounds answered by `rs` all pass (R201, R205). -/
def AllPass (n : Nat) (rs : List BaseDraws) : Prop := ∀ r ∈ rs, r.Valid n ∧ StrongPasses n (r.base n)

/-- `MRT(n, rounds)` with the words `ws` from the port ends with the verdict `v` and takes exactly those
words (R201 to R209). -/
def Verdict (n rounds : Nat) (ws : List Word) (v : Bool) : Prop :=
  if n < 2 ∨ n % 2 = 0 then ws = [] ∧ v = false
  else if n = 3 then ws = [] ∧ v = true
  else ∃ rs, AllPass n rs ∧
    ((rs.length = rounds ∧ ws = rs.flatMap BaseDraws.words ∧ v = true) ∨
     (rs.length < rounds ∧ ∃ r : BaseDraws, r.Valid n ∧ ¬StrongPasses n (r.base n) ∧
        ws = rs.flatMap BaseDraws.words ++ r.words ∧ v = false))

/-- The words of one attempt of a prime search (R223): the candidate's, then those of its test. -/
structure Attempt where
  candidate : List Word
  test : List Word
deriving DecidableEq, Repr

/-- The words of an attempt in the order they are drawn. -/
def Attempt.words (a : Attempt) : List Word := a.candidate ++ a.test

/-- The candidate of an attempt: bits `k - 1` and 0 set, the others as drawn (R222). -/
def Attempt.value (k : Nat) (a : Attempt) : Nat := drawValue k a.candidate ||| 2 ^ (k - 1) ||| 1

/-- The attempt draws a candidate of `k` bits, and the tester ends with `v` (R223). -/
def Attempt.Ends (k rounds : Nat) (v : Bool) (a : Attempt) : Prop :=
  a.candidate.length = wordsFor k ∧ Verdict (a.value k) rounds a.test v

/-- `PGEN(k)` rejects the candidates of `fails` and returns that of `found` (R223, R224). -/
structure Search (k rounds cap : Nat) (fails : List Attempt) (found : Attempt) : Prop where
  few : fails.length < cap
  rejected : ∀ a ∈ fails, a.Ends k rounds false
  accepted : found.Ends k rounds true

/-- The words of a search in the order they are drawn. -/
def searchDraws (fails : List Attempt) (found : Attempt) : List Word :=
  fails.flatMap Attempt.words ++ found.words

/-- `e` is the `i`-th of `start, start + 2, start + 4, …`, the first that is above 1 and coprime to φ, and
it is below φ (R249). -/
structure FirstExponent (start phi i e : Nat) : Prop where
  bound : i < 1024
  place : e = start + 2 * i
  above : 1 < e
  below : e < phi
  coprime : Nat.gcd e phi = 1
  least : ∀ j, j < i → ¬(1 < start + 2 * j ∧ Nat.gcd (start + 2 * j) phi = 1)

/-! ### Ends of the commands that draw -/

/-- An idle state of the invariant: where a statement about a command starts. -/
structure Ready (s : State) : Prop where
  inv : s.Inv
  idle : s.busy = false

/-- `ATTEMPTS`, `DBGP`, `DBGQ` and every big register are as they were. -/
structure AllButPrimeSame (s t : State) : Prop where
  big : t.g = s.g
  dbgp : t.dbgp = s.dbgp
  dbgq : t.dbgq = s.dbgq
  attempts : t.attempts = s.attempts

/-- MRTEST has ended with the verdict after `c` draws (R212): it changes nothing else. -/
structure Judged (s t : State) (v : Bool) (c : Nat) : Prop where
  completed : Completed s t 0 0 c
  verdict : t.prime = v
  same : AllButPrimeSame s t

/-- GENPRIME has put `v` in `G[d]` after `att` attempts and `c` draws (R228): it changes nothing else. -/
structure Generated (s t : State) (d : Reg) (v att c : Nat) : Prop where
  completed : Completed s t 0 0 c
  result : t.readG d = v
  others : OthersSame s t d
  attempts : t.attempts = BitVec.ofNat 32 att
  prime : t.prime = s.prime
  dbgp : t.dbgp = s.dbgp
  dbgq : t.dbgq = s.dbgq

/-- GENPRIME has failed with the error after `att` attempts and `c` draws (R304): no big register has
changed. -/
structure NotGenerated (s t : State) (e : Err) (att c : Nat) : Prop where
  completed : Completed s t e.code e.subcode c
  big : t.g = s.g
  attempts : t.attempts = BitVec.ofNat 32 att
  prime : t.prime = s.prime
  dbgp : t.dbgp = s.dbgp
  dbgq : t.dbgq = s.dbgq

/-- GENKEY has failed with the error after `att` attempts and `c` draws (R304): no big register has
changed, and the debug registers are 0. -/
structure NoKey (s t : State) (e : Err) (att c : Nat) : Prop where
  completed : Completed s t e.code e.subcode c
  big : t.g = s.g
  attempts : t.attempts = BitVec.ofNat 32 att
  prime : t.prime = s.prime
  dbgp : t.dbgp = 0
  dbgq : t.dbgq = 0

/-- GENKEY has put `n` in `G[m]`, `e` in `G[b]`, `x` in `G[d]` (R241, R303), and the primes in the debug
registers of a build that has them (R41): it changes nothing else but `ATTEMPTS`. -/
structure KeyMade (s t : State) (d b m : Reg) (n e x p q : Nat) : Prop where
  modulus : t.readG m = n
  exponent : t.readG b = e
  secret : t.readG d = x
  others : ∀ r : Reg, r ≠ d → r ≠ b → r ≠ m → t.readG r = s.readG r
  prime : t.prime = s.prime
  dbgp : t.dbgp = if s.build.dbgPrimes then p else 0
  dbgq : t.dbgq = if s.build.dbgPrimes then q else 0

/-- What the host can see of the state changes only with these (R72, R78): every register the map shows. -/
structure SameToHost (s t : State) : Prop where
  build : t.build = s.build
  big : t.g = s.g
  dbgp : t.dbgp = s.dbgp
  dbgq : t.dbgq = s.dbgq
  done : t.done = s.done
  prime : t.prime = s.prime
  buserr : t.buserr = s.buserr
  errcode : t.errcode = s.errcode
  sub : t.sub = s.sub
  ie : t.ie = s.ie
  bitlen : t.bitlen = s.bitlen
  minbits : t.minbits = s.minbits
  rounds : t.rounds = s.rounds
  estart : t.estart = s.estart
  attemptcap : t.attemptcap = s.attemptcap
  attempts : t.attempts = s.attempts
  rngcnt : t.rngcnt = s.rngcnt
  busy : t.busy = s.busy

/-- The word concerns the command in flight or the one the next event issues: where `PRIME` may change
(R28). -/
def Concerns (s : State) (i : Instr) : Prop :=
  (s.busy = true ∧ commandOf s.engine.cw = some i) ∨
  ∃ w rest, commandOf w = some i ∧ (s.host = .command w :: rest ∨ s.host = .write offCMD w :: rest)

/-- The next event is a reset (R340, R341). -/
def Resetting (s : State) : Prop :=
  ∃ rest, s.host = .hardReset :: rest ∨ ∃ v : Word, v.getLsbD 2 = true ∧ s.host = .write offCTRL v :: rest

end Sys2Proof.Machine
end

