-- ==== Sys2Proof/Certificates/Slice0/Obligations.lean ====
section
/-! DEFINITION. The statements about the engine, from the numbered rules of the spec; each docstring
names its rules. -/

open Sys2Proof Sys2Proof.Machine

/-! ### The command word -/

/-- R111: the example words, each with the command it stands for. -/
def Obligations.SampleWordsDecode : Prop :=
  decode 0x00021301 = .ok (.montmul 3 1 2 0) ∧
  decode 0x00001102 = .ok (.tomont 1 1 0) ∧
  decode 0x00021310 = .ok (.modexp 3 1 2 0) ∧
  decode 0x00031420 = .ok (.gcd 4 1 3) ∧
  decode 0x00301421 = .ok (.modinv 4 1 3) ∧
  decode 0x00001030 = .ok (.mrtest 1) ∧
  decode 0x00000240 = .ok (.genprime 2) ∧
  decode 0x00010250 = .ok (.genkey 2 1 0) ∧
  decode 0x00014360 = .ok (.encrypt 3 4 1 0) ∧
  decode 0x00023561 = .ok (.decrypt 5 3 2 0) ∧
  decode 0x0000007F = .ok .zeroize

/-- R101, R102, R113: decoding the word of a command gives the command back, whatever its registers. -/
def Obligations.DecodeEncode : Prop := ∀ i : Instr, decode (encode i) = .ok i

/-- R102: a word is the command exactly when it agrees with `match` under `mask`, and then its registers
are the fields of R101. -/
def Obligations.MaskAndMatch : Prop :=
  ∀ (w : Word) (d a b m : Reg),
    (decode w = .ok (.montmul d a b m) ↔ w &&& 0xFF8888FF = 0x00000001 ∧ w.toNat / 2 ^ 8 % 8 = d.val ∧
      w.toNat / 2 ^ 12 % 8 = a.val ∧ w.toNat / 2 ^ 16 % 8 = b.val ∧ w.toNat / 2 ^ 20 % 8 = m.val) ∧
    (decode w = .ok (.tomont d a m) ↔ w &&& 0xFF8F88FF = 0x00000002 ∧ w.toNat / 2 ^ 8 % 8 = d.val ∧
      w.toNat / 2 ^ 12 % 8 = a.val ∧ w.toNat / 2 ^ 20 % 8 = m.val) ∧
    (decode w = .ok (.frommont d a m) ↔ w &&& 0xFF8F88FF = 0x00000003 ∧ w.toNat / 2 ^ 8 % 8 = d.val ∧
      w.toNat / 2 ^ 12 % 8 = a.val ∧ w.toNat / 2 ^ 20 % 8 = m.val) ∧
    (decode w = .ok (.modexp d a b m) ↔ w &&& 0xFF8888FF = 0x00000010 ∧ w.toNat / 2 ^ 8 % 8 = d.val ∧
      w.toNat / 2 ^ 12 % 8 = a.val ∧ w.toNat / 2 ^ 16 % 8 = b.val ∧ w.toNat / 2 ^ 20 % 8 = m.val) ∧
    (decode w = .ok (.gcd d a b) ↔ w &&& 0xFFF888FF = 0x00000020 ∧ w.toNat / 2 ^ 8 % 8 = d.val ∧
      w.toNat / 2 ^ 12 % 8 = a.val ∧ w.toNat / 2 ^ 16 % 8 = b.val) ∧
    (decode w = .ok (.modinv d a m) ↔ w &&& 0xFF8F88FF = 0x00000021 ∧ w.toNat / 2 ^ 8 % 8 = d.val ∧
      w.toNat / 2 ^ 12 % 8 = a.val ∧ w.toNat / 2 ^ 20 % 8 = m.val) ∧
    (decode w = .ok (.mrtest a) ↔ w &&& 0xFFFF8FFF = 0x00000030 ∧ w.toNat / 2 ^ 12 % 8 = a.val) ∧
    (decode w = .ok (.genprime d) ↔ w &&& 0xFFFFF8FF = 0x00000040 ∧ w.toNat / 2 ^ 8 % 8 = d.val) ∧
    (decode w = .ok (.genkey d b m) ↔ w &&& 0xFF88F8FF = 0x00000050 ∧ w.toNat / 2 ^ 8 % 8 = d.val ∧
      w.toNat / 2 ^ 16 % 8 = b.val ∧ w.toNat / 2 ^ 20 % 8 = m.val) ∧
    (decode w = .ok (.encrypt d a b m) ↔ w &&& 0xFF8888FF = 0x00000060 ∧ w.toNat / 2 ^ 8 % 8 = d.val ∧
      w.toNat / 2 ^ 12 % 8 = a.val ∧ w.toNat / 2 ^ 16 % 8 = b.val ∧ w.toNat / 2 ^ 20 % 8 = m.val) ∧
    (decode w = .ok (.decrypt d a b m) ↔ w &&& 0xFF8888FF = 0x00000061 ∧ w.toNat / 2 ^ 8 % 8 = d.val ∧
      w.toNat / 2 ^ 12 % 8 = a.val ∧ w.toNat / 2 ^ 16 % 8 = b.val ∧ w.toNat / 2 ^ 20 % 8 = m.val) ∧
    (decode w = .ok .zeroize ↔ w = 0x0000007F)

/-- 95_test_vectors.md 2.8: so many of the `2^32` words pass all three decode checks. -/
def Obligations.CountOfCommands : Prop :=
  {w : Word | ∃ i, commandOf w = some i}.ncard = 18785

/-- R106: which check fails, in the order of the checks. -/
def Obligations.DecodeErrorsExact : Prop :=
  ∀ w : Word,
    (decodeChecks w = .error .unknownOpcode ↔
      w.toNat % 256 ∉ [0x01, 0x02, 0x03, 0x10, 0x20, 0x21, 0x30, 0x40, 0x50, 0x60, 0x61, 0x7F]) ∧
    (decodeChecks w = .error .reservedBits ↔
      w.toNat % 256 ∈ [0x01, 0x02, 0x03, 0x10, 0x20, 0x21, 0x30, 0x40, 0x50, 0x60, 0x61, 0x7F] ∧
        ∀ i, decode w ≠ .ok i) ∧
    (decodeChecks w = .error .destOverlap ↔
      ∃ d b m, decode w = .ok (.genkey d b m) ∧ ¬(d ≠ b ∧ d ≠ m ∧ b ≠ m))

/-- R104, R105, R106: a word that fails a decode check completes at once with its error; nothing but STATUS
changes. A bare `CMD` write of it is accepted, and the engine's next transition, out of `FAIL`, is that same
completion. -/
def Obligations.IllegalWordCompletes : Prop :=
  ∀ (s : State) (w : Word) (rest : List HostEvent) (e : Err), s.busy = false → decodeChecks w = .error e →
    (s.host = .command w :: rest → ∃ t, step s = .next t ∧ Failed (s.taken rest) t e) ∧
    (s.host = .write 0x000 w :: rest → ∃ u, step s = .next u ∧ u.busy = true ∧ u.engine.phase = .fail e ∧
      u.done = false ∧ u.errcode = 0 ∧ u.sub = 0 ∧ Failed (s.taken rest) u.tick e ∧
      step { s with host := .command w :: rest } = .next u.tick)

/-! ### Steps -/

/-- R9, R29, R31, R105: when the host issues a word that is a command, the step is that command's meaning, in
the state with the event taken from the host's list and no read data on the bus. A bare `CMD` write to an
idle engine starts the sequencer instead, and the engine's own event, or no event, is one transition of it. -/
def Obligations.StepRunsCommand : Prop :=
  ∀ (s : State) (w : Word) (rest : List HostEvent),
    (∀ i, s.host = .command w :: rest → decode w = .ok i →
      step s = exec i { s with host := rest, rdata := none }) ∧
    (s.busy = false → s.host = .write 0x000 w :: rest →
      step s = .next (State.issue { s with host := rest, rdata := none } w)) ∧
    (s.host = .engine :: rest → step s = .next (State.tick { s with host := rest, rdata := none })) ∧
    (s.host = [] → step s = .next s.tick)

/-- R9, R31: the state `withFetchWord` makes runs exactly the command of the word, on an idle engine
(the model's probe, log 14). -/
def Obligations.StepRunsFetchWord : Prop :=
  ∀ (s : State) (nbits w : Nat) (i : Instr), decodeTableWord nbits w = some i →
    step (s.withFetchWord nbits w) = exec i { s with engine := Engine.cleared, rdata := none }

/-- R71, R79: the machine stops on the accesses the port cannot carry, and on nothing else (log 11). -/
def Obligations.StepStops : Prop :=
  ∀ s : State,
    ((∃ t, step s = .next t) ↔ ∀ ev rest, s.host = ev :: rest → ev.Expressible s.build) ∧
    (∀ addr v rest, s.host = .write addr v :: rest ∨ s.host = .read addr :: rest →
      (addr % 4 ≠ 0 → step s = .refused (.unalignedAccess addr)) ∧
      (addr % 4 = 0 → 2 ^ addressWidth s.build ≤ addr → step s = .fault (.offsetOutsideSpace addr)))

/-! ### The Montgomery commands -/

/-- R140, R131: MONTMUL puts in `G[d]` the `u < n` with `u * R = a * b` modulo `n`, and changes nothing
else. -/
def Obligations.MontmulResult : Prop :=
  ∀ (d a b m : Reg) (s : State), Ready s →
    3 ≤ s.readG m → s.readG m % 2 = 1 → s.readG a < s.readG m → s.readG b < s.readG m →
    ∃ t u, exec (.montmul d a b m) s = .next t ∧ Delivered s t d u ∧ u < s.readG m ∧
      u * 2 ^ (32 * limbs (s.readG m)) % s.readG m = s.readG a * s.readG b % s.readG m

/-- R141: TOMONT puts `x * R mod n` in `G[d]`, and changes nothing else. -/
def Obligations.TomontResult : Prop :=
  ∀ (d a m : Reg) (s : State), Ready s →
    3 ≤ s.readG m → s.readG m % 2 = 1 → s.readG a < s.readG m →
    ∃ t, exec (.tomont d a m) s = .next t ∧
      Delivered s t d (s.readG a * 2 ^ (32 * limbs (s.readG m)) % s.readG m)

/-- R142: FROMMONT puts in `G[d]` the `u < n` with `u * R = x` modulo `n`, and changes nothing else. -/
def Obligations.FrommontResult : Prop :=
  ∀ (d a m : Reg) (s : State), Ready s →
    3 ≤ s.readG m → s.readG m % 2 = 1 → s.readG a < s.readG m →
    ∃ t u, exec (.frommont d a m) s = .next t ∧ Delivered s t d u ∧ u < s.readG m ∧
      u * 2 ^ (32 * limbs (s.readG m)) % s.readG m = s.readG a

/-- R142: "FROMMONT undoes TOMONT on the same modulus". -/
def Obligations.FrommontUndoesTomont : Prop :=
  ∀ (d a m c : Reg) (s : State), Ready s → d ≠ m →
    3 ≤ s.readG m → s.readG m % 2 = 1 → s.readG a < s.readG m →
    ∃ t u, exec (.tomont d a m) s = .next t ∧ exec (.frommont c d m) t = .next u ∧
      u.readG c = s.readG a ∧ u.errcode = 0

/-- R137, R306: the modulus check, then the range check, of the commands of the Montgomery kernel. -/
def Obligations.OperandChecks : Prop :=
  ∀ (d a b m : Reg) (s : State), Ready s →
    (s.readG m < 3 ∨ s.readG m % 2 = 0 →
      ∀ i ∈ [Instr.montmul d a b m, .tomont d a m, .frommont d a m, .modexp d a b m, .encrypt d a b m,
        .decrypt d a b m], ∃ t, exec i s = .next t ∧ Failed s t .badModulus) ∧
    (3 ≤ s.readG m → s.readG m % 2 = 1 →
      (s.readG m ≤ s.readG a →
        ∀ i ∈ [Instr.montmul d a b m, .montmul d b a m, .tomont d a m, .frommont d a m, .encrypt d a b m,
          .decrypt d a b m], ∃ t, exec i s = .next t ∧ Failed s t .operandGeModulus))

/-! ### Powers and the cipher -/

/-- R165, R160: MODEXP puts `x^e mod n` in `G[d]`, whatever `x`, and changes nothing else. -/
def Obligations.ModexpResult : Prop :=
  ∀ (d a b m : Reg) (s : State), Ready s → 3 ≤ s.readG m → s.readG m % 2 = 1 →
    ∃ t, exec (.modexp d a b m) s = .next t ∧ Delivered s t d (s.readG a ^ s.readG b % s.readG m)

/-- R271: ENCRYPT puts `message^e mod n` in `G[d]`, and changes nothing else. -/
def Obligations.EncryptResult : Prop :=
  ∀ (d a b m : Reg) (s : State), Ready s → 3 ≤ s.readG m → s.readG m % 2 = 1 → s.readG a < s.readG m →
    ∃ t, exec (.encrypt d a b m) s = .next t ∧ Delivered s t d (s.readG a ^ s.readG b % s.readG m)

/-- R272: DECRYPT puts `ciphertext^d mod n` in `G[d]`, and changes nothing else. -/
def Obligations.DecryptResult : Prop :=
  ∀ (d a b m : Reg) (s : State), Ready s → 3 ≤ s.readG m → s.readG m % 2 = 1 → s.readG a < s.readG m →
    ∃ t, exec (.decrypt d a b m) s = .next t ∧ Delivered s t d (s.readG a ^ s.readG b % s.readG m)

/-- R273, R274: ENCRYPT and DECRYPT have the same outcome in every state, and MODEXP has it too when the
base is below the modulus. -/
def Obligations.CipherOneDatapath : Prop :=
  ∀ (d a b m : Reg) (s : State),
    exec (.encrypt d a b m) s = exec (.decrypt d a b m) s ∧
    (s.readG a < s.readG m → exec (.modexp d a b m) s = exec (.encrypt d a b m) s)

/-- R276: with the parts of a key pair of two odd primes, encrypting and then decrypting, or the other
way round, gives every `m < n` back. -/
def Obligations.RsaRoundTrip : Prop :=
  ∀ (a be bx m c o : Reg) (s : State) (p q : Nat), Ready s → p.Prime → q.Prime → p ≠ q → p ≠ 2 → q ≠ 2 →
    s.readG m = p * q → s.readG be * s.readG bx % ((p - 1) * (q - 1)) = 1 → s.readG a < p * q →
    c ≠ m → c ≠ be → c ≠ bx →
    (∃ t u, exec (.encrypt c a be m) s = .next t ∧ exec (.decrypt o c bx m) t = .next u ∧
      u.readG o = s.readG a ∧ u.errcode = 0) ∧
    (∃ t u, exec (.decrypt c a bx m) s = .next t ∧ exec (.encrypt o c be m) t = .next u ∧
      u.readG o = s.readG a ∧ u.errcode = 0)

/-! ### Euclid -/

/-- R186, R180: GCD puts the greatest common divisor in `G[d]`, and changes nothing else. -/
def Obligations.GcdResult : Prop :=
  ∀ (d a b : Reg) (s : State), Ready s →
    ∃ t, exec (.gcd d a b) s = .next t ∧ Delivered s t d (Nat.gcd (s.readG a) (s.readG b))

/-- R187, R180: MODINV puts in `G[d]` the inverse in `[1, mod - 1]`, and changes nothing else. -/
def Obligations.ModinvResult : Prop :=
  ∀ (d a m : Reg) (s : State), Ready s → 2 ≤ s.readG m → Nat.gcd (s.readG a % s.readG m) (s.readG m) = 1 →
    ∃ t v, exec (.modinv d a m) s = .next t ∧ Delivered s t d v ∧ 1 ≤ v ∧ v ≤ s.readG m - 1 ∧
      s.readG a * v % s.readG m = 1

/-- R187: MODINV with a modulus below 2, and with no inverse. -/
def Obligations.ModinvErrors : Prop :=
  ∀ (d a m : Reg) (s : State), Ready s →
    (s.readG m < 2 → ∃ t, exec (.modinv d a m) s = .next t ∧ Failed s t .badModulus) ∧
    (2 ≤ s.readG m → Nat.gcd (s.readG a % s.readG m) (s.readG m) ≠ 1 →
      ∃ t, exec (.modinv d a m) s = .next t ∧ Failed s t .noInverse)

/-! ### The tester -/

/-- R201 to R212: MRTEST ends with the verdict of the strong test on the bases the port's words make,
takes exactly those words, and changes nothing else. -/
def Obligations.MrtestVerdict : Prop :=
  ∀ (a : Reg) (s : State) (ws rest : List Word) (v : Bool), Ready s →
    Verdict (s.readG a) s.rounds.toNat ws v → s.rng = ws ++ rest →
    ∃ t, exec (.mrtest a) s = .next t ∧ Judged s t v ws.length

/-- R204, R304: the 128th rejection in a row ends MRTEST with RNG_REJECT and `PRIME = 0`. -/
def Obligations.MrtestRngReject : Prop :=
  ∀ (a : Reg) (s : State) (rs : List BaseDraws) (bad : List (List Word)) (rest : List Word), Ready s →
    5 ≤ s.readG a → s.readG a % 2 = 1 → AllPass (s.readG a) rs → rs.length < s.rounds.toNat →
    bad.length = 128 → (∀ ws ∈ bad, RejectedDraw (s.readG a) ws) →
    s.rng = rs.flatMap BaseDraws.words ++ bad.flatten ++ rest →
    ∃ t, exec (.mrtest a) s = .next t ∧
      Completed s t 2 4 (rs.flatMap BaseDraws.words ++ bad.flatten).length ∧ t.prime = false ∧
      AllButPrimeSame s t

/-- R207 (a): an odd prime is never called composite, whatever the port answers. -/
def Obligations.MrtestNoFalseNegative : Prop :=
  ∀ (a : Reg) (s t : State), Ready s → (s.readG a).Prime → s.readG a ≠ 2 →
    exec (.mrtest a) s = .next t → t.busy = false →
    (t.errcode = 0 ∧ t.prime = true) ∨ (t.errcode = 2 ∧ t.sub = 4)

/-! ### The generator -/

/-- R223, R225, R228: GENPRIME puts the first candidate that passes in `G[d]`; it is odd and has exactly
`BITLEN` bits; nothing else changes but `ATTEMPTS`. -/
def Obligations.GenprimeFinds : Prop :=
  ∀ (d : Reg) (s : State) (k : Nat) (fails : List Attempt) (found : Attempt) (rest : List Word), Ready s →
    s.bitlen.toInt = k → 2 ≤ k → k ≤ s.build.maxBits →
    Search k s.rounds.toNat s.attemptcap.toNat fails found → s.rng = searchDraws fails found ++ rest →
    (∃ t, exec (.genprime d) s = .next t ∧
      Generated s t d (found.value k) (fails.length + 1) (searchDraws fails found).length) ∧
    found.value k % 2 = 1 ∧ 2 ^ (k - 1) ≤ found.value k ∧ found.value k < 2 ^ k

/-- R224: when `ATTEMPTCAP` candidates have failed, GENPRIME ends with EXHAUSTED and no further draw. -/
def Obligations.GenprimeExhausted : Prop :=
  ∀ (d : Reg) (s : State) (k : Nat) (fails : List Attempt) (rest : List Word), Ready s →
    s.bitlen.toInt = k → 2 ≤ k → k ≤ s.build.maxBits → fails.length = s.attemptcap.toNat →
    (∀ f ∈ fails, f.Ends k s.rounds.toNat false) → s.rng = fails.flatMap Attempt.words ++ rest →
    ∃ t, exec (.genprime d) s = .next t ∧
      NotGenerated s t .exhausted fails.length (fails.flatMap Attempt.words).length

/-- R223: the two length checks of the generator, made before any draw. -/
def Obligations.GenprimeLengthErrors : Prop :=
  ∀ (d : Reg) (s : State), Ready s →
    (s.bitlen.toInt < 2 → ∃ t, exec (.genprime d) s = .next t ∧ NotGenerated s t .bitlenLt2 0 0) ∧
    ((s.build.maxBits : Int) < s.bitlen.toInt →
      ∃ t, exec (.genprime d) s = .next t ∧ NotGenerated s t .bitlenAboveMax 0 0)

/-! ### The key builder -/

/-- R241 to R253: GENKEY, when its first two primes differ and their product is in the window: `n`, the
first exponent coprime to φ, and its inverse are written together; nothing else changes but `ATTEMPTS` and,
in a build that has them, the debug registers. -/
def Obligations.GenkeyMakes : Prop :=
  ∀ (d b m : Reg) (s : State) (k i e : Nat) (fp fq : List Attempt) (p q : Attempt) (rest : List Word), Ready s →
    d ≠ b → d ≠ m → b ≠ m → s.bitlen.toInt = 2 * k → 2 ≤ k →
    s.minbits.toNat ≤ 2 * k → 2 * k ≤ s.build.maxBits →
    Search k s.rounds.toNat s.attemptcap.toNat fp p → Search k s.rounds.toNat s.attemptcap.toNat fq q →
    p.value k ≠ q.value k → 2 ^ (2 * k - 1) ≤ p.value k * q.value k →
    FirstExponent s.estart.toNat ((p.value k - 1) * (q.value k - 1)) i e →
    s.rng = searchDraws fp p ++ searchDraws fq q ++ rest →
    ∃ t x, exec (.genkey d b m) s = .next t ∧
      Completed s t 0 0 (searchDraws fp p ++ searchDraws fq q).length ∧
      KeyMade s t d b m (p.value k * q.value k) e x (p.value k) (q.value k) ∧
      t.attempts = BitVec.ofNat 32 (fp.length + 1 + (fq.length + 1)) ∧
      1 ≤ x ∧ x < (p.value k - 1) * (q.value k - 1) ∧ e * x % ((p.value k - 1) * (q.value k - 1)) = 1

/-- R106, R242, R223, R224, R306: the errors GENKEY reports before any draw, in their order. -/
def Obligations.GenkeyEarlyErrors : Prop :=
  ∀ (d b m : Reg) (s : State), Ready s →
    (d = b ∨ d = m ∨ b = m → ∃ t, exec (.genkey d b m) s = .next t ∧ Failed s t .destOverlap) ∧
    (d ≠ b → d ≠ m → b ≠ m →
      (s.bitlen.toInt < s.minbits.toNat →
        ∃ t, exec (.genkey d b m) s = .next t ∧ NoKey s t .bitlenBelowMin 0 0) ∧
      ((s.minbits.toNat : Int) ≤ s.bitlen.toInt →
        ((s.build.maxBits : Int) < s.bitlen.toInt →
          ∃ t, exec (.genkey d b m) s = .next t ∧ NoKey s t .bitlenAboveMax 0 0) ∧
        (s.bitlen.toInt ≤ s.build.maxBits →
          (s.bitlen.toInt % 2 = 1 →
            ∃ t, exec (.genkey d b m) s = .next t ∧ NoKey s t .bitlenOdd 0 0) ∧
          (s.bitlen.toInt % 2 = 0 →
            (s.bitlen.toInt / 2 < 2 →
              ∃ t, exec (.genkey d b m) s = .next t ∧ NoKey s t .bitlenLt2 0 0) ∧
            (2 ≤ s.bitlen.toInt / 2 → s.attemptcap = 0 →
              ∃ t, exec (.genkey d b m) s = .next t ∧ NoKey s t .exhausted 0 0)))))

/-- R254: what every successful GENKEY leaves, after however many retries. -/
def Obligations.GenkeyGuarantee : Prop :=
  ∀ (d b m : Reg) (s t : State), Ready s → exec (.genkey d b m) s = .next t → t.busy = false →
    t.errcode = 0 →
    ∃ k p q i e x : Nat, s.bitlen.toInt = 2 * k ∧ s.minbits.toNat ≤ 2 * k ∧ 2 * k ≤ s.build.maxBits ∧
      2 ^ (k - 1) < p ∧ p < 2 ^ k ∧ 2 ^ (k - 1) < q ∧ q < 2 ^ k ∧ p % 2 = 1 ∧ q % 2 = 1 ∧ p ≠ q ∧
      2 ^ (2 * k - 1) ≤ p * q ∧ p * q < 2 ^ (2 * k) ∧
      FirstExponent s.estart.toNat ((p - 1) * (q - 1)) i e ∧
      1 ≤ x ∧ x < (p - 1) * (q - 1) ∧ e * x % ((p - 1) * (q - 1)) = 1 ∧
      KeyMade s t d b m (p * q) e x p q

/-- R249: GENKEY fails with NO_E when no exponent is found, after the draws of both primes. -/
def Obligations.GenkeyNoExponent : Prop :=
  ∀ (d b m : Reg) (s : State) (k : Nat) (fp fq : List Attempt) (p q : Attempt) (rest : List Word), Ready s →
    d ≠ b → d ≠ m → b ≠ m → s.bitlen.toInt = 2 * k → 2 ≤ k →
    s.minbits.toNat ≤ 2 * k → 2 * k ≤ s.build.maxBits →
    Search k s.rounds.toNat s.attemptcap.toNat fp p → Search k s.rounds.toNat s.attemptcap.toNat fq q →
    p.value k ≠ q.value k → 2 ^ (2 * k - 1) ≤ p.value k * q.value k →
    (∀ i e, ¬FirstExponent s.estart.toNat ((p.value k - 1) * (q.value k - 1)) i e) →
    s.rng = searchDraws fp p ++ searchDraws fq q ++ rest →
    ∃ t, exec (.genkey d b m) s = .next t ∧
      NoKey s t .noE (fp.length + 1 + (fq.length + 1)) (searchDraws fp p ++ searchDraws fq q).length

/-- R256, R245: with `BITLEN = 4` both primes are 3 every time, and GENKEY ends with KEY_RETRY after 65
draws. -/
def Obligations.GenkeyFourBits : Prop :=
  ∀ (d b m : Reg) (s : State), Ready s → d ≠ b → d ≠ m → b ≠ m → s.bitlen = 4 → s.minbits.toNat ≤ 4 →
    1 ≤ s.attemptcap.toNat → 65 ≤ s.rng.length →
    ∃ t, exec (.genkey d b m) s = .next t ∧ NoKey s t .keyRetry 65 65

/-! ### ZEROIZE -/

/-- R281: ZEROIZE clears every big register and `PRIME`, and changes nothing else. -/
def Obligations.ZeroizeResult : Prop :=
  ∀ s : State, s.busy = false →
    ∃ t, exec .zeroize s = .next t ∧ Completed s t 0 0 0 ∧ (∀ r : Reg, t.readG r = 0) ∧
      t.dbgp = 0 ∧ t.dbgq = 0 ∧ t.prime = false ∧ t.attempts = s.attempts

/-! ### All commands -/

/-- R307, R304: what a command that fails leaves, with all it does not change. -/
def Obligations.ErrorsArePrecise : Prop :=
  ∀ (i : Instr) (s t : State), Ready s → exec i s = .next t → t.busy = false → t.errcode ≠ 0 →
    t.g = s.g ∧ t.done = true ∧ t.engine = Engine.cleared ∧ SameSettings s t ∧
    ((∃ a, i = .mrtest a) → t.prime = false) ∧ ((∀ a, i ≠ .mrtest a) → t.prime = s.prime) ∧
    ((∀ d, i ≠ .genprime d) → (∀ d b m, i ≠ .genkey d b m) → t.attempts = s.attempts) ∧
    ((∃ d b m, i = .genkey d b m) → i.WellFormed → t.dbgp = 0 ∧ t.dbgq = 0) ∧
    ((∀ d b m, i ≠ .genkey d b m) → t.dbgp = s.dbgp ∧ t.dbgq = s.dbgq)

/-- R301: the errors each command can report, and no other. -/
def Obligations.ErrorsByCommand : Prop :=
  ∀ (i : Instr) (s t : State), Ready s → exec i s = .next t → t.busy = false → t.errcode ≠ 0 →
    (t.errcode, t.sub) ∈ (match i with
      | .montmul _ _ _ _ | .tomont _ _ _ | .frommont _ _ _ | .encrypt _ _ _ _ | .decrypt _ _ _ _ =>
        [(1, 6), (3, 1)]
      | .modexp _ _ _ _ => [(1, 6)]
      | .gcd _ _ _ | .zeroize => []
      | .modinv _ _ _ => [(1, 5), (1, 6)]
      | .mrtest _ => [(2, 4)]
      | .genprime _ => [(1, 2), (2, 1), (2, 2), (2, 4)]
      | .genkey _ _ _ => [(1, 1), (1, 2), (1, 3), (1, 4), (2, 1), (2, 2), (2, 3), (2, 4), (4, 3)] :
        List (BitVec 4 × BitVec 4))

/-- R103: a command writes no big register but its destinations, however it ends. -/
def Obligations.OnlyDestinationsWritten : Prop :=
  ∀ (i : Instr) (s t : State) (r : Reg), exec i s = .next t → ¬MayWrite r i → t.readG r = s.readG r

/-- R38, R47: a completed command has taken some words, in order, and `RNGCNT` counts them; a command that
is still executing waits for the port, and nothing is counted. -/
def Obligations.DrawsCounted : Prop :=
  ∀ (i : Instr) (s t : State), Ready s → exec i s = .next t →
    (t.busy = false → ∃ c, c ≤ s.rng.length ∧ t.rng = s.rng.drop c ∧
      t.rngcnt = s.rngcnt + BitVec.ofNat 32 c ∧ (¬Drawing i → c = 0)) ∧
    (t.busy = true → Drawing i ∧ t.rng = s.rng ∧ t.rngcnt = s.rngcnt ∧ t.done = false)

/-- R28: `PRIME` changes only through an MRTEST, a ZEROIZE or a reset. -/
def Obligations.PrimeWrittenBy : Prop :=
  ∀ s t : State, step s = .next t → t.prime ≠ s.prime →
    Resetting s ∨ ∃ i, Concerns s i ∧ (i = .zeroize ∨ ∃ a, i = .mrtest a)

/-- R245, R355, R223: every command ends if the port answers often enough; the non-drawing commands end by
themselves. -/
def Obligations.CommandsEnd : Prop :=
  ∀ (i : Instr) (s : State), Ready s →
    (∃ N, ∀ ws : List Word, N ≤ ws.length →
      ∃ t, exec i { s with rng := ws } = .next t ∧ t.busy = false ∧ t.done = true) ∧
    (¬Drawing i → ∃ t, exec i s = .next t ∧ t.busy = false ∧ t.done = true ∧ t.rng = s.rng)

/-- R310: `irq` is low while a command runs, equals `IE` when it has completed, and falls when the host
acknowledges, which leaves the error record. -/
def Obligations.InterruptAtCompletion : Prop :=
  ∀ (i : Instr) (s t : State), Ready s → exec i s = .next t →
    t.irq = (s.ie && !t.busy) ∧
    ∀ rest, ∃ u, step { t with host := .write offSTATUS 2 :: rest } = .next u ∧ u.irq = false ∧
      u.errcode = t.errcode ∧ u.sub = t.sub

/-! ### The bus -/

/-- R78: while a command runs, the locked accesses are dropped, answer 0, and set `BUSYERR`. -/
def Obligations.LockedAccess : Prop :=
  ∀ (s : State) (addr : Nat) (v : Word) (rest : List HostEvent), s.Inv → s.busy = true →
    (s.host = .write addr v :: rest →
      addr ∈ [0x000, 0x014, 0x018, 0x01C, 0x020, 0x024] ∨
        (addr % 4 = 0 ∧ 0x1000 ≤ addr ∧ addr < 0x1000 + 40 * (s.build.maxBits / 32)) →
      step s = .next { s with host := rest, rdata := none, buserr := true }) ∧
    (s.host = .read addr :: rest →
      addr % 4 = 0 → 0x1000 ≤ addr → addr < 0x1000 + 40 * (s.build.maxBits / 32) →
      step s = .next { s with host := rest, rdata := some 0, buserr := true }) ∧
    (s.host = .command v :: rest → step s = .next { s with host := rest, rdata := none, buserr := true })

/-- R73, R74, R77: a write of limb `j` of `G[r]` replaces that limb and nothing else. -/
def Obligations.LimbWrite : Prop :=
  ∀ (s : State) (r : Reg) (j : Nat) (v : Word) (rest : List HostEvent), Ready s →
    j < s.build.maxBits / 32 → s.host = .write (0x1000 + 4 * (r.val * (s.build.maxBits / 32) + j)) v :: rest →
    ∃ t, step s = .next t ∧ limb (t.readG r) j = v.toNat ∧
      (∀ k, k ≠ j → limb (t.readG r) k = limb (s.readG r) k) ∧ OthersSame s t r ∧
      t = { s with host := rest, rdata := none, g := t.g }

/-- R72, R74, R77: a read of limb `j` of big register `i` answers those 32 bits of the register, and has no
effect. -/
def Obligations.LimbRead : Prop :=
  ∀ (s : State) (i j : Nat) (rest : List HostEvent), Ready s → i < 10 →
    j < s.build.maxBits / 32 → s.host = .read (0x1000 + 4 * (i * (s.build.maxBits / 32) + j)) :: rest →
    step s = .next { s with
      host := rest
      rdata := some (BitVec.ofNat 32 ((if h : i < 8 then s.readG ⟨i, h⟩ else if i = 8 then s.dbgp else s.dbgq)
        / 2 ^ (32 * j))) }

/-- R112: `LDG Gr, v` loads the natural into the register, in as many steps as it has limbs, and changes
nothing else. -/
def Obligations.LdgLoads : Prop :=
  ∀ (s : State) (r : Reg) (v : Nat) (rest : List HostEvent), Ready s → v < 2 ^ s.build.maxBits →
    s.host = hostLDG s.build r v ++ rest →
    ∃ t, steps (s.build.maxBits / 32) s = some t ∧ t.readG r = v ∧
      OthersSame s t r ∧ t = { s with host := rest, rdata := none, g := t.g }

/-- R25, R30: a read of STATUS answers its fields, in their places, and changes nothing; a write clears `DONE`
and `BUSYERR` where it has a 1, whether or not a command runs. CTRL reads as `IE`; a write to it with neither
ABORT nor SRST sets `IE`. -/
def Obligations.StatusAndControlAccess : Prop :=
  ∀ (s : State) (v : Word) (rest : List HostEvent),
    (s.host = .read 0x004 :: rest →
      ∃ w : Word, step s = .next { s with host := rest, rdata := some w } ∧
        w.getLsbD 0 = s.busy ∧ w.getLsbD 1 = s.done ∧ w.getLsbD 2 = decide (s.errcode ≠ 0) ∧
        w.getLsbD 3 = s.prime ∧ w.getLsbD 4 = s.buserr ∧ w.extractLsb' 5 3 = 0 ∧
        w.extractLsb' 8 4 = s.errcode ∧ w.extractLsb' 12 4 = 0 ∧ w.extractLsb' 16 4 = s.sub ∧
        w.extractLsb' 20 12 = 0) ∧
    (s.host = .write 0x004 v :: rest →
      step s = .next { s with
        host := rest
        rdata := none
        done := s.done && !v.getLsbD 1
        buserr := s.buserr && !v.getLsbD 4 }) ∧
    (s.host = .read 0x008 :: rest →
      ∃ w : Word, step s = .next { s with host := rest, rdata := some w } ∧ w.getLsbD 0 = s.ie ∧
        w.extractLsb' 1 31 = 0) ∧
    (s.host = .write 0x008 v :: rest → v.getLsbD 1 = false → v.getLsbD 2 = false →
      step s = .next { s with host := rest, rdata := none, ie := v.getLsbD 0 })

/-- R32 to R36, R73, R72, R78: an idle engine's configuration registers take the writable bits of what is
written, and they answer them when read, whether or not a command runs. -/
def Obligations.ConfigurationAccess : Prop :=
  ∀ (s : State) (v : Word) (rest : List HostEvent),
    (s.busy = false →
      (s.host = .write 0x014 v :: rest →
        step s = .next { s with host := rest, rdata := none, bitlen := v }) ∧
      (s.host = .write 0x018 v :: rest →
        step s = .next { s with host := rest, rdata := none, minbits := BitVec.ofNat 16 v.toNat }) ∧
      (s.host = .write 0x01C v :: rest →
        step s = .next { s with host := rest, rdata := none, rounds := BitVec.ofNat 8 v.toNat }) ∧
      (s.host = .write 0x020 v :: rest →
        step s = .next { s with host := rest, rdata := none, estart := v }) ∧
      (s.host = .write 0x024 v :: rest →
        step s = .next { s with host := rest, rdata := none, attemptcap := v })) ∧
    (s.host = .read 0x014 :: rest → step s = .next { s with host := rest, rdata := some s.bitlen }) ∧
    (s.host = .read 0x018 :: rest →
      step s = .next { s with host := rest, rdata := some (BitVec.ofNat 32 s.minbits.toNat) }) ∧
    (s.host = .read 0x01C :: rest →
      step s = .next { s with host := rest, rdata := some (BitVec.ofNat 32 s.rounds.toNat) }) ∧
    (s.host = .read 0x020 :: rest → step s = .next { s with host := rest, rdata := some s.estart }) ∧
    (s.host = .read 0x024 :: rest → step s = .next { s with host := rest, rdata := some s.attemptcap })

/-- R31, R37 to R40, R73, R75, R76: the read-only control registers and the reserved offsets, below and above
the register window, ignore writes, whether or not a command runs, and so do the limbs of `DBGP` and `DBGQ` on
an idle engine; the constants read as R39 and R40 say, `CMD` and the reserved offsets as 0. -/
def Obligations.ReservedAndReadOnly : Prop :=
  ∀ (s : State) (addr : Nat) (v : Word) (rest : List HostEvent), s.build.Legal →
    (addr ∈ [0x00C, 0x010, 0x028, 0x02C] → s.host = .write addr v :: rest →
      step s = .next { s with host := rest, rdata := none }) ∧
    (addr % 4 = 0 → (0x030 ≤ addr ∧ addr < 0x1000) ∨
        (0x1000 + 40 * (s.build.maxBits / 32) ≤ addr ∧ addr < 2 ^ addressWidth s.build) →
      (s.host = .write addr v :: rest → step s = .next { s with host := rest, rdata := none }) ∧
      (s.host = .read addr :: rest → step s = .next { s with host := rest, rdata := some 0 })) ∧
    (∀ i j, s.busy = false → 8 ≤ i → i ≤ 9 → j < s.build.maxBits / 32 →
      s.host = .write (0x1000 + 4 * (i * (s.build.maxBits / 32) + j)) v :: rest →
      step s = .next { s with host := rest, rdata := none }) ∧
    (s.host = .read 0x000 :: rest → step s = .next { s with host := rest, rdata := some 0 }) ∧
    (s.host = .read 0x00C :: rest → step s = .next { s with host := rest, rdata := some 0x49435233 }) ∧
    (s.host = .read 0x028 :: rest → step s = .next { s with host := rest, rdata := some s.attempts }) ∧
    (s.host = .read 0x02C :: rest → step s = .next { s with host := rest, rdata := some s.rngcnt }) ∧
    (s.host = .read 0x010 :: rest →
      ∃ w : Word, step s = .next { s with host := rest, rdata := some w } ∧
        (w.extractLsb' 0 16).toNat = s.build.maxBits ∧ w.extractLsb' 16 8 = 32 ∧
        w.extractLsb' 24 4 = 8 ∧ w.getLsbD 28 = s.build.dbgPrimes ∧ w.extractLsb' 29 3 = 0)

/-! ### Abort and reset -/

/-- R316, R30: an abort ends the running command with ABORTED, in whatever state the engine is, and has
no effect on an idle engine; `IE` takes bit 0 in both cases. -/
def Obligations.AbortEnds : Prop :=
  ∀ (s : State) (v : Word) (rest : List HostEvent), s.Inv → s.host = .write 0x008 v :: rest →
    v.getLsbD 1 = true → v.getLsbD 2 = false →
    (s.busy = false → step s = .next { s with host := rest, rdata := none, ie := v.getLsbD 0 }) ∧
    (s.busy = true → ∃ t, step s = .next t ∧ t.done = true ∧ t.errcode = 5 ∧ t.sub = 0 ∧
      t.engine = Engine.cleared ∧ t.g = s.g ∧ t.rng = s.rng ∧ t.rngcnt = s.rngcnt + s.engine.lrng ∧
      SameSettings { s with host := rest, rdata := none, ie := v.getLsbD 0 } t ∧ t.prime = s.prime ∧
      (∀ i, commandOf s.engine.cw = some i →
        ((∃ a, i = .mrtest a) → t.prime = false) ∧
        ((∃ d, i = .genprime d) ∨ (∃ d b m, i = .genkey d b m) → t.attempts = s.engine.latt) ∧
        ((∀ d, i ≠ .genprime d) → (∀ d b m, i ≠ .genkey d b m) → t.attempts = s.attempts) ∧
        ((∃ d b m, i = .genkey d b m) → t.dbgp = 0 ∧ t.dbgq = 0) ∧
        ((∀ d b m, i ≠ .genkey d b m) → t.dbgp = s.dbgp ∧ t.dbgq = s.dbgq)))

/-- R49, R340, R341, R342: a hard reset and a soft reset, whatever the state, leave the values of the
table; the build, the source's words and the host's events are not state of the block. -/
def Obligations.ResetState : Prop :=
  ∀ (s : State) (v : Word) (rest : List HostEvent),
    (s.host = .hardReset :: rest ∨
      (v.getLsbD 2 = true ∧ s.host = .write 0x008 v :: rest)) →
    ∃ t, step s = .next t ∧ (∀ r : Reg, t.readG r = 0) ∧ t.dbgp = 0 ∧ t.dbgq = 0 ∧
      t.done = false ∧ t.prime = false ∧ t.buserr = false ∧ t.errcode = 0 ∧ t.sub = 0 ∧ t.ie = false ∧
      t.bitlen = 0 ∧ t.minbits = 1024 ∧ t.rounds = 40 ∧ t.estart = 65537 ∧ t.attemptcap = 65536 ∧
      t.attempts = 0 ∧ t.rngcnt = 0 ∧ t.engine = Engine.cleared ∧ t.busy = false ∧ t.irq = false ∧
      t.rngReq = false ∧ t.build = s.build ∧ t.rng = s.rng ∧ t.host = rest

/-! ### Invariants -/

/-- R49: the state after reset satisfies the invariant. -/
def Obligations.ResetInv : Prop := State.reset.Inv

/-- R6, R21, R26, R27, R28, R41, R45, R301: every step keeps the invariant. -/
def Obligations.StepKeepsInv : Prop := ∀ s t : State, s.Inv → step s = .next t → t.Inv

/-! ### The sequencers -/

/-- R82 (c), R325: between acceptance and completion a transition of the engine changes nothing the host
can see, and an idle engine does nothing. -/
def Obligations.BusyTicksHidden : Prop :=
  ∀ s : State, s.Inv →
    (s.tick.busy = true → SameToHost s s.tick) ∧ (s.busy = false → s.tick = s)

/-- R47: a transition takes one word in a drawing state, none elsewhere, and waits when the port is
silent; `LRNG` counts the words. -/
def Obligations.OneWordPerDraw : Prop :=
  ∀ s : State, s.Inv →
    (s.rngReq = false → s.tick.rng = s.rng ∧ (s.tick.busy = true → s.tick.engine.lrng = s.engine.lrng)) ∧
    (s.rngReq = true → s.rng = [] → s.tick = s) ∧
    (∀ w ws, s.rngReq = true → s.rng = w :: ws →
      s.tick.rng = ws ∧ s.tick.busy = true ∧ s.tick.engine.lrng = s.engine.lrng + 1)

/-- R135, R131: the limb algorithm of `MMUL` computes the Montgomery product. -/
def Obligations.MulLimbwiseAgrees : Prop :=
  ∀ a b n : Nat, 3 ≤ n → n % 2 = 1 → a < n → b < n →
    mulLimbwise a b n = montMul a b n ∧ mulLimbwise a b n < n ∧
    mulLimbwise a b n * 2 ^ (32 * limbs n) % n = a * b % n

/-- R132, R133: the values `MPRE` computes. -/
def Obligations.PrecomputedValues : Prop :=
  ∀ n : Nat, 3 ≤ n → n % 2 = 1 →
    (negInverse n).toNat * n % 2 ^ 32 = 2 ^ 32 - 1 ∧
    radixSquared n (limbs n) = (2 ^ (32 * limbs n)) ^ 2 % n

/-- R164: `MEXP`, with every product a Montgomery product, computes the power. -/
def Obligations.ExpMontgomeryAgrees : Prop :=
  ∀ b e n : Nat, 3 ≤ n → n % 2 = 1 → b < n → expMontgomery b e n = b ^ e % n

/-- R9: the sequencer, started by the `CMD` write, reaches the state the command level gives, for every
command that draws nothing. -/
def Obligations.SequencerRefinesNonDrawing : Prop :=
  ∀ (i : Instr) (s t : State), Ready s → ¬Drawing i → exec i s = .next t →
    ∃ k, State.ticks k (s.issue (encode i)) = t

/-- R9, R47: the same for the commands that draw; where the command level waits on a silent port, the
sequencer never completes. -/
def Obligations.SequencerRefinesDrawing : Prop :=
  ∀ (i : Instr) (s t : State), Ready s → Drawing i → exec i s = .next t →
    (t.busy = false → ∃ k, State.ticks k (s.issue (encode i)) = t) ∧
    (t.busy = true → ∀ k, (State.ticks k (s.issue (encode i))).busy = true)

/-- R317, R47: wherever an abort cuts a command, the words taken are the first `c` of those the whole
command takes, and `c` is what `LRNG` holds. -/
def Obligations.AbortedDraws : Prop :=
  ∀ (i : Instr) (s t : State) (k : Nat), Ready s → exec i s = .next t → t.busy = false →
    (State.ticks k (s.issue (encode i))).busy = true →
    ∃ c, c ≤ s.rng.length ∧ (State.ticks k (s.issue (encode i))).rng = s.rng.drop c ∧
      (State.ticks k (s.issue (encode i))).engine.lrng = BitVec.ofNat 32 c ∧
      t.rng.length ≤ s.rng.length - c
end

