-- ==== Sys2Proof/Laws/Arith.lean ====
section
/-! SUPPORT. One specification lemma for each function of Machine/Arith.lean that the command level
uses: lengths and limbs (R7), Euclid (R180 to R185), powers (R160, R164). -/

namespace Sys2Proof.Machine

/-! ### Lengths and limbs -/

@[simp] theorem bitLength_zero : bitLength 0 = 0 := rfl

theorem lt_two_pow_bitLength (v : Nat) : v < 2 ^ bitLength v := by
  unfold bitLength
  split
  · simp_all
  · exact Nat.lt_log2_self

theorem two_pow_bitLength_le {v : Nat} (h : v ≠ 0) : 2 ^ (bitLength v - 1) ≤ v := by
  simp [bitLength, h, Nat.log2_self_le h]

/-- `bitlen(v) = k` exactly when `2^(k-1) <= v < 2^k`, for `k >= 1` (R7). -/
theorem bitLength_eq_iff {v k : Nat} (hk : 1 ≤ k) :
    bitLength v = k ↔ 2 ^ (k - 1) ≤ v ∧ v < 2 ^ k := by
  constructor
  · rintro rfl
    have hv : v ≠ 0 := by rintro rfl; simp at hk
    exact ⟨two_pow_bitLength_le hv, lt_two_pow_bitLength v⟩
  · rintro ⟨h1, h2⟩
    have hv : v ≠ 0 := by
      have := Nat.two_pow_pos (k - 1)
      omega
    have h3 : Nat.log2 v = k - 1 := by
      rw [Nat.log2_eq_iff hv]
      exact ⟨h1, by rwa [Nat.sub_add_cancel hk]⟩
    simp [bitLength, hv, h3]
    omega

/-- A low part below `A` and a high part below `B` together stay below `A * B`. -/
theorem add_mul_lt_mul {x w A B : Nat} (hx : x < A) (hw : w < B) : x + w * A < A * B :=
  calc x + w * A < A + w * A := Nat.add_lt_add_right hx _
    _ = (w + 1) * A := by ring
    _ ≤ B * A := Nat.mul_le_mul_right _ hw
    _ = A * B := Nat.mul_comm _ _

theorem limb_lt (v j : Nat) : limb v j < 2 ^ 32 := Nat.mod_lt _ (by norm_num)

theorem one_le_limbs (n : Nat) : 1 ≤ limbs n := Nat.le_max_left _ _

/-- A modulus is below its Montgomery radix (R130). -/
theorem lt_radix (n : Nat) : n < radix n := by
  refine (lt_two_pow_bitLength n).trans_le (Nat.pow_le_pow_right (by norm_num) ?_)
  unfold limbs
  omega

theorem limb_mul_le (v j : Nat) : limb v j * 2 ^ (32 * j) ≤ v := by
  unfold limb
  calc v / 2 ^ (32 * j) % 2 ^ 32 * 2 ^ (32 * j)
      ≤ v / 2 ^ (32 * j) * 2 ^ (32 * j) := Nat.mul_le_mul_right _ (Nat.mod_le _ _)
    _ ≤ v := Nat.div_mul_le_self _ _

/-- A natural split at limb `j`: what is below it, the limb, what is above it. -/
theorem split_at_limb (v j : Nat) :
    v = v % 2 ^ (32 * j) + limb v j * 2 ^ (32 * j) + v / 2 ^ (32 * (j + 1)) * 2 ^ (32 * (j + 1)) := by
  have h1 := Nat.div_add_mod v (2 ^ (32 * j))
  have h2 := Nat.div_add_mod (v / 2 ^ (32 * j)) (2 ^ 32)
  rw [Nat.div_div_eq_div_mul, ← pow_add] at h2
  have h3 : 2 ^ (32 * (j + 1)) = 2 ^ (32 * j) * 2 ^ 32 := by rw [← pow_add]; ring_nf
  have h4 : 32 * j + 32 = 32 * (j + 1) := by ring
  rw [h4] at h2
  unfold limb
  generalize v / 2 ^ (32 * (j + 1)) = hi at *
  generalize v / 2 ^ (32 * j) % 2 ^ 32 = mid at *
  rw [h3]
  calc v = 2 ^ (32 * j) * (v / 2 ^ (32 * j)) + v % 2 ^ (32 * j) := h1.symm
    _ = 2 ^ (32 * j) * (2 ^ 32 * hi + mid) + v % 2 ^ (32 * j) := by rw [h2]
    _ = _ := by ring

/-- `setLimb` replaces the limb between the same two parts. -/
theorem setLimb_eq (v j w : Nat) :
    setLimb v j w = v % 2 ^ (32 * j) + w * 2 ^ (32 * j) + v / 2 ^ (32 * (j + 1)) * 2 ^ (32 * (j + 1)) := by
  have h := split_at_limb v j
  unfold setLimb
  omega

/-- A part below `2^a`, a part below `2^b` above it, and the rest, taken apart again. -/
theorem limb_of_parts {j lo w hi : Nat} (hlo : lo < 2 ^ (32 * j)) (hw : w < 2 ^ 32) :
    limb (lo + w * 2 ^ (32 * j) + hi * 2 ^ (32 * (j + 1))) j = w := by
  have h3 : 2 ^ (32 * (j + 1)) = 2 ^ (32 * j) * 2 ^ 32 := by rw [← pow_add]; ring_nf
  have h : lo + w * 2 ^ (32 * j) + hi * 2 ^ (32 * (j + 1)) =
      lo + 2 ^ (32 * j) * (w + 2 ^ 32 * hi) := by rw [h3]; ring
  unfold limb
  rw [h, Nat.add_mul_div_left _ _ (Nat.two_pow_pos _), Nat.div_eq_of_lt hlo, Nat.zero_add,
    Nat.add_mul_mod_self_left, Nat.mod_eq_of_lt hw]

theorem limb_setLimb_same (v j : Nat) {w : Nat} (hw : w < 2 ^ 32) : limb (setLimb v j w) j = w := by
  rw [setLimb_eq]
  exact limb_of_parts (Nat.mod_lt _ (Nat.two_pow_pos _)) hw

theorem limb_setLimb_other (v : Nat) {j k w : Nat} (hw : w < 2 ^ 32) (h : k ≠ j) :
    limb (setLimb v j w) k = limb v k := by
  rcases Nat.lt_or_gt_of_ne h with hlt | hgt
  · -- below: limb k depends on the part below limb j only
    have aux : ∀ x : Nat, limb x k = limb (x % 2 ^ (32 * j)) k := by
      intro x
      have hsplit : 2 ^ (32 * j) = 2 ^ (32 * k) * 2 ^ 32 * 2 ^ (32 * (j - k - 1)) := by
        rw [← pow_add, ← pow_add]
        congr 1
        omega
      unfold limb
      rw [hsplit, mul_assoc, Nat.mod_mul_right_div_self, Nat.mod_mod_of_dvd _ (dvd_mul_right _ _)]
    rw [aux, aux v, setLimb_eq]
    have h3 : 2 ^ (32 * (j + 1)) = 2 ^ (32 * j) * 2 ^ 32 := by rw [← pow_add]; ring_nf
    have : v % 2 ^ (32 * j) + w * 2 ^ (32 * j) + v / 2 ^ (32 * (j + 1)) * 2 ^ (32 * (j + 1)) =
        v % 2 ^ (32 * j) + 2 ^ (32 * j) * (w + 2 ^ 32 * (v / 2 ^ (32 * (j + 1)))) := by rw [h3]; ring
    rw [this, Nat.add_mul_mod_self_left, Nat.mod_mod]
  · -- above: limb k depends on the part above limb j only
    have aux : ∀ x : Nat, limb x k = limb (x / 2 ^ (32 * (j + 1))) (k - j - 1) := by
      intro x
      unfold limb
      rw [Nat.div_div_eq_div_mul, ← pow_add]
      congr 3
      omega
    have hlow : v % 2 ^ (32 * j) + w * 2 ^ (32 * j) < 2 ^ (32 * (j + 1)) := by
      rw [show 2 ^ (32 * (j + 1)) = 2 ^ (32 * j) * 2 ^ 32 by rw [← pow_add]; ring_nf]
      exact add_mul_lt_mul (Nat.mod_lt _ (Nat.two_pow_pos _)) hw
    rw [aux, aux v, setLimb_eq, Nat.add_mul_div_right _ _ (Nat.two_pow_pos _), Nat.div_eq_of_lt hlow,
      Nat.zero_add]

/-- Replacing a limb of a register keeps it a register of the same width (R73). -/
theorem setLimb_lt {v j w L : Nat} (hv : v < 2 ^ (32 * L)) (hj : j < L) (hw : w < 2 ^ 32) :
    setLimb v j w < 2 ^ (32 * L) := by
  rw [setLimb_eq]
  have h3 : 2 ^ (32 * (j + 1)) = 2 ^ (32 * j) * 2 ^ 32 := by rw [← pow_add]; ring_nf
  have hL : 32 * L = 32 * (j + 1) + 32 * (L - j - 1) := by omega
  have h4 : 2 ^ (32 * L) = 2 ^ (32 * (j + 1)) * 2 ^ (32 * (L - j - 1)) := by rw [← pow_add, ← hL]
  have h2 : v / 2 ^ (32 * (j + 1)) < 2 ^ (32 * (L - j - 1)) := by
    rw [Nat.div_lt_iff_lt_mul (Nat.two_pow_pos _), mul_comm, ← h4]
    exact hv
  have hlow : v % 2 ^ (32 * j) + w * 2 ^ (32 * j) < 2 ^ (32 * (j + 1)) := by
    rw [h3]
    exact add_mul_lt_mul (Nat.mod_lt _ (Nat.two_pow_pos _)) hw
  rw [h4]
  exact add_mul_lt_mul hlow h2

/-- A natural is the sum of its limbs, as many as hold it (R7, R77). -/
theorem sum_limbs (v : Nat) : ∀ c, v < 2 ^ (32 * c) →
    ((List.range c).map fun j => limb v j * 2 ^ (32 * j)).sum = v := by
  have key : ∀ c, ((List.range c).map fun j => limb v j * 2 ^ (32 * j)).sum = v % 2 ^ (32 * c) := by
    intro c
    induction c with
    | zero => simp [Nat.mod_one]
    | succ c ih =>
      rw [List.range_succ, List.map_append, List.sum_append, ih]
      simp only [List.map_cons, List.map_nil, List.sum_cons, List.sum_nil, add_zero]
      have h3 : 2 ^ (32 * (c + 1)) = 2 ^ (32 * c) * 2 ^ 32 := by rw [← pow_add]; ring_nf
      rw [h3, Nat.mod_mul]
      unfold limb
      ring
  intro c hc
  rw [key, Nat.mod_eq_of_lt hc]

/-! ### Euclid -/

/-- The exit of the loop of R181, with enough passes: the gcd, and a coefficient with
`T0 * a ≡ g (mod m)` (R182). -/
theorem euclidLoop_spec (a m : Int) : ∀ (k r0 r1 : Nat) (t0 t1 : Int), r1 < k →
    m ∣ t0 * a - r0 → m ∣ t1 * a - r1 →
    (euclidLoop k r0 r1 t0 t1).1 = Nat.gcd r0 r1 ∧
      m ∣ (euclidLoop k r0 r1 t0 t1).2 * a - (Nat.gcd r0 r1 : Nat) := by
  intro k
  induction k with
  | zero => intro r0 r1 t0 t1 h; omega
  | succ k ih =>
    intro r0 r1 t0 t1 hlt h0 h1
    by_cases hz : r1 = 0
    · subst hz
      simpa [euclidLoop] using h0
    · have hmod : r0 % r1 < k := by
        have := Nat.mod_lt r0 (Nat.pos_of_ne_zero hz)
        omega
      have hnext : m ∣ (t0 - ((r0 / r1 : Nat) : Int) * t1) * a - ((r0 % r1 : Nat) : Int) := by
        have hr : ((r0 % r1 : Nat) : Int) = r0 - (r0 / r1 : Nat) * r1 := by
          have := Nat.div_add_mod r0 r1
          have h2 : ((r1 * (r0 / r1) + r0 % r1 : Nat) : Int) = r0 := by exact_mod_cast this
          push_cast at h2 ⊢
          linarith [mul_comm (r1 : Int) ((r0 : Int) / r1)]
        rw [hr]
        have := Dvd.dvd.mul_left h1 ((r0 / r1 : Nat) : Int)
        have h4 := dvd_sub h0 this
        exact (by ring : (t0 - ((r0 / r1 : Nat) : Int) * t1) * a - ((r0 : Int) - (r0 / r1 : Nat) * r1) =
          t0 * a - r0 - ((r0 / r1 : Nat) : Int) * (t1 * a - r1)) ▸ h4
      have hg : Nat.gcd r1 (r0 % r1) = Nat.gcd r0 r1 := by
        rw [Nat.gcd_comm r0 r1, Nat.gcd_rec r1 r0, Nat.gcd_comm]
      have := ih r1 (r0 % r1) t1 (t0 - ((r0 / r1 : Nat) : Int) * t1) hmod h1 hnext
      rw [hg] at this
      simpa [euclidLoop, hz] using this

/-- `ModInv` finds an inverse exactly when there is one (R180, R185). -/
theorem modInv_eq_none_iff {a m : Nat} : modInv a m = none ↔ Nat.gcd a m ≠ 1 := by
  have h := (euclidLoop_spec a m (a % m + 1) m (a % m) 0 1 (by omega) (by simp)
    (by push_cast; rw [one_mul]; exact Int.dvd_self_sub_emod)).1
  have hg : Nat.gcd m (a % m) = Nat.gcd a m := by rw [Nat.gcd_comm a m, Nat.gcd_rec m a, Nat.gcd_comm]
  unfold modInv
  simp only [h, hg]
  split <;> simp_all

/-- What `ModInv` finds is the inverse in `[0, m-1]` (R180, R185). -/
theorem modInv_spec {a m v : Nat} (hm : 2 ≤ m) (h : modInv a m = some v) :
    v < m ∧ a * v % m = 1 := by
  have hs := euclidLoop_spec a m (a % m + 1) m (a % m) 0 1 (by omega) (by simp)
    (by push_cast; rw [one_mul]; exact Int.dvd_self_sub_emod)
  unfold modInv at h
  simp only at h
  split at h
  · rename_i hg
    rw [hg] at hs
    simp only [Option.some.injEq] at h
    generalize (euclidLoop (a % m + 1) m (a % m) 0 1).2 = t at *
    obtain ⟨h1, h2⟩ := hs
    rw [← h1] at h2
    have hmpos : (0 : Int) < m := by omega
    have hnn := Int.emod_nonneg t hmpos.ne'
    have hlt := Int.emod_lt_of_pos t hmpos
    have hv : (v : Int) = t % m := by rw [← h, Int.toNat_of_nonneg hnn]
    refine ⟨by omega, ?_⟩
    have hdiv : (m : Int) ∣ (a : Int) * v - 1 := by
      have h5 : (m : Int) ∣ t - v := hv ▸ Int.dvd_self_sub_emod
      have h6 := dvd_sub h2 (h5.mul_right (a : Int))
      rw [Nat.cast_one] at h6
      exact (by ring : t * (a : Int) - 1 - (t - v) * a = (a : Int) * v - 1) ▸ h6
    have h7 : ((a * v % m : Nat) : Int) = 1 := by
      push_cast
      rw [Int.emod_eq_emod_iff_emod_sub_eq_zero.2 (Int.emod_eq_zero_of_dvd hdiv)]
      exact Int.emod_eq_of_lt (by norm_num) (by omega)
    exact_mod_cast h7
  · simp at h

theorem modInv_isSome {a m : Nat} (h : Nat.gcd a m = 1) : ∃ v, modInv a m = some v := by
  cases hv : modInv a m with
  | none => exact absurd h (modInv_eq_none_iff.1 hv)
  | some v => exact ⟨v, rfl⟩

/-! ### Powers -/

/-- The scan of R161 from the power of the high bits gives the whole power. -/
theorem powScan_spec (b e n : Nat) : ∀ k x, x = b ^ (e / 2 ^ k) % n →
    powScan b e n k x = b ^ e % n := by
  intro k
  induction k with
  | zero => intro x hx; simpa [powScan] using hx
  | succ k ih =>
    intro x hx
    have hstep : e / 2 ^ k = 2 * (e / 2 ^ (k + 1)) + (e.testBit k).toNat := by
      rw [pow_succ, ← Nat.div_div_eq_div_mul, Nat.toNat_testBit]
      omega
    have hsq : x * x % n = b ^ (2 * (e / 2 ^ (k + 1))) % n := by
      rw [hx, ← Nat.mul_mod, ← pow_add]
      ring_nf
    refine ih _ ?_
    rw [hstep]
    cases hb : e.testBit k with
    | false => simpa using hsq
    | true =>
      rw [if_pos rfl, Bool.toNat_true, pow_succ b, hsq, Nat.mod_mul_mod]

/-- `modExp` is the power modulo `n` (R160, R164). -/
theorem modExp_eq (b e n : Nat) : modExp b e n = b ^ e % n := by
  unfold modExp
  rw [powScan_spec]
  · exact (Nat.pow_mod b e n).symm
  · rw [Nat.div_eq_of_lt (lt_two_pow_bitLength e), pow_zero]

end Sys2Proof.Machine
end

