-- ==== Sys2Proof/Laws/Random.lean ====
section
/-! SUPPORT. What a drawing computation can do, said once: how it ends, what it answers, which errors it
reports, and how many words of the port it takes (R47, R209, R221 to R225, R245). -/

namespace Sys2Proof.Machine

theorem valueOf_lt : ∀ ws : List Word, valueOf ws < 2 ^ (32 * ws.length)
  | [] => by simp [valueOf]
  | w :: ws => by
    have h1 := w.isLt
    have h2 := valueOf_lt ws
    have h3 : 2 ^ (32 * (w :: ws).length) = 2 ^ 32 * 2 ^ (32 * ws.length) := by
      rw [← pow_add, List.length_cons]
      ring_nf
    rw [h3, valueOf, mul_comm (2 ^ 32) (valueOf ws)]
    exact add_mul_lt_mul h1 h2

/-- The draws after so many words. -/
def Draws.after (d : Draws) (c : Nat) : Draws :=
  { d with words := d.words.drop c, lrng := d.lrng + BitVec.ofNat 32 c }

theorem Draws.after_zero (d : Draws) : d.after 0 = d := by simp [Draws.after]

theorem Draws.after_after (d : Draws) (a b : Nat) : (d.after a).after b = d.after (a + b) := by
  simp [Draws.after, BitVec.ofNat_add, add_assoc]

@[simp] theorem Draws.after_latt (d : Draws) (c : Nat) : (d.after c).latt = d.latt := rfl

/-- `RngNext()` so many times: the value of the next words, or a silent port (R47, R221). -/
theorem drawWords_eq : ∀ (c : Nat) (d : Draws),
    drawWords c d = if c ≤ d.words.length then .ok (valueOf (d.words.take c)) (d.after c) else .silent
  | 0, d => by simp [drawWords, valueOf, Draws.after]
  | c + 1, d => by
    obtain ⟨ws, l, a⟩ := d
    cases ws with
    | nil => simp [drawWords]
    | cons w ws =>
      simp only [drawWords, drawWords_eq c]
      by_cases h : c ≤ ws.length
      · have hl : l + 1 + BitVec.ofNat 32 c = l + BitVec.ofNat 32 (c + 1) := by
          rw [BitVec.ofNat_add, BitVec.add_assoc, BitVec.add_comm 1]
          rfl
        simp only [h, if_true, Gen.andThen, valueOf, Draws.after, hl, List.length_cons,
          Nat.add_le_add_iff_right, List.take_succ_cons, List.drop_succ_cons]
      · simp [h, Gen.andThen]

/-- `DrawBits(k)` (R221). -/
theorem drawBits_eq (k : Nat) (d : Draws) :
    drawBits k d = if wordsFor k ≤ d.words.length
      then .ok (valueOf (d.words.take (wordsFor k)) % 2 ^ k) (d.after (wordsFor k)) else .silent := by
  unfold drawBits
  rw [drawWords_eq]
  split <;> rfl

/-! ### The one predicate on a drawing computation -/

/-- The computation, started with `d`, takes at most `B` words, in order and each counted; its answer
satisfies `P`, its error `E`; it stays silent only if the port holds fewer than `B` words. -/
def Gen.Within {α : Type} (d : Draws) (B : Nat) (P : α → Prop) (E : Err → Prop) : Gen α → Prop
  | .ok a d' => P a ∧ ∃ c, c ≤ B ∧ c ≤ d.words.length ∧ d'.words = d.words.drop c ∧
      d'.lrng = d.lrng + BitVec.ofNat 32 c
  | .err e d' => E e ∧ ∃ c, c ≤ B ∧ c ≤ d.words.length ∧ d'.words = d.words.drop c ∧
      d'.lrng = d.lrng + BitVec.ofNat 32 c
  | .silent => d.words.length < B

/-- Words taken one after the other add up. -/
theorem spent_trans {d d1 d2 : Draws} {a B1 b B2 : Nat} (ha : a ≤ B1 ∧ a ≤ d.words.length ∧
    d1.words = d.words.drop a ∧ d1.lrng = d.lrng + BitVec.ofNat 32 a)
    (hb : b ≤ B2 ∧ b ≤ d1.words.length ∧ d2.words = d1.words.drop b ∧
      d2.lrng = d1.lrng + BitVec.ofNat 32 b) :
    ∃ c, c ≤ B1 + B2 ∧ c ≤ d.words.length ∧ d2.words = d.words.drop c ∧
      d2.lrng = d.lrng + BitVec.ofNat 32 c := by
  obtain ⟨h1, h2, h3, h4⟩ := ha
  obtain ⟨g1, g2, g3, g4⟩ := hb
  refine ⟨a + b, by omega, ?_, ?_, ?_⟩
  · rw [h3, List.length_drop] at g2
    omega
  · rw [g3, h3, List.drop_drop]
  · rw [g4, h4, BitVec.ofNat_add, BitVec.add_assoc]

theorem Gen.Within.andThen {α β : Type} {d : Draws} {B1 B2 : Nat} {P : α → Prop} {Q : β → Prop}
    {E : Err → Prop} {x : Gen α} {f : α → Draws → Gen β} (hx : x.Within d B1 P E)
    (hf : ∀ a d', P a → (f a d').Within d' B2 Q E) : (x.andThen f).Within d (B1 + B2) Q E := by
  cases x with
  | silent => exact Nat.lt_of_lt_of_le hx (Nat.le_add_right _ _)
  | err e d' =>
    obtain ⟨he, c, h1, h2, h3, h4⟩ := hx
    exact ⟨he, c, by omega, h2, h3, h4⟩
  | ok a d' =>
    obtain ⟨ha, c, hc⟩ := hx
    have := hf a d' ha
    simp only [Gen.andThen]
    cases hfa : f a d' with
    | silent =>
      rw [hfa] at this
      simp only [Gen.Within, hc.2.2.1, List.length_drop] at this ⊢
      omega
    | err e d2 =>
      rw [hfa] at this
      obtain ⟨he, c2, hc2⟩ := this
      exact ⟨he, spent_trans hc hc2⟩
    | ok b d2 =>
      rw [hfa] at this
      obtain ⟨hb, c2, hc2⟩ := this
      exact ⟨hb, spent_trans hc hc2⟩

/-- A value at once takes no word. -/
theorem Gen.Within.pure {α : Type} {d : Draws} {B : Nat} {P : α → Prop} {E : Err → Prop} {a : α} (h : P a) :
    (Gen.ok a d).Within d B P E :=
  ⟨h, 0, Nat.zero_le _, Nat.zero_le _, by simp, by simp⟩

/-- An error at once takes no word. -/
theorem Gen.Within.fail {α : Type} {d : Draws} {B : Nat} {P : α → Prop} {E : Err → Prop} {e : Err} (h : E e) :
    (Gen.err e d : Gen α).Within d B P E :=
  ⟨h, 0, Nat.zero_le _, Nat.zero_le _, by simp, by simp⟩

theorem Gen.Within.weaken {α : Type} {d : Draws} {B B' : Nat} {P Q : α → Prop} {E F : Err → Prop} {x : Gen α}
    (hx : x.Within d B P E) (hB : B ≤ B') (hP : ∀ a, P a → Q a) (hE : ∀ e, E e → F e) :
    x.Within d B' Q F := by
  cases x with
  | silent => exact Nat.lt_of_lt_of_le hx hB
  | err e d' =>
    obtain ⟨he, c, h1, h2⟩ := hx
    exact ⟨hE e he, c, h1.trans hB, h2⟩
  | ok a d' =>
    obtain ⟨ha, c, h1, h2⟩ := hx
    exact ⟨hP a ha, c, h1.trans hB, h2⟩

/-- The predicate does not read `LATT`. -/
theorem Gen.Within.of_latt {α : Type} {d : Draws} {B : Nat} {P : α → Prop} {E : Err → Prop} {x : Gen α}
    (latt : Word) (hx : x.Within { d with latt := latt } B P E) : x.Within d B P E := by
  cases x <;> exact hx

/-! ### The computations of the rules -/

theorem drawBits_within (k : Nat) (d : Draws) (E : Err → Prop) :
    (drawBits k d).Within d (wordsFor k) (fun v => v < 2 ^ k) E := by
  rw [drawBits_eq]
  split
  · rename_i h
    exact ⟨Nat.mod_lt _ (Nat.two_pow_pos k), wordsFor k, le_refl _, h, rfl, rfl⟩
  · rename_i h
    exact Nat.lt_of_not_le h

/-- `DrawBase(n)` (R204). -/
theorem drawBase_within (n : Nat) : ∀ (k : Nat) (d : Draws),
    (drawBase n k d).Within d (k * wordsFor (bitLength n)) (fun a => 2 ≤ a ∧ a ≤ n - 2)
      (fun e => e = .rngReject)
  | 0, d => .fail rfl
  | k + 1, d => by
    rw [drawBase, Nat.succ_mul, Nat.add_comm]
    refine (drawBits_within _ d _).andThen fun a d' _ => ?_
    by_cases h : baseInRange n a = true
    · rw [if_pos h]
      exact .pure (by simpa [baseInRange] using h)
    · rw [if_neg h]
      exact drawBase_within n k d'

/-- The words a round can take at most (R209). -/
def roundWords (n : Nat) : Nat := Config.baseRejectCap * wordsFor (bitLength n)

theorem testRounds_within (n : Nat) : ∀ (r : Nat) (d : Draws),
    (testRounds n r d).Within d (r * roundWords n) (fun _ => True) (fun e => e = .rngReject)
  | 0, d => .pure trivial
  | r + 1, d => by
    rw [testRounds, Nat.succ_mul, Nat.add_comm]
    refine (drawBase_within n _ d).andThen fun a d' _ => ?_
    by_cases h : roundPasses n a = true
    · rw [if_pos h]
      exact testRounds_within n r d'
    · rw [if_neg h]
      exact .pure trivial

/-- `MRT(n, rounds)` (R201, R209). -/
theorem millerRabin_within (n r : Nat) (d : Draws) :
    (millerRabin n r d).Within d (r * roundWords n) (fun _ => True) (fun e => e = .rngReject) := by
  unfold millerRabin
  split
  · exact .pure trivial
  split
  · exact .pure trivial
  split
  · exact .pure trivial
  exact testRounds_within n r d

/-- A candidate is odd and has exactly `k` bits (R222). -/
theorem candidateFrom_spec {k v : Nat} (hk : 2 ≤ k) (hv : v < 2 ^ k) :
    candidateFrom k v % 2 = 1 ∧ bitLength (candidateFrom k v) = k := by
  unfold candidateFrom
  constructor
  · have := Nat.toNat_testBit (v ||| 2 ^ (k - 1) ||| 1) 0
    rw [Nat.testBit_or, show Nat.testBit 1 0 = true from rfl, Bool.or_true, pow_zero, Nat.div_one] at this
    exact this.symm
  · rw [bitLength_eq_iff (by omega)]
    refine ⟨(Nat.right_le_or).trans Nat.left_le_or, ?_⟩
    refine Nat.or_lt_two_pow (Nat.or_lt_two_pow hv ?_) ?_
    · exact Nat.pow_lt_pow_right (by norm_num) (by omega)
    · exact Nat.one_lt_two_pow (by omega)

theorem candidate_within {k : Nat} (hk : 2 ≤ k) (d : Draws) (E : Err → Prop) :
    (candidate k d).Within d (wordsFor k) (fun p => p % 2 = 1 ∧ bitLength p = k) E := by
  rw [candidate, ← Nat.add_zero (wordsFor k)]
  exact (drawBits_within k d E).andThen fun v d' hv => .pure (candidateFrom_spec hk hv)

/-- The words an attempt can take at most: the candidate's and its rounds' (R228). -/
def attemptWords (k rounds : Nat) : Nat :=
  wordsFor k + rounds * (Config.baseRejectCap * wordsFor k)

/-- The loop of R223: what it returns is odd and of exactly `k` bits (R225); it takes at most `cap`
attempts (R224). -/
theorem primeSearch_within {k : Nat} (hk : 2 ≤ k) (rounds : Nat) : ∀ (cap : Nat) (d : Draws),
    (primeSearch k rounds cap d).Within d (cap * attemptWords k rounds)
      (fun p => p % 2 = 1 ∧ bitLength p = k) (fun e => e = .exhausted ∨ e = .rngReject)
  | 0, d => .fail (.inl rfl)
  | cap + 1, d => by
    rw [primeSearch, Nat.succ_mul, Nat.add_comm, attemptWords, Nat.add_assoc]
    refine Gen.Within.of_latt (d.latt + 1) ((candidate_within hk _ _).andThen fun p d' hp => ?_)
    refine ((millerRabin_within p rounds d').weaken (B' := rounds * (Config.baseRejectCap * wordsFor k))
      ?_ (fun _ h => h) (fun _ h => .inr h)).andThen fun v d'' _ => ?_
    · rw [roundWords, hp.2]
    · cases v with
      | true => exact .pure hp
      | false => exact primeSearch_within hk rounds cap d''

/-- `PGEN(k)` (R223, R225). -/
theorem generatePrime_within (u : State) (k : Int) (d : Draws) :
    (generatePrime u k d).Within d (u.attemptcap.toNat * attemptWords k.toNat u.rounds.toNat)
      (fun p => p % 2 = 1 ∧ bitLength p = k.toNat ∧ 2 ≤ k ∧ k ≤ u.build.maxBits)
      (fun e => e = .bitlenLt2 ∨ e = .bitlenAboveMax ∨ e = .exhausted ∨ e = .rngReject) := by
  unfold generatePrime checkPrimeLength
  split_ifs with h1 h2
  · exact .fail (.inl rfl)
  · exact .fail (.inr (.inl rfl))
  · refine (primeSearch_within (by omega) _ _ d).weaken (le_refl _)
      (fun p hp => ⟨hp.1, hp.2, by omega, by omega⟩) fun e he => .inr (.inr he)

/-- The errors of the prime search of a key. -/
def KeyErr (e : Err) : Prop :=
  e = .bitlenLt2 ∨ e = .bitlenAboveMax ∨ e = .exhausted ∨ e = .rngReject ∨ e = .keyRetry

/-- The primes GENKEY goes on with: odd, of half the length, different, with a product in the window
(R244, R246, R250). -/
def KeyPrimes (len : Int) (pq : Nat × Nat) : Prop :=
  pq.1 % 2 = 1 ∧ pq.2 % 2 = 1 ∧ bitLength pq.1 = (len / 2).toNat ∧ bitLength pq.2 = (len / 2).toNat ∧
    pq.1 ≠ pq.2 ∧ 2 ^ (len.toNat - 1) ≤ pq.1 * pq.2 ∧ 2 ≤ len / 2

/-- The words one prime search of a key can take at most. -/
def searchWords (u : State) (len : Int) : Nat :=
  u.attemptcap.toNat * attemptWords (len / 2).toNat u.rounds.toNat

/-- Steps 1 and 2 of GENKEY: at most two searches a retry (R245). -/
theorem keyPrimes_within (u : State) (len : Int) : ∀ (r : Nat) (kept : Option Nat) (d : Draws),
    (∀ p, kept = some p → p % 2 = 1 ∧ bitLength p = (len / 2).toNat) →
    (keyPrimes u len r kept d).Within d (r * (searchWords u len + searchWords u len)) (KeyPrimes len) KeyErr
  | 0, kept, d, _ => .fail (by simp [KeyErr])
  | r + 1, kept, d, hkept => by
    rw [keyPrimes, Nat.succ_mul, Nat.add_comm, Nat.add_assoc]
    have hgen : ∀ d : Draws, (generatePrime u (len / 2) d).Within d (searchWords u len)
        (fun p => p % 2 = 1 ∧ bitLength p = (len / 2).toNat ∧ 2 ≤ len / 2) KeyErr := fun d =>
      (generatePrime_within u (len / 2) d).weaken (le_refl _) (fun p hp => ⟨hp.1, hp.2.1, hp.2.2.1⟩)
        fun e he => by unfold KeyErr; tauto
    have hp : (keptOrDrawn u (len / 2) kept d).Within d (searchWords u len)
        (fun p => p % 2 = 1 ∧ bitLength p = (len / 2).toNat) KeyErr := by
      cases kept with
      | some p => exact .pure (hkept p rfl)
      | none => exact (hgen d).weaken (le_refl _) (fun p hp => ⟨hp.1, hp.2.1⟩) fun _ h => h
    refine hp.andThen fun p d1 hp => (hgen d1).andThen fun q d2 hq => ?_
    split_ifs with h1 h2
    · refine keyPrimes_within u len r (some p) d2 ?_
      rintro _ ⟨rfl⟩
      exact hp
    · exact keyPrimes_within u len r none d2 (by simp)
    · exact .pure ⟨hp.1, hq.1, hp.2, hq.2.1, fun h => h1 h.symm, Nat.le_of_not_lt h2, hq.2.2⟩

/-! ### The exponent search (R249) -/

/-- What `FindE` returns: the first of `e, e + 2, e + 4, …` that is above 1 and coprime to φ, below φ. -/
theorem findE_spec {phi : Nat} : ∀ (k e v : Nat), findE phi k e = some v →
    1 < v ∧ v < phi ∧ Nat.gcd v phi = 1 ∧
      ∃ i, i < k ∧ v = e + 2 * i ∧ ∀ j, j < i → ¬(1 < e + 2 * j ∧ Nat.gcd (e + 2 * j) phi = 1)
  | 0, e, v, h => by simp [findE] at h
  | k + 1, e, v, h => by
    rw [findE] at h
    split_ifs at h with h1 h2
    · obtain rfl := Option.some.inj h
      exact ⟨h2.1, by omega, h2.2, 0, by omega, by omega, fun j hj => absurd hj (Nat.not_lt_zero j)⟩
    · obtain ⟨g1, g2, g3, i, hi, g4, g5⟩ := findE_spec k (e + 2) v h
      refine ⟨g1, g2, g3, i + 1, by omega, by omega, fun j hj => ?_⟩
      cases j with
      | zero => exact h2
      | succ j =>
        have := g5 j (by omega)
        rwa [show e + 2 + 2 * j = e + 2 * (j + 1) by ring] at this

end Sys2Proof.Machine
end

