-- ==== Sys2Proof/Laws/State.lean ====
section
/-! SUPPORT. The small lemmas of the state: reads after writes of the register file, and for every
shared operation one lemma per field, so that no later proof unfolds a record update. -/

namespace Sys2Proof.Machine

/-! ### The register file -/

@[simp] theorem State.readG_writeG_same (s : State) (r : Reg) (v : Nat) :
    (s.writeG r v).readG r = v % 2 ^ s.build.maxBits := by
  simp [State.readG, State.writeG]

@[simp] theorem State.readG_writeG_other (s : State) {r q : Reg} (v : Nat) (h : q ≠ r) :
    (s.writeG r v).readG q = s.readG q := by
  have h' : r.val ≠ q.val := fun hv => h (Fin.ext hv.symm)
  simp [State.readG, State.writeG, h']

theorem State.readG_writeG_fits (s : State) (r : Reg) (v : Nat) (h : v < 2 ^ s.build.maxBits) :
    (s.writeG r v).readG r = v := by
  rw [State.readG_writeG_same, Nat.mod_eq_of_lt h]

/-- A register depends on the register file only. -/
theorem State.readG_congr {s t : State} (h : t.g = s.g) (r : Reg) : t.readG r = s.readG r := by
  simp [State.readG, h]

/-! ### `State.writeG` -/

@[simp] theorem State.writeG_build (s : State) (r : Reg) (v : Nat) :
    (s.writeG r v).build = s.build := rfl
@[simp] theorem State.writeG_g (s : State) (r : Reg) (v : Nat) :
    (s.writeG r v).g = s.g.set r.val (v % 2 ^ s.build.maxBits) r.isLt := rfl
@[simp] theorem State.writeG_dbgp (s : State) (r : Reg) (v : Nat) :
    (s.writeG r v).dbgp = s.dbgp := rfl
@[simp] theorem State.writeG_dbgq (s : State) (r : Reg) (v : Nat) :
    (s.writeG r v).dbgq = s.dbgq := rfl
@[simp] theorem State.writeG_done (s : State) (r : Reg) (v : Nat) :
    (s.writeG r v).done = s.done := rfl
@[simp] theorem State.writeG_prime (s : State) (r : Reg) (v : Nat) :
    (s.writeG r v).prime = s.prime := rfl
@[simp] theorem State.writeG_buserr (s : State) (r : Reg) (v : Nat) :
    (s.writeG r v).buserr = s.buserr := rfl
@[simp] theorem State.writeG_errcode (s : State) (r : Reg) (v : Nat) :
    (s.writeG r v).errcode = s.errcode := rfl
@[simp] theorem State.writeG_sub (s : State) (r : Reg) (v : Nat) :
    (s.writeG r v).sub = s.sub := rfl
@[simp] theorem State.writeG_ie (s : State) (r : Reg) (v : Nat) :
    (s.writeG r v).ie = s.ie := rfl
@[simp] theorem State.writeG_bitlen (s : State) (r : Reg) (v : Nat) :
    (s.writeG r v).bitlen = s.bitlen := rfl
@[simp] theorem State.writeG_minbits (s : State) (r : Reg) (v : Nat) :
    (s.writeG r v).minbits = s.minbits := rfl
@[simp] theorem State.writeG_rounds (s : State) (r : Reg) (v : Nat) :
    (s.writeG r v).rounds = s.rounds := rfl
@[simp] theorem State.writeG_estart (s : State) (r : Reg) (v : Nat) :
    (s.writeG r v).estart = s.estart := rfl
@[simp] theorem State.writeG_attemptcap (s : State) (r : Reg) (v : Nat) :
    (s.writeG r v).attemptcap = s.attemptcap := rfl
@[simp] theorem State.writeG_attempts (s : State) (r : Reg) (v : Nat) :
    (s.writeG r v).attempts = s.attempts := rfl
@[simp] theorem State.writeG_rngcnt (s : State) (r : Reg) (v : Nat) :
    (s.writeG r v).rngcnt = s.rngcnt := rfl
@[simp] theorem State.writeG_engine (s : State) (r : Reg) (v : Nat) :
    (s.writeG r v).engine = s.engine := rfl
@[simp] theorem State.writeG_rng (s : State) (r : Reg) (v : Nat) :
    (s.writeG r v).rng = s.rng := rfl
@[simp] theorem State.writeG_host (s : State) (r : Reg) (v : Nat) :
    (s.writeG r v).host = s.host := rfl
@[simp] theorem State.writeG_rdata (s : State) (r : Reg) (v : Nat) :
    (s.writeG r v).rdata = s.rdata := rfl

/-! ### `State.writeDbg` -/

@[simp] theorem State.writeDbg_build (s : State) (p q : Nat) :
    (s.writeDbg p q).build = s.build := by unfold State.writeDbg; split <;> rfl
@[simp] theorem State.writeDbg_g (s : State) (p q : Nat) :
    (s.writeDbg p q).g = s.g := by unfold State.writeDbg; split <;> rfl
@[simp] theorem State.writeDbg_done (s : State) (p q : Nat) :
    (s.writeDbg p q).done = s.done := by unfold State.writeDbg; split <;> rfl
@[simp] theorem State.writeDbg_prime (s : State) (p q : Nat) :
    (s.writeDbg p q).prime = s.prime := by unfold State.writeDbg; split <;> rfl
@[simp] theorem State.writeDbg_buserr (s : State) (p q : Nat) :
    (s.writeDbg p q).buserr = s.buserr := by unfold State.writeDbg; split <;> rfl
@[simp] theorem State.writeDbg_errcode (s : State) (p q : Nat) :
    (s.writeDbg p q).errcode = s.errcode := by unfold State.writeDbg; split <;> rfl
@[simp] theorem State.writeDbg_sub (s : State) (p q : Nat) :
    (s.writeDbg p q).sub = s.sub := by unfold State.writeDbg; split <;> rfl
@[simp] theorem State.writeDbg_ie (s : State) (p q : Nat) :
    (s.writeDbg p q).ie = s.ie := by unfold State.writeDbg; split <;> rfl
@[simp] theorem State.writeDbg_bitlen (s : State) (p q : Nat) :
    (s.writeDbg p q).bitlen = s.bitlen := by unfold State.writeDbg; split <;> rfl
@[simp] theorem State.writeDbg_minbits (s : State) (p q : Nat) :
    (s.writeDbg p q).minbits = s.minbits := by unfold State.writeDbg; split <;> rfl
@[simp] theorem State.writeDbg_rounds (s : State) (p q : Nat) :
    (s.writeDbg p q).rounds = s.rounds := by unfold State.writeDbg; split <;> rfl
@[simp] theorem State.writeDbg_estart (s : State) (p q : Nat) :
    (s.writeDbg p q).estart = s.estart := by unfold State.writeDbg; split <;> rfl
@[simp] theorem State.writeDbg_attemptcap (s : State) (p q : Nat) :
    (s.writeDbg p q).attemptcap = s.attemptcap := by unfold State.writeDbg; split <;> rfl
@[simp] theorem State.writeDbg_attempts (s : State) (p q : Nat) :
    (s.writeDbg p q).attempts = s.attempts := by unfold State.writeDbg; split <;> rfl
@[simp] theorem State.writeDbg_rngcnt (s : State) (p q : Nat) :
    (s.writeDbg p q).rngcnt = s.rngcnt := by unfold State.writeDbg; split <;> rfl
@[simp] theorem State.writeDbg_engine (s : State) (p q : Nat) :
    (s.writeDbg p q).engine = s.engine := by unfold State.writeDbg; split <;> rfl
@[simp] theorem State.writeDbg_rng (s : State) (p q : Nat) :
    (s.writeDbg p q).rng = s.rng := by unfold State.writeDbg; split <;> rfl
@[simp] theorem State.writeDbg_host (s : State) (p q : Nat) :
    (s.writeDbg p q).host = s.host := by unfold State.writeDbg; split <;> rfl
@[simp] theorem State.writeDbg_rdata (s : State) (p q : Nat) :
    (s.writeDbg p q).rdata = s.rdata := by unfold State.writeDbg; split <;> rfl

/-! ### `State.zeroise` -/

@[simp] theorem State.zeroise_build (s : State) :
    (s.zeroise).build = s.build := rfl
@[simp] theorem State.zeroise_g (s : State) :
    (s.zeroise).g = s.g := rfl
@[simp] theorem State.zeroise_dbgp (s : State) :
    (s.zeroise).dbgp = s.dbgp := rfl
@[simp] theorem State.zeroise_dbgq (s : State) :
    (s.zeroise).dbgq = s.dbgq := rfl
@[simp] theorem State.zeroise_done (s : State) :
    (s.zeroise).done = s.done := rfl
@[simp] theorem State.zeroise_prime (s : State) :
    (s.zeroise).prime = s.prime := rfl
@[simp] theorem State.zeroise_buserr (s : State) :
    (s.zeroise).buserr = s.buserr := rfl
@[simp] theorem State.zeroise_errcode (s : State) :
    (s.zeroise).errcode = s.errcode := rfl
@[simp] theorem State.zeroise_sub (s : State) :
    (s.zeroise).sub = s.sub := rfl
@[simp] theorem State.zeroise_ie (s : State) :
    (s.zeroise).ie = s.ie := rfl
@[simp] theorem State.zeroise_bitlen (s : State) :
    (s.zeroise).bitlen = s.bitlen := rfl
@[simp] theorem State.zeroise_minbits (s : State) :
    (s.zeroise).minbits = s.minbits := rfl
@[simp] theorem State.zeroise_rounds (s : State) :
    (s.zeroise).rounds = s.rounds := rfl
@[simp] theorem State.zeroise_estart (s : State) :
    (s.zeroise).estart = s.estart := rfl
@[simp] theorem State.zeroise_attemptcap (s : State) :
    (s.zeroise).attemptcap = s.attemptcap := rfl
@[simp] theorem State.zeroise_attempts (s : State) :
    (s.zeroise).attempts = s.attempts := rfl
@[simp] theorem State.zeroise_rngcnt (s : State) :
    (s.zeroise).rngcnt = s.rngcnt := rfl
@[simp] theorem State.zeroise_engine (s : State) :
    (s.zeroise).engine = Engine.cleared := rfl
@[simp] theorem State.zeroise_rng (s : State) :
    (s.zeroise).rng = s.rng := rfl
@[simp] theorem State.zeroise_host (s : State) :
    (s.zeroise).host = s.host := rfl
@[simp] theorem State.zeroise_rdata (s : State) :
    (s.zeroise).rdata = s.rdata := rfl

/-! ### `State.accept` -/

@[simp] theorem State.accept_build (s : State) (w : Word) :
    (s.accept w).build = s.build := rfl
@[simp] theorem State.accept_g (s : State) (w : Word) :
    (s.accept w).g = s.g := rfl
@[simp] theorem State.accept_dbgp (s : State) (w : Word) :
    (s.accept w).dbgp = s.dbgp := rfl
@[simp] theorem State.accept_dbgq (s : State) (w : Word) :
    (s.accept w).dbgq = s.dbgq := rfl
@[simp] theorem State.accept_done (s : State) (w : Word) :
    (s.accept w).done = false := rfl
@[simp] theorem State.accept_prime (s : State) (w : Word) :
    (s.accept w).prime = s.prime := rfl
@[simp] theorem State.accept_buserr (s : State) (w : Word) :
    (s.accept w).buserr = s.buserr := rfl
@[simp] theorem State.accept_errcode (s : State) (w : Word) :
    (s.accept w).errcode = 0 := rfl
@[simp] theorem State.accept_sub (s : State) (w : Word) :
    (s.accept w).sub = 0 := rfl
@[simp] theorem State.accept_ie (s : State) (w : Word) :
    (s.accept w).ie = s.ie := rfl
@[simp] theorem State.accept_bitlen (s : State) (w : Word) :
    (s.accept w).bitlen = s.bitlen := rfl
@[simp] theorem State.accept_minbits (s : State) (w : Word) :
    (s.accept w).minbits = s.minbits := rfl
@[simp] theorem State.accept_rounds (s : State) (w : Word) :
    (s.accept w).rounds = s.rounds := rfl
@[simp] theorem State.accept_estart (s : State) (w : Word) :
    (s.accept w).estart = s.estart := rfl
@[simp] theorem State.accept_attemptcap (s : State) (w : Word) :
    (s.accept w).attemptcap = s.attemptcap := rfl
@[simp] theorem State.accept_attempts (s : State) (w : Word) :
    (s.accept w).attempts = s.attempts := rfl
@[simp] theorem State.accept_rngcnt (s : State) (w : Word) :
    (s.accept w).rngcnt = s.rngcnt := rfl
@[simp] theorem State.accept_engine (s : State) (w : Word) :
    (s.accept w).engine = { s.engine with cw := w, lrng := 0, latt := 0, phase := .decode } := rfl
@[simp] theorem State.accept_rng (s : State) (w : Word) :
    (s.accept w).rng = s.rng := rfl
@[simp] theorem State.accept_host (s : State) (w : Word) :
    (s.accept w).host = s.host := rfl
@[simp] theorem State.accept_rdata (s : State) (w : Word) :
    (s.accept w).rdata = s.rdata := rfl

/-! ### `State.latch` -/

@[simp] theorem State.latch_build (s : State) (i : Instr) :
    (s.latch i).build = s.build := rfl
@[simp] theorem State.latch_g (s : State) (i : Instr) :
    (s.latch i).g = s.g := rfl
@[simp] theorem State.latch_dbgp (s : State) (i : Instr) :
    (s.latch i).dbgp = s.dbgp := rfl
@[simp] theorem State.latch_dbgq (s : State) (i : Instr) :
    (s.latch i).dbgq = s.dbgq := rfl
@[simp] theorem State.latch_done (s : State) (i : Instr) :
    (s.latch i).done = s.done := rfl
@[simp] theorem State.latch_buserr (s : State) (i : Instr) :
    (s.latch i).buserr = s.buserr := rfl
@[simp] theorem State.latch_errcode (s : State) (i : Instr) :
    (s.latch i).errcode = s.errcode := rfl
@[simp] theorem State.latch_sub (s : State) (i : Instr) :
    (s.latch i).sub = s.sub := rfl
@[simp] theorem State.latch_ie (s : State) (i : Instr) :
    (s.latch i).ie = s.ie := rfl
@[simp] theorem State.latch_bitlen (s : State) (i : Instr) :
    (s.latch i).bitlen = s.bitlen := rfl
@[simp] theorem State.latch_minbits (s : State) (i : Instr) :
    (s.latch i).minbits = s.minbits := rfl
@[simp] theorem State.latch_rounds (s : State) (i : Instr) :
    (s.latch i).rounds = s.rounds := rfl
@[simp] theorem State.latch_estart (s : State) (i : Instr) :
    (s.latch i).estart = s.estart := rfl
@[simp] theorem State.latch_attemptcap (s : State) (i : Instr) :
    (s.latch i).attemptcap = s.attemptcap := rfl
@[simp] theorem State.latch_attempts (s : State) (i : Instr) :
    (s.latch i).attempts = s.attempts := rfl
@[simp] theorem State.latch_rngcnt (s : State) (i : Instr) :
    (s.latch i).rngcnt = s.rngcnt := rfl
@[simp] theorem State.latch_rng (s : State) (i : Instr) :
    (s.latch i).rng = s.rng := rfl
@[simp] theorem State.latch_host (s : State) (i : Instr) :
    (s.latch i).host = s.host := rfl
@[simp] theorem State.latch_rdata (s : State) (i : Instr) :
    (s.latch i).rdata = s.rdata := rfl

/-! ### `State.withDraws` -/

@[simp] theorem State.withDraws_build (s : State) (d : Draws) :
    (s.withDraws d).build = s.build := rfl
@[simp] theorem State.withDraws_g (s : State) (d : Draws) :
    (s.withDraws d).g = s.g := rfl
@[simp] theorem State.withDraws_dbgp (s : State) (d : Draws) :
    (s.withDraws d).dbgp = s.dbgp := rfl
@[simp] theorem State.withDraws_dbgq (s : State) (d : Draws) :
    (s.withDraws d).dbgq = s.dbgq := rfl
@[simp] theorem State.withDraws_done (s : State) (d : Draws) :
    (s.withDraws d).done = s.done := rfl
@[simp] theorem State.withDraws_prime (s : State) (d : Draws) :
    (s.withDraws d).prime = s.prime := rfl
@[simp] theorem State.withDraws_buserr (s : State) (d : Draws) :
    (s.withDraws d).buserr = s.buserr := rfl
@[simp] theorem State.withDraws_errcode (s : State) (d : Draws) :
    (s.withDraws d).errcode = s.errcode := rfl
@[simp] theorem State.withDraws_sub (s : State) (d : Draws) :
    (s.withDraws d).sub = s.sub := rfl
@[simp] theorem State.withDraws_ie (s : State) (d : Draws) :
    (s.withDraws d).ie = s.ie := rfl
@[simp] theorem State.withDraws_bitlen (s : State) (d : Draws) :
    (s.withDraws d).bitlen = s.bitlen := rfl
@[simp] theorem State.withDraws_minbits (s : State) (d : Draws) :
    (s.withDraws d).minbits = s.minbits := rfl
@[simp] theorem State.withDraws_rounds (s : State) (d : Draws) :
    (s.withDraws d).rounds = s.rounds := rfl
@[simp] theorem State.withDraws_estart (s : State) (d : Draws) :
    (s.withDraws d).estart = s.estart := rfl
@[simp] theorem State.withDraws_attemptcap (s : State) (d : Draws) :
    (s.withDraws d).attemptcap = s.attemptcap := rfl
@[simp] theorem State.withDraws_attempts (s : State) (d : Draws) :
    (s.withDraws d).attempts = s.attempts := rfl
@[simp] theorem State.withDraws_rngcnt (s : State) (d : Draws) :
    (s.withDraws d).rngcnt = s.rngcnt := rfl
@[simp] theorem State.withDraws_engine (s : State) (d : Draws) :
    (s.withDraws d).engine = { s.engine with lrng := d.lrng, latt := d.latt } := rfl
@[simp] theorem State.withDraws_rng (s : State) (d : Draws) :
    (s.withDraws d).rng = d.words := rfl
@[simp] theorem State.withDraws_host (s : State) (d : Draws) :
    (s.withDraws d).host = s.host := rfl
@[simp] theorem State.withDraws_rdata (s : State) (d : Draws) :
    (s.withDraws d).rdata = s.rdata := rfl

/-! ### `State.complete` -/

@[simp] theorem State.complete_build (s : State) (c x : BitVec 4) :
    (s.complete c x).build = s.build := rfl
@[simp] theorem State.complete_g (s : State) (c x : BitVec 4) :
    (s.complete c x).g = s.g := rfl
@[simp] theorem State.complete_dbgp (s : State) (c x : BitVec 4) :
    (s.complete c x).dbgp = s.dbgp := rfl
@[simp] theorem State.complete_dbgq (s : State) (c x : BitVec 4) :
    (s.complete c x).dbgq = s.dbgq := rfl
@[simp] theorem State.complete_done (s : State) (c x : BitVec 4) :
    (s.complete c x).done = true := rfl
@[simp] theorem State.complete_prime (s : State) (c x : BitVec 4) :
    (s.complete c x).prime = s.prime := rfl
@[simp] theorem State.complete_buserr (s : State) (c x : BitVec 4) :
    (s.complete c x).buserr = s.buserr := rfl
@[simp] theorem State.complete_errcode (s : State) (c x : BitVec 4) :
    (s.complete c x).errcode = c := rfl
@[simp] theorem State.complete_sub (s : State) (c x : BitVec 4) :
    (s.complete c x).sub = x := rfl
@[simp] theorem State.complete_ie (s : State) (c x : BitVec 4) :
    (s.complete c x).ie = s.ie := rfl
@[simp] theorem State.complete_bitlen (s : State) (c x : BitVec 4) :
    (s.complete c x).bitlen = s.bitlen := rfl
@[simp] theorem State.complete_minbits (s : State) (c x : BitVec 4) :
    (s.complete c x).minbits = s.minbits := rfl
@[simp] theorem State.complete_rounds (s : State) (c x : BitVec 4) :
    (s.complete c x).rounds = s.rounds := rfl
@[simp] theorem State.complete_estart (s : State) (c x : BitVec 4) :
    (s.complete c x).estart = s.estart := rfl
@[simp] theorem State.complete_attemptcap (s : State) (c x : BitVec 4) :
    (s.complete c x).attemptcap = s.attemptcap := rfl
@[simp] theorem State.complete_attempts (s : State) (c x : BitVec 4) :
    (s.complete c x).attempts = s.attempts := rfl
@[simp] theorem State.complete_rngcnt (s : State) (c x : BitVec 4) :
    (s.complete c x).rngcnt = s.rngcnt + s.engine.lrng := rfl
@[simp] theorem State.complete_engine (s : State) (c x : BitVec 4) :
    (s.complete c x).engine = Engine.cleared := rfl
@[simp] theorem State.complete_rng (s : State) (c x : BitVec 4) :
    (s.complete c x).rng = s.rng := rfl
@[simp] theorem State.complete_host (s : State) (c x : BitVec 4) :
    (s.complete c x).host = s.host := rfl
@[simp] theorem State.complete_rdata (s : State) (c x : BitVec 4) :
    (s.complete c x).rdata = s.rdata := rfl

/-! ### `State.countAttempts` -/

@[simp] theorem State.countAttempts_build (s : State) (i : Instr) :
    (s.countAttempts i).build = s.build := by cases i <;> rfl
@[simp] theorem State.countAttempts_g (s : State) (i : Instr) :
    (s.countAttempts i).g = s.g := by cases i <;> rfl
@[simp] theorem State.countAttempts_dbgp (s : State) (i : Instr) :
    (s.countAttempts i).dbgp = s.dbgp := by cases i <;> rfl
@[simp] theorem State.countAttempts_dbgq (s : State) (i : Instr) :
    (s.countAttempts i).dbgq = s.dbgq := by cases i <;> rfl
@[simp] theorem State.countAttempts_done (s : State) (i : Instr) :
    (s.countAttempts i).done = s.done := by cases i <;> rfl
@[simp] theorem State.countAttempts_prime (s : State) (i : Instr) :
    (s.countAttempts i).prime = s.prime := by cases i <;> rfl
@[simp] theorem State.countAttempts_buserr (s : State) (i : Instr) :
    (s.countAttempts i).buserr = s.buserr := by cases i <;> rfl
@[simp] theorem State.countAttempts_errcode (s : State) (i : Instr) :
    (s.countAttempts i).errcode = s.errcode := by cases i <;> rfl
@[simp] theorem State.countAttempts_sub (s : State) (i : Instr) :
    (s.countAttempts i).sub = s.sub := by cases i <;> rfl
@[simp] theorem State.countAttempts_ie (s : State) (i : Instr) :
    (s.countAttempts i).ie = s.ie := by cases i <;> rfl
@[simp] theorem State.countAttempts_bitlen (s : State) (i : Instr) :
    (s.countAttempts i).bitlen = s.bitlen := by cases i <;> rfl
@[simp] theorem State.countAttempts_minbits (s : State) (i : Instr) :
    (s.countAttempts i).minbits = s.minbits := by cases i <;> rfl
@[simp] theorem State.countAttempts_rounds (s : State) (i : Instr) :
    (s.countAttempts i).rounds = s.rounds := by cases i <;> rfl
@[simp] theorem State.countAttempts_estart (s : State) (i : Instr) :
    (s.countAttempts i).estart = s.estart := by cases i <;> rfl
@[simp] theorem State.countAttempts_attemptcap (s : State) (i : Instr) :
    (s.countAttempts i).attemptcap = s.attemptcap := by cases i <;> rfl
@[simp] theorem State.countAttempts_rngcnt (s : State) (i : Instr) :
    (s.countAttempts i).rngcnt = s.rngcnt := by cases i <;> rfl
@[simp] theorem State.countAttempts_engine (s : State) (i : Instr) :
    (s.countAttempts i).engine = s.engine := by cases i <;> rfl
@[simp] theorem State.countAttempts_rng (s : State) (i : Instr) :
    (s.countAttempts i).rng = s.rng := by cases i <;> rfl
@[simp] theorem State.countAttempts_host (s : State) (i : Instr) :
    (s.countAttempts i).host = s.host := by cases i <;> rfl
@[simp] theorem State.countAttempts_rdata (s : State) (i : Instr) :
    (s.countAttempts i).rdata = s.rdata := by cases i <;> rfl

/-! ### `State.failEffects` -/

@[simp] theorem State.failEffects_build (s : State) (i : Instr) :
    (s.failEffects i).build = s.build := by cases i <;> rfl
@[simp] theorem State.failEffects_g (s : State) (i : Instr) :
    (s.failEffects i).g = s.g := by cases i <;> rfl
@[simp] theorem State.failEffects_done (s : State) (i : Instr) :
    (s.failEffects i).done = s.done := by cases i <;> rfl
@[simp] theorem State.failEffects_buserr (s : State) (i : Instr) :
    (s.failEffects i).buserr = s.buserr := by cases i <;> rfl
@[simp] theorem State.failEffects_errcode (s : State) (i : Instr) :
    (s.failEffects i).errcode = s.errcode := by cases i <;> rfl
@[simp] theorem State.failEffects_sub (s : State) (i : Instr) :
    (s.failEffects i).sub = s.sub := by cases i <;> rfl
@[simp] theorem State.failEffects_ie (s : State) (i : Instr) :
    (s.failEffects i).ie = s.ie := by cases i <;> rfl
@[simp] theorem State.failEffects_bitlen (s : State) (i : Instr) :
    (s.failEffects i).bitlen = s.bitlen := by cases i <;> rfl
@[simp] theorem State.failEffects_minbits (s : State) (i : Instr) :
    (s.failEffects i).minbits = s.minbits := by cases i <;> rfl
@[simp] theorem State.failEffects_rounds (s : State) (i : Instr) :
    (s.failEffects i).rounds = s.rounds := by cases i <;> rfl
@[simp] theorem State.failEffects_estart (s : State) (i : Instr) :
    (s.failEffects i).estart = s.estart := by cases i <;> rfl
@[simp] theorem State.failEffects_attemptcap (s : State) (i : Instr) :
    (s.failEffects i).attemptcap = s.attemptcap := by cases i <;> rfl
@[simp] theorem State.failEffects_rngcnt (s : State) (i : Instr) :
    (s.failEffects i).rngcnt = s.rngcnt := by cases i <;> rfl
@[simp] theorem State.failEffects_engine (s : State) (i : Instr) :
    (s.failEffects i).engine = s.engine := by cases i <;> rfl
@[simp] theorem State.failEffects_rng (s : State) (i : Instr) :
    (s.failEffects i).rng = s.rng := by cases i <;> rfl
@[simp] theorem State.failEffects_host (s : State) (i : Instr) :
    (s.failEffects i).host = s.host := by cases i <;> rfl
@[simp] theorem State.failEffects_rdata (s : State) (i : Instr) :
    (s.failEffects i).rdata = s.rdata := by cases i <;> rfl

/-! ### `State.commit` -/

@[simp] theorem State.commit_build (s : State) (c : Commit) :
    (s.commit c).build = s.build := by cases c <;> simp [State.commit]
@[simp] theorem State.commit_done (s : State) (c : Commit) :
    (s.commit c).done = s.done := by cases c <;> simp [State.commit]
@[simp] theorem State.commit_buserr (s : State) (c : Commit) :
    (s.commit c).buserr = s.buserr := by cases c <;> simp [State.commit]
@[simp] theorem State.commit_errcode (s : State) (c : Commit) :
    (s.commit c).errcode = s.errcode := by cases c <;> simp [State.commit]
@[simp] theorem State.commit_sub (s : State) (c : Commit) :
    (s.commit c).sub = s.sub := by cases c <;> simp [State.commit]
@[simp] theorem State.commit_ie (s : State) (c : Commit) :
    (s.commit c).ie = s.ie := by cases c <;> simp [State.commit]
@[simp] theorem State.commit_bitlen (s : State) (c : Commit) :
    (s.commit c).bitlen = s.bitlen := by cases c <;> simp [State.commit]
@[simp] theorem State.commit_minbits (s : State) (c : Commit) :
    (s.commit c).minbits = s.minbits := by cases c <;> simp [State.commit]
@[simp] theorem State.commit_rounds (s : State) (c : Commit) :
    (s.commit c).rounds = s.rounds := by cases c <;> simp [State.commit]
@[simp] theorem State.commit_estart (s : State) (c : Commit) :
    (s.commit c).estart = s.estart := by cases c <;> simp [State.commit]
@[simp] theorem State.commit_attemptcap (s : State) (c : Commit) :
    (s.commit c).attemptcap = s.attemptcap := by cases c <;> simp [State.commit]
@[simp] theorem State.commit_attempts (s : State) (c : Commit) :
    (s.commit c).attempts = s.attempts := by cases c <;> simp [State.commit]
@[simp] theorem State.commit_rngcnt (s : State) (c : Commit) :
    (s.commit c).rngcnt = s.rngcnt := by cases c <;> simp [State.commit]
@[simp] theorem State.commit_engine (s : State) (c : Commit) :
    (s.commit c).engine = s.engine := by cases c <;> simp [State.commit]
@[simp] theorem State.commit_rng (s : State) (c : Commit) :
    (s.commit c).rng = s.rng := by cases c <;> simp [State.commit]
@[simp] theorem State.commit_host (s : State) (c : Commit) :
    (s.commit c).host = s.host := by cases c <;> simp [State.commit]
@[simp] theorem State.commit_rdata (s : State) (c : Commit) :
    (s.commit c).rdata = s.rdata := by cases c <;> simp [State.commit]

/-! ### `State.locked` -/

@[simp] theorem State.locked_build (s : State) :
    (s.locked).build = s.build := rfl
@[simp] theorem State.locked_g (s : State) :
    (s.locked).g = s.g := rfl
@[simp] theorem State.locked_dbgp (s : State) :
    (s.locked).dbgp = s.dbgp := rfl
@[simp] theorem State.locked_dbgq (s : State) :
    (s.locked).dbgq = s.dbgq := rfl
@[simp] theorem State.locked_done (s : State) :
    (s.locked).done = s.done := rfl
@[simp] theorem State.locked_prime (s : State) :
    (s.locked).prime = s.prime := rfl
@[simp] theorem State.locked_buserr (s : State) :
    (s.locked).buserr = true := rfl
@[simp] theorem State.locked_errcode (s : State) :
    (s.locked).errcode = s.errcode := rfl
@[simp] theorem State.locked_sub (s : State) :
    (s.locked).sub = s.sub := rfl
@[simp] theorem State.locked_ie (s : State) :
    (s.locked).ie = s.ie := rfl
@[simp] theorem State.locked_bitlen (s : State) :
    (s.locked).bitlen = s.bitlen := rfl
@[simp] theorem State.locked_minbits (s : State) :
    (s.locked).minbits = s.minbits := rfl
@[simp] theorem State.locked_rounds (s : State) :
    (s.locked).rounds = s.rounds := rfl
@[simp] theorem State.locked_estart (s : State) :
    (s.locked).estart = s.estart := rfl
@[simp] theorem State.locked_attemptcap (s : State) :
    (s.locked).attemptcap = s.attemptcap := rfl
@[simp] theorem State.locked_attempts (s : State) :
    (s.locked).attempts = s.attempts := rfl
@[simp] theorem State.locked_rngcnt (s : State) :
    (s.locked).rngcnt = s.rngcnt := rfl
@[simp] theorem State.locked_engine (s : State) :
    (s.locked).engine = s.engine := rfl
@[simp] theorem State.locked_rng (s : State) :
    (s.locked).rng = s.rng := rfl
@[simp] theorem State.locked_host (s : State) :
    (s.locked).host = s.host := rfl
@[simp] theorem State.locked_rdata (s : State) :
    (s.locked).rdata = s.rdata := rfl

end Sys2Proof.Machine
end

