-- ==== Sys2Proof/Laws/Ops.lean ====
section
/-! SUPPORT. What the shared operations of a command's life do, said once each: acceptance with the latch
(R105, R107), the completions (R303, R304), and a whole command (`runCommand`). Statements about a
meaning cite these and unfold nothing else. -/

namespace Sys2Proof.Machine

/-! ### Acceptance and latch -/

theorem State.accepted_settings (s : State) (i : Instr) : SameSettings s (s.accepted i) := by
  constructor <;> rfl

@[simp] theorem State.accepted_g (s : State) (i : Instr) : (s.accepted i).g = s.g := rfl
@[simp] theorem State.accepted_rng (s : State) (i : Instr) : (s.accepted i).rng = s.rng := rfl
@[simp] theorem State.accepted_rngcnt (s : State) (i : Instr) : (s.accepted i).rngcnt = s.rngcnt := rfl
@[simp] theorem State.accepted_attempts (s : State) (i : Instr) : (s.accepted i).attempts = s.attempts := rfl
@[simp] theorem State.accepted_dbgp (s : State) (i : Instr) : (s.accepted i).dbgp = s.dbgp := rfl
@[simp] theorem State.accepted_dbgq (s : State) (i : Instr) : (s.accepted i).dbgq = s.dbgq := rfl
@[simp] theorem State.accepted_build (s : State) (i : Instr) : (s.accepted i).build = s.build := rfl
@[simp] theorem State.accepted_rounds (s : State) (i : Instr) : (s.accepted i).rounds = s.rounds := rfl
@[simp] theorem State.accepted_bitlen (s : State) (i : Instr) : (s.accepted i).bitlen = s.bitlen := rfl
@[simp] theorem State.accepted_minbits (s : State) (i : Instr) : (s.accepted i).minbits = s.minbits := rfl
@[simp] theorem State.accepted_estart (s : State) (i : Instr) : (s.accepted i).estart = s.estart := rfl
@[simp] theorem State.accepted_attemptcap (s : State) (i : Instr) :
    (s.accepted i).attemptcap = s.attemptcap := rfl
@[simp] theorem State.accepted_phase (s : State) (i : Instr) : (s.accepted i).engine.phase = .exec := rfl
@[simp] theorem State.accepted_cw (s : State) (i : Instr) : (s.accepted i).engine.cw = encode i := rfl

/-- A command starts with nothing counted and the source's next words (R105). -/
@[simp] theorem State.accepted_draws (s : State) (i : Instr) :
    (s.accepted i).draws = { words := s.rng, lrng := 0, latt := 0 } := rfl

theorem State.accepted_busy (s : State) (i : Instr) : (s.accepted i).busy = true := rfl

/-! ### Completions -/

theorem SameSettings.refl (s : State) : SameSettings s s := by constructor <;> rfl

theorem SameSettings.trans {s t u : State} (h : SameSettings s t) (g : SameSettings t u) :
    SameSettings s u := by
  constructor
  · rw [g.build, h.build]
  · rw [g.buserr, h.buserr]
  · rw [g.ie, h.ie]
  · rw [g.bitlen, h.bitlen]
  · rw [g.minbits, h.minbits]
  · rw [g.rounds, h.rounds]
  · rw [g.estart, h.estart]
  · rw [g.attemptcap, h.attemptcap]
  · rw [g.host, h.host]
  · rw [g.rdata, h.rdata]

theorem State.completeOk_settings (s : State) (i : Instr) (c : Commit) :
    SameSettings s (s.completeOk i c) := by
  constructor <;> simp [State.completeOk]

theorem State.completeErr_settings (s : State) (i : Option Instr) (e : Err) :
    SameSettings s (s.completeErr i e) := by
  cases i <;> constructor <;> simp [State.completeErr]

/-- A successful completion after `c` draws (R303). -/
theorem State.completeOk_completed {s : State} {i : Instr} {d : Draws} (k : Commit) {c : Nat}
    (hc : c ≤ s.rng.length) (hw : d.words = s.rng.drop c) (hl : d.lrng = BitVec.ofNat 32 c) :
    Completed s (((s.accepted i).withDraws d).completeOk i k) 0 0 c where
  done := by simp [State.completeOk]
  errcode := by simp [State.completeOk]
  sub := by simp [State.completeOk]
  engine := by simp [State.completeOk]
  drawn := hc
  rng := by simp [State.completeOk, hw]
  rngcnt := by simp [State.completeOk, hl]
  settings := ((s.accepted_settings i).trans (by constructor <;> simp)).trans
    (State.completeOk_settings _ _ _)

/-- A completion with an error after `c` draws (R304). -/
theorem State.completeErr_completed {s : State} {i : Instr} {d : Draws} (e : Err) {c : Nat}
    (hc : c ≤ s.rng.length) (hw : d.words = s.rng.drop c) (hl : d.lrng = BitVec.ofNat 32 c) :
    Completed s (((s.accepted i).withDraws d).completeErr (some i) e) e.code e.subcode c where
  done := by simp [State.completeErr]
  errcode := by simp [State.completeErr]
  sub := by simp [State.completeErr]
  engine := by simp [State.completeErr]
  drawn := hc
  rng := by simp [State.completeErr, hw]
  rngcnt := by cases i <;> simp [State.completeErr, State.failEffects, hl]
  settings := ((s.accepted_settings i).trans (by constructor <;> simp)).trans
    (State.completeErr_settings _ _ _)

/-- No error writes a big register (R22, R304). -/
@[simp] theorem State.completeErr_g (s : State) (i : Option Instr) (e : Err) :
    (s.completeErr i e).g = s.g := by
  cases i <;> simp [State.completeErr]

/-! ### A whole command -/

theorem runCommand_busy {i : Instr} {body : State → Gen Commit} {s : State} (h : s.busy = true) :
    runCommand i body s = .next s.locked := by simp [runCommand, h]

theorem runCommand_idle {i : Instr} {body : State → Gen Commit} {s : State} (h : s.busy = false)
    (hw : i.wellFormed = true) :
    runCommand i body s = .next ((s.accepted i).finish i (body (s.accepted i))) := by
  simp [runCommand, h, hw]

theorem runCommand_overlap {i : Instr} {body : State → Gen Commit} {s : State} (h : s.busy = false)
    (hw : i.wellFormed = false) :
    runCommand i body s = .next ((s.accept (encode i)).completeErr none .destOverlap) := by
  simp [runCommand, h, hw]

/-- The Bool check is the predicate. -/
theorem wellFormed_iff (i : Instr) : i.wellFormed = true ↔ i.WellFormed := by
  cases i <;> simp [Instr.wellFormed, Instr.WellFormed, and_assoc]

/-- The writes a command may commit (R103, R303). -/
def CommitOf : Instr → Commit → Prop
  | .montmul d _ _ _, c | .tomont d _ _, c | .frommont d _ _, c | .modexp d _ _ _, c | .gcd d _ _, c
  | .modinv d _ _, c | .genprime d, c | .encrypt d _ _ _, c | .decrypt d _ _ _, c => ∃ v, c = .big d v
  | .mrtest _, c => ∃ p, c = .verdict p
  | .genkey d b m, c => ∃ n e x p q, c = .key d b m n e x p q
  | .zeroize, c => c = .clear

/-- The errors a command may report (R301). -/
def ErrOf : Instr → Err → Prop
  | .montmul _ _ _ _, e | .tomont _ _ _, e | .frommont _ _ _, e | .encrypt _ _ _ _, e
  | .decrypt _ _ _ _, e => e = .badModulus ∨ e = .operandGeModulus
  | .modexp _ _ _ _, e => e = .badModulus
  | .gcd _ _ _, _ | .zeroize, _ => False
  | .modinv _ _ _, e => e = .badModulus ∨ e = .noInverse
  | .mrtest _, e => e = .rngReject
  | .genprime _, e => e = .bitlenLt2 ∨ e = .bitlenAboveMax ∨ e = .exhausted ∨ e = .rngReject
  | .genkey _ _ _, e => KeyErr e ∨ e = .bitlenBelowMin ∨ e = .bitlenOdd ∨ e = .noE

/-- What a command's computation may be: it counts its draws, is silent only for want of words, commits
only to the command's own destinations, reports only the command's own errors, and draws nothing unless
the command draws (R103, R301). -/
structure GoodBody (i : Instr) (u : State) (x : Gen Commit) : Prop where
  within : ∃ B, x.Within u.draws B (CommitOf i) (ErrOf i)
  still : ¬ Drawing i → x ≠ .silent ∧ (∀ c d, x = .ok c d → d = u.draws) ∧ (∀ e d, x = .err e d → d = u.draws)

/-- A computation without draws is good. -/
theorem result_good {i : Instr} {u : State} {d : Reg} (r : Except Err Nat)
    (h : ∀ v, CommitOf i (.big d v)) (he : ∀ e, r = .error e → ErrOf i e) :
    GoodBody i u (u.result d r) := by
  cases r with
  | ok v => exact ⟨⟨0, .pure (h v)⟩, fun _ => by simp +contextual [State.result]⟩
  | error e => exact ⟨⟨0, .fail (he e rfl)⟩, fun _ => by simp +contextual [State.result]⟩

/-- What the operand checks can report (R137). -/
theorem checkOperands_errors {n : Nat} {xs : List Nat} {e : Err} (h : checkOperands n xs = some e) :
    e = .badModulus ∨ (xs ≠ [] ∧ e = .operandGeModulus) := by
  unfold checkOperands at h
  split_ifs at h with h1 h2
  · exact .inl (Option.some.inj h).symm
  · refine .inr ⟨?_, (Option.some.inj h).symm⟩
    rintro rfl
    simp at h2

theorem guarded_error {c : Option Err} {v : Nat} {e : Err} (h : guarded c v = .error e) : c = some e := by
  cases c with
  | none => cases h
  | some x => cases h; rfl

theorem guarded_errors {n : Nat} {xs : List Nat} {v : Nat} {e : Err}
    (h : guarded (checkOperands n xs) v = .error e) : e = .badModulus ∨ e = .operandGeModulus :=
  (checkOperands_errors (guarded_error h)).imp_right And.right

theorem inverseOrError_errors {x m : Nat} {e : Err} (h : inverseOrError x m = .error e) :
    e = .badModulus ∨ e = .noInverse := by
  unfold inverseOrError at h
  split at h
  · cases h; exact .inl rfl
  · split at h
    · cases h
    · cases h; exact .inr rfl

/-- Steps 3 to 6 of GENKEY draw nothing (R248 to R253), and NO_INVERSE cannot happen (R251). -/
theorem keyFromPrimes_within (rd rb rm : Reg) (estart p q : Nat) (d : Draws) :
    (keyFromPrimes rd rb rm estart p q d).Within d 0 (CommitOf (.genkey rd rb rm))
      (ErrOf (.genkey rd rb rm)) := by
  unfold keyFromPrimes
  simp only
  split
  · exact .fail (by simp [ErrOf])
  · rename_i e he
    obtain ⟨v, hv⟩ := modInv_isSome (findE_spec _ _ _ he).2.2.1
    rw [hv]
    exact .pure ⟨_, _, _, _, _, rfl⟩

/-- The length checks of GENKEY (R242). -/
theorem checkKeyLength_errors {b : Build} {m : BitVec 16} {len : Int} {e : Err}
    (h : checkKeyLength b m len = some e) :
    e = .bitlenBelowMin ∨ e = .bitlenAboveMax ∨ e = .bitlenOdd := by
  unfold checkKeyLength at h
  split_ifs at h <;> cases h <;> simp

/-- What exec does with a command: one `runCommand` of a good computation. -/
def IsRun (i : Instr) (s : State) : Prop :=
  ∃ body : State → Gen Commit, exec i s = runCommand i body s ∧ ∀ u, GoodBody i u (body u)

theorem isRun_montmul (d a b m : Reg) (s : State) : IsRun (.montmul d a b m) s :=
  ⟨_, execMontmul.eq_def d a b m s, fun _ => result_good _ (fun v => ⟨v, rfl⟩) fun _ => guarded_errors⟩

theorem isRun_tomont (d a m : Reg) (s : State) : IsRun (.tomont d a m) s :=
  ⟨_, execTomont.eq_def d a m s, fun _ => result_good _ (fun v => ⟨v, rfl⟩) fun _ => guarded_errors⟩

theorem isRun_frommont (d a m : Reg) (s : State) : IsRun (.frommont d a m) s :=
  ⟨_, execFrommont.eq_def d a m s, fun _ => result_good _ (fun v => ⟨v, rfl⟩) fun _ => guarded_errors⟩

theorem isRun_modexp (d a b m : Reg) (s : State) : IsRun (.modexp d a b m) s :=
  ⟨_, execModexp.eq_def d a b m s, fun _ => result_good _ (fun v => ⟨v, rfl⟩) fun _ h =>
    (checkOperands_errors (guarded_error h)).resolve_right fun h => h.1 rfl⟩

theorem isRun_gcd (d a b : Reg) (s : State) : IsRun (.gcd d a b) s :=
  ⟨_, execGcd.eq_def d a b s, fun _ => result_good _ (fun v => ⟨v, rfl⟩) fun _ h => by cases h⟩

theorem isRun_modinv (d a m : Reg) (s : State) : IsRun (.modinv d a m) s :=
  ⟨_, execModinv.eq_def d a m s, fun _ => result_good _ (fun v => ⟨v, rfl⟩) fun _ => inverseOrError_errors⟩

theorem isRun_encrypt (d a b m : Reg) (s : State) : IsRun (.encrypt d a b m) s :=
  ⟨_, execEncrypt.eq_def d a b m s, fun _ => result_good _ (fun v => ⟨v, rfl⟩) fun _ => guarded_errors⟩

theorem isRun_decrypt (d a b m : Reg) (s : State) : IsRun (.decrypt d a b m) s :=
  ⟨_, execDecrypt.eq_def d a b m s, fun _ => result_good _ (fun v => ⟨v, rfl⟩) fun _ => guarded_errors⟩

theorem isRun_zeroize (s : State) : IsRun .zeroize s := by
  refine ⟨_, execZeroize.eq_def s, fun u => ⟨⟨0, .pure rfl⟩, fun _ => ⟨by simp, ?_, by simp⟩⟩⟩
  intro c d h
  cases h
  rfl

theorem isRun_mrtest (a : Reg) (s : State) : IsRun (.mrtest a) s := by
  refine ⟨_, execMrtest.eq_def a s, fun u => ⟨?_, fun h => absurd trivial h⟩⟩
  exact ⟨_, (millerRabin_within _ _ _).andThen (B2 := 0) fun v d _ => .pure ⟨v, rfl⟩⟩

theorem isRun_genprime (r : Reg) (s : State) : IsRun (.genprime r) s := by
  refine ⟨_, execGenprime.eq_def r s, fun u => ⟨?_, fun h => absurd trivial h⟩⟩
  exact ⟨_, (generatePrime_within _ _ _).andThen (B2 := 0) fun v d _ => .pure ⟨v, rfl⟩⟩

theorem isRun_genkey (d b m : Reg) (s : State) : IsRun (.genkey d b m) s := by
  refine ⟨_, execGenkey.eq_def d b m s, fun u => ⟨?_, fun h => absurd trivial h⟩⟩
  cases h : checkKeyLength u.build u.minbits (sext32 u.bitlen) with
  | some e =>
    refine ⟨0, .fail ?_⟩
    rcases checkKeyLength_errors h with rfl | rfl | rfl <;> simp [ErrOf, KeyErr]
  | none =>
    exact ⟨_, ((keyPrimes_within u _ _ none _ (by simp)).weaken (le_refl _) (fun _ h => h)
      (fun _ h => .inl h)).andThen (B2 := 0) fun pq d' _ => keyFromPrimes_within _ _ _ _ _ _ _⟩

/-- Every command is one `runCommand` of a good computation: the one inversion lemma of `exec`. -/
theorem exec_cases (i : Instr) (s : State) :
    ∃ body : State → Gen Commit, exec i s = runCommand i body s ∧ ∀ u, GoodBody i u (body u) := by
  cases i
  · exact isRun_montmul _ _ _ _ s
  · exact isRun_tomont _ _ _ s
  · exact isRun_frommont _ _ _ s
  · exact isRun_modexp _ _ _ _ s
  · exact isRun_gcd _ _ _ s
  · exact isRun_modinv _ _ _ s
  · exact isRun_mrtest _ s
  · exact isRun_genprime _ s
  · exact isRun_genkey _ _ _ s
  · exact isRun_encrypt _ _ _ _ s
  · exact isRun_decrypt _ _ _ _ s
  · exact isRun_zeroize s

/-- Every command answers a next state (R355 says only that it may still be running). -/
theorem exec_next (i : Instr) (s : State) : ∃ t, exec i s = .next t := by
  obtain ⟨body, h, -⟩ := exec_cases i s
  rw [h]
  unfold runCommand
  split
  · exact ⟨_, rfl⟩
  · split <;> exact ⟨_, rfl⟩

/-- The draws `d` are those of `s` after `n` words, each counted from 0 (R47, R105). -/
structure Spent (s : State) (d : Draws) (n : Nat) : Prop where
  within : n ≤ s.rng.length
  words : d.words = s.rng.drop n
  lrng : d.lrng = BitVec.ofNat 32 n

/-- Everything a command issued to an idle engine can do: fail GENKEY's overlap check, complete with a
commit of its own, complete with an error of its own, or wait on a silent port. -/
theorem exec_inversion {i : Instr} {s t : State} (hidle : s.busy = false) (h : exec i s = .next t) :
    (i.wellFormed = false ∧ t = (s.accept (encode i)).completeErr none .destOverlap) ∨
    (i.wellFormed = true ∧ ∃ c d n, CommitOf i c ∧ Spent s d n ∧ (¬Drawing i → n = 0) ∧
      t = ((s.accepted i).withDraws d).completeOk i c) ∨
    (i.wellFormed = true ∧ ∃ e d n, ErrOf i e ∧ Spent s d n ∧ (¬Drawing i → n = 0) ∧
      t = ((s.accepted i).withDraws d).completeErr (some i) e) ∨
    (i.wellFormed = true ∧ Drawing i ∧ t = s.accepted i) := by
  obtain ⟨body, hrun, hgood⟩ := exec_cases i s
  rw [hrun] at h
  cases hw : i.wellFormed with
  | false =>
    rw [runCommand_overlap hidle hw] at h
    exact .inl ⟨rfl, (Host.Outcome.next.inj h).symm⟩
  | true =>
    rw [runCommand_idle hidle hw] at h
    have ht := (Host.Outcome.next.inj h).symm
    obtain ⟨⟨B, hin⟩, hstill⟩ := hgood (s.accepted i)
    refine .inr ?_
    generalize body (s.accepted i) = x at hin hstill ht
    have zero : ∀ d : Draws, d = (s.accepted i).draws → Spent s d 0 := by
      rintro _ rfl
      exact ⟨Nat.zero_le _, rfl, rfl⟩
    have count : ∀ {d : Draws} {n : Nat}, n ≤ B ∧ n ≤ (s.accepted i).draws.words.length ∧
        d.words = (s.accepted i).draws.words.drop n ∧
        d.lrng = (s.accepted i).draws.lrng + BitVec.ofNat 32 n → Spent s d n := by
      rintro d n ⟨-, h2, h3, h4⟩
      exact ⟨h2, h3, h4.trans (BitVec.zero_add _)⟩
    cases x with
    | silent =>
      refine .inr (.inr ⟨rfl, ?_, ht⟩)
      by_contra hd
      exact (hstill hd).1 rfl
    | ok c d =>
      obtain ⟨hc, n, hn⟩ := hin
      refine .inl ⟨rfl, c, d, ?_⟩
      by_cases hd : Drawing i
      · exact ⟨n, hc, count hn, fun h => absurd hd h, ht⟩
      · exact ⟨0, hc, zero d ((hstill hd).2.1 c d rfl), fun _ => rfl, ht⟩
    | err e d =>
      obtain ⟨he, n, hn⟩ := hin
      refine .inr (.inl ⟨rfl, e, d, ?_⟩)
      by_cases hd : Drawing i
      · exact ⟨n, he, count hn, fun h => absurd hd h, ht⟩
      · exact ⟨0, he, zero d ((hstill hd).2.2 e d rfl), fun _ => rfl, ht⟩

/-! ### Commands that draw nothing -/

/-- A command whose latch and completions touch none of `PRIME`, `ATTEMPTS`, `DBGP`, `DBGQ`. -/
structure Plain (i : Instr) : Prop where
  wf : i.wellFormed = true
  latch : ∀ s : State, (s.latch i).prime = s.prime
  count : ∀ s : State, s.countAttempts i = s
  fail : ∀ s : State, s.failEffects i = s

theorem plain_montmul (d a b m : Reg) : Plain (.montmul d a b m) := ⟨rfl, fun _ => rfl, fun _ => rfl, fun _ => rfl⟩
theorem plain_tomont (d a m : Reg) : Plain (.tomont d a m) := ⟨rfl, fun _ => rfl, fun _ => rfl, fun _ => rfl⟩
theorem plain_frommont (d a m : Reg) : Plain (.frommont d a m) := ⟨rfl, fun _ => rfl, fun _ => rfl, fun _ => rfl⟩
theorem plain_modexp (d a b m : Reg) : Plain (.modexp d a b m) := ⟨rfl, fun _ => rfl, fun _ => rfl, fun _ => rfl⟩
theorem plain_gcd (d a b : Reg) : Plain (.gcd d a b) := ⟨rfl, fun _ => rfl, fun _ => rfl, fun _ => rfl⟩
theorem plain_modinv (d a m : Reg) : Plain (.modinv d a m) := ⟨rfl, fun _ => rfl, fun _ => rfl, fun _ => rfl⟩
theorem plain_encrypt (d a b m : Reg) : Plain (.encrypt d a b m) := ⟨rfl, fun _ => rfl, fun _ => rfl, fun _ => rfl⟩
theorem plain_decrypt (d a b m : Reg) : Plain (.decrypt d a b m) := ⟨rfl, fun _ => rfl, fun _ => rfl, fun _ => rfl⟩

/-- A plain command whose computation answers `v` delivers it: the whole effect and frame. -/
theorem runCommand_delivers {i : Instr} {body : State → Gen Commit} {s : State} {d : Reg} {v : Nat}
    (hp : Plain i) (hidle : s.busy = false) (hv : v < 2 ^ s.build.maxBits)
    (hbody : body (s.accepted i) = (s.accepted i).result d (.ok v)) :
    ∃ t, runCommand i body s = .next t ∧ Delivered s t d v := by
  refine ⟨_, runCommand_idle hidle hp.wf, ?_⟩
  rw [hbody]
  simp only [State.result, State.finish]
  have hspec : ∀ u : State, u.completeOk i (.big d v) = (u.writeG d v).complete 0 0 := fun u => by
    rw [State.completeOk, hp.count]
    rfl
  refine ⟨State.completeOk_completed _ (Nat.zero_le _) (by simp) (by simp), ?_, ?_, ?_, ?_, ?_, ?_⟩
  · rw [hspec, State.readG_congr (State.complete_g _ _ _), State.readG_writeG_fits _ _ _ (by simpa using hv)]
  · intro r hr
    rw [hspec, State.readG_congr (State.complete_g _ _ _), State.readG_writeG_other _ _ hr]
    rfl
  · rw [hspec]; simp
  · rw [hspec]; simp
  · rw [hspec]; simp
  · rw [hspec]
    simpa [State.accepted] using hp.latch (s.accept (encode i))

/-- A plain command whose computation reports an error fails with it and changes nothing else. -/
theorem runCommand_fails {i : Instr} {body : State → Gen Commit} {s : State} {d : Reg} {e : Err}
    (hp : Plain i) (hidle : s.busy = false)
    (hbody : body (s.accepted i) = (s.accepted i).result d (.error e)) :
    ∃ t, runCommand i body s = .next t ∧ Failed s t e := by
  refine ⟨_, runCommand_idle hidle hp.wf, ?_⟩
  rw [hbody]
  simp only [State.result, State.finish]
  refine ⟨State.completeErr_completed _ (Nat.zero_le _) (by simp) (by simp), by simp, ?_, ?_, ?_, ?_⟩
  · simp [State.completeErr, hp.fail]
  · simp [State.completeErr, hp.fail]
  · simp [State.completeErr, hp.fail]
  · simpa [State.completeErr, hp.fail, State.accepted] using hp.latch (s.accept (encode i))

end Sys2Proof.Machine
end

