-- ==== Sys2Proof/Laws/Sequencer.lean ====
section
/-! SUPPORT. What one transition of the sequencer can do: the block laws, and the one inversion lemma
`tick_cases`. -/

namespace Sys2Proof.Machine

/-- Phases in which a command executes and no event of the top level is due. -/
def Phase.runs : Phase → Bool
  | .idle | .decode | .latch | .zero => false
  | _ => true

/-- A transition inside a running command: the command word and the draw count stay, and the engine is
not back at the top level. -/
structure Engine.Onward (e e' : Engine) : Prop where
  cw : e'.cw = e.cw
  lrng : e'.lrng = e.lrng
  runs : e'.phase.runs = true

theorem Engine.Onward.trans {a b c : Engine} (h : a.Onward b) (g : b.Onward c) : a.Onward c :=
  ⟨g.cw.trans h.cw, g.lrng.trans h.lrng, g.runs⟩

/-- Every way a block starts, ends, reports or retries is such a transition. -/
theorem startMul_on (e : Engine) (a b n c) : e.Onward (e.startMul a b n c) := ⟨rfl, rfl, rfl⟩
theorem startPre_on (e : Engine) (n c) : e.Onward (e.startPre n c) := ⟨rfl, rfl, rfl⟩
theorem report_on (e : Engine) (x) : e.Onward (e.report x) := ⟨rfl, rfl, rfl⟩
theorem writeback_on (e : Engine) (v) : e.Onward (e.writeback v) := ⟨rfl, rfl, rfl⟩
theorem preDone_on (e : Engine) : e.Onward e.preDone := by
  unfold Engine.preDone; cases e.preFor <;> exact ⟨rfl, rfl, rfl⟩
theorem expDone_on (e : Engine) (y) : e.Onward (e.expDone y) := by
  unfold Engine.expDone; cases e.expFor <;> exact ⟨rfl, rfl, rfl⟩
theorem mulDone_on (e : Engine) (u) : e.Onward (e.mulDone u) := by
  unfold Engine.mulDone; cases e.mulFor <;> first
    | exact ⟨rfl, rfl, rfl⟩
    | exact expDone_on e u
    | (refine ⟨rfl, rfl, ?_⟩; simp only; split <;> rfl)
theorem rejectE_on (e : Engine) : e.Onward e.rejectE := by
  unfold Engine.rejectE; split <;> exact ⟨rfl, rfl, rfl⟩
theorem euclidDone_on (e : Engine) (g v) : e.Onward (e.euclidDone g v) := by
  unfold Engine.euclidDone; cases e.euclFor <;> simp only <;> (try split) <;> first
    | exact ⟨rfl, rfl, rfl⟩
    | exact rejectE_on e
theorem genDone_on (e : Engine) : e.Onward e.genDone := by
  unfold Engine.genDone; cases e.genFor <;> exact ⟨rfl, rfl, rfl⟩
theorem testDone_on (e : Engine) (v) : e.Onward (e.testDone v) := by
  unfold Engine.testDone; cases e.testFor <;> simp only <;> (try split) <;> first
    | exact ⟨rfl, rfl, rfl⟩
    | exact genDone_on e
theorem retry_on (e : Engine) (p) (hp : p.runs = true) : e.Onward (e.retry p) := by
  unfold Engine.retry; split <;> first | exact ⟨rfl, rfl, rfl⟩ | exact ⟨rfl, rfl, hp⟩
theorem startCommand_on (e : Engine) (w i) : e.Onward (e.startCommand w i) := by
  unfold Engine.startCommand; cases i <;> simp only <;> (try split) <;> exact ⟨rfl, rfl, rfl⟩

theorem tickMul_on (e : Engine) (h : e.phase.runs = true) : e.Onward e.tickMul := by
  unfold Engine.tickMul
  split
  · exact ⟨rfl, rfl, rfl⟩
  · obtain ⟨a, b, c⟩ := preDone_on { e with r2 := radixSquared e.mn e.s }; exact ⟨a, b, c⟩
  · exact ⟨rfl, rfl, rfl⟩
  · exact ⟨rfl, rfl, rfl⟩
  · refine ⟨rfl, rfl, ?_⟩; simp only; split <;> rfl
  · exact mulDone_on _ _
  · exact ⟨rfl, rfl, h⟩

theorem tickExp_on (e : Engine) (h : e.phase.runs = true) : e.Onward e.tickExp := by
  unfold Engine.tickExp
  split <;> (try split) <;> first | exact ⟨rfl, rfl, rfl⟩ | exact ⟨rfl, rfl, h⟩

theorem tickEuclid_on (e : Engine) (h : e.phase.runs = true) : e.Onward e.tickEuclid := by
  unfold Engine.tickEuclid
  split
  · split <;> exact ⟨rfl, rfl, rfl⟩
  · refine ⟨rfl, rfl, ?_⟩; simp only; split <;> rfl
  · exact ⟨rfl, rfl, rfl⟩
  · split <;> exact ⟨rfl, rfl, rfl⟩
  · exact euclidDone_on _ _ _
  · exact ⟨rfl, rfl, h⟩

theorem tickTest_on (e : Engine) (r) (h : e.phase.runs = true) : e.Onward (e.tickTest r) := by
  unfold Engine.tickTest
  split
  · split
    · exact testDone_on _ _
    · split
      · exact testDone_on _ _
      · split
        · exact testDone_on _ _
        · exact ⟨rfl, rfl, rfl⟩
  · exact ⟨rfl, rfl, rfl⟩
  · split
    · exact testDone_on _ _
    · exact ⟨rfl, rfl, rfl⟩
  · split
    · exact ⟨rfl, rfl, rfl⟩
    · split <;> exact ⟨rfl, rfl, rfl⟩
  · exact ⟨rfl, rfl, rfl⟩
  · split <;> exact ⟨rfl, rfl, rfl⟩
  · split
    · exact testDone_on _ _
    · exact ⟨rfl, rfl, rfl⟩
  · split
    · exact ⟨rfl, rfl, rfl⟩
    · split
      · exact testDone_on _ _
      · exact ⟨rfl, rfl, rfl⟩
  · exact ⟨rfl, rfl, h⟩

theorem tickGen_on (e : Engine) (b c) (h : e.phase.runs = true) : e.Onward (e.tickGen b c) := by
  unfold Engine.tickGen
  split <;> (try split) <;> first | exact ⟨rfl, rfl, rfl⟩ | exact ⟨rfl, rfl, h⟩

theorem tickKey_on (e : Engine) (b m l es) (h : e.phase.runs = true) : e.Onward (e.tickKey b m l es) := by
  unfold Engine.tickKey
  simp only
  split <;> (try split) <;> (try split) <;> first
    | exact ⟨rfl, rfl, rfl⟩ | exact ⟨rfl, rfl, h⟩ | exact retry_on _ _ rfl | exact rejectE_on _
    | (obtain ⟨a, b, c⟩ := retry_on { e with kn := e.kp * e.kq } .kgP rfl; exact ⟨a, b, c⟩)

/-- What a transition of a running engine can do. -/
inductive Tick (s : State) : State → Prop where
  | inside (e' : Engine) : s.engine.Onward e' → Tick s { s with engine := e' }
  | waits : s.rngReq = true → s.rng = [] → Tick s s
  | draws (w : Word) (ws : List Word) (e' : Engine) : s.rngReq = true → s.rng = w :: ws → e'.cw = s.engine.cw →
      e'.lrng = s.engine.lrng + 1 → e'.phase.runs = true → Tick s { s with rng := ws, engine := e' }
  | succeeds (i : Instr) : s.engine.phase = .writeback → commandOf s.engine.cw = some i → Tick s (s.completeOk i (s.engine.results i))
  | fails (x : Err) : s.engine.phase = .fail x → Tick s (s.completeErr (commandOf s.engine.cw) x)

/-- The transition of a running engine, by what it does; only a drawing state touches the source. -/
theorem tick_cases {s : State} (hi : s.Inv) (hb : s.busy = true) : Tick s s.tick ∧ (s.rngReq = false → s.tick.rng = s.rng) := by
  have hset := hi.settled
  have hcmd := hi.decoded hb
  unfold State.tick
  cases hp : s.engine.phase
  case idle => simp [State.busy, hp] at hb
  case decode => simp [hp] at hset
  case latch => simp [hp] at hset
  case zero => simp [hp] at hset
  case fail x =>
    simp only
    have := Tick.fails x hp
    refine ⟨this, fun _ => ?_⟩
    unfold State.completeErr; split <;> simp
  case writeback =>
    obtain ⟨i, hc⟩ := hcmd (by simp [hp])
    simp only [State.tickWriteback, hc]
    exact ⟨.succeeds i hp hc, fun _ => by simp [State.completeOk]⟩
  case exec =>
    obtain ⟨i, hc⟩ := hcmd (by simp [hp])
    simp only [State.tickExec, hc]
    exact ⟨.inside _ (startCommand_on _ _ _), fun _ => by trivial⟩
  case mrDraw =>
    simp only [State.tickTestDraw]
    refine ⟨?_, fun h => by simp [State.rngReq, hp] at h⟩
    have hr : s.rngReq = true := by simp [State.rngReq, hp]
    cases hrng : s.rng with
    | nil => simp only [takeWord]; exact .waits hr hrng
    | cons w ws =>
      simp only [takeWord, List.tail_cons]
      split
      · exact .waits hr (by simp_all)
      · refine .draws w ws _ hr hrng rfl rfl rfl
      · refine .draws w ws _ hr hrng rfl rfl (by simp [hp, Phase.runs])
  case pgDraw =>
    simp only [State.tickGenDraw]
    refine ⟨?_, fun h => by simp [State.rngReq, hp] at h⟩
    have hr : s.rngReq = true := by simp [State.rngReq, hp]
    cases hrng : s.rng with
    | nil => simp only [takeWord]; exact .waits hr hrng
    | cons w ws =>
      simp only [takeWord, List.tail_cons]
      split
      · exact .waits hr (by simp_all)
      · refine .draws w ws _ hr hrng rfl rfl rfl
      · refine .draws w ws _ hr hrng rfl rfl (by simp [hp, Phase.runs])
  all_goals
    simp only
    refine ⟨.inside _ ?_, fun _ => by trivial⟩
    first
    | exact tickMul_on _ (by rw [hp]; rfl)
    | exact tickExp_on _ (by rw [hp]; rfl)
    | exact tickEuclid_on _ (by rw [hp]; rfl)
    | exact tickTest_on _ _ (by rw [hp]; rfl)
    | exact tickGen_on _ _ _ (by rw [hp]; rfl)
    | exact tickKey_on _ _ _ _ _ (by rw [hp]; rfl)
end Sys2Proof.Machine
end

