-- ==== Sys2Proof/Laws/Blocks.lean ====
section
/-! SUPPORT. The sub-blocks of the sequencer as blocks: where a started MPRE, MMUL, MEXP, XGCD or draw ends,
    and what
it leaves (R138, R163, R184, R210, R226). -/

namespace Sys2Proof.Machine

/-- The sequencer gets from `s` to `t`. -/
def Runs (s t : State) : Prop := ∃ k, State.ticks k s = t

/-- Transitions add up. -/
theorem ticks_add : ∀ (a b : Nat) (s : State), State.ticks (a + b) s = State.ticks b (State.ticks a s)
  | 0, b, s => by rw [Nat.zero_add]; rfl
  | a + 1, b, s => by rw [Nat.succ_add, State.ticks, ticks_add a b, State.ticks]

theorem Runs.refl (s : State) : Runs s s := ⟨0, rfl⟩
theorem Runs.trans {s t u : State} : Runs s t → Runs t u → Runs s u
  | ⟨a, ha⟩, ⟨b, hb⟩ => ⟨a + b, by rw [ticks_add, ha, hb]⟩
theorem Runs.step {s t u : State} (h : s.tick = t) (g : Runs t u) : Runs s u := Runs.trans ⟨1, h⟩ g

/-- `s` with the engine `e`. -/
abbrev State.on (s : State) (e : Engine) : State := { s with engine := e }

/-- The outer passes of `MMUL` (R134, R138). -/
theorem mul_loop (s : State) (e : Engine) : ∀ k i T j, i + (k + 1) = e.s →
    ∃ j', Runs (s.on { e with t := T, mi := i, mj := j, phase := .mmMul })
      (s.on { e with t := mulPasses e.ma e.mb e.mn e.s e.np (k + 1) i T, mi := e.s, mj := j', phase := .mmSub }) := by
  intro k
  induction k with
  | zero =>
    intro i T j h
    refine ⟨e.s, .step (t := s.on
        { e with t := mulHalf e.ma e.mb e.s i T, mi := i, mj := e.s, phase := .mmRed }) rfl
        (.step (t := s.on
        { e with t := mulPasses e.ma e.mb e.mn e.s e.np 1 i T, mi := e.s, mj := e.s, phase := .mmSub }) ?_
        (.refl _))⟩
    show s.on
        { e with t := redHalf e.mn e.s e.np (mulHalf e.ma e.mb e.s i T), mi := i + 1, mj := e.s, phase := if i + 1 < e.s then .mmMul else .mmSub } = _
    rw [if_neg (by omega), show i + 1 = e.s by omega]
    rfl
  | succ k ih =>
    intro i T j h
    obtain ⟨j', hr⟩ := ih (i + 1) (redHalf e.mn e.s e.np (mulHalf e.ma e.mb e.s i T)) e.s (by omega)
    refine ⟨j', .step (t := s.on { e with t := mulHalf e.ma e.mb e.s i T, mi := i, mj := e.s, phase := .mmRed }) rfl
        (.step ?_ hr)⟩
    show s.on
        { e with t := redHalf e.mn e.s e.np (mulHalf e.ma e.mb e.s i T), mi := i + 1, mj := e.s, phase := if i + 1 < e.s then .mmMul else .mmSub } = _
    rw [if_pos (by omega)]

/-- `MMUL` as a block. -/
theorem mul_block (s : State) (e : Engine) (a b n : Nat) (c : MulCaller) (hnp : e.np = negInverse n)
    (hs : e.s = limbs n) :
    ∃ T j, Runs (s.on (e.startMul a b n c))
      (s.on (Engine.mulDone
          { e with ma := a, mb := b, mn := n, mulFor := c, t := T, mi := e.s, mj := j, phase := .mmSub }
          (mulLimbwise a b n))) := by
  have h1 := one_le_limbs n
  obtain ⟨k, hk⟩ : ∃ k, e.s = k + 1 := ⟨e.s - 1, by omega⟩
  obtain ⟨j', hr⟩ := mul_loop s (e.startMul a b n c) k 0 0 0 (by show 0 + (k + 1) = e.s; omega)
  refine ⟨mulPasses a b n e.s e.np (k + 1) 0 0, j', .step
      (t := s.on { (e.startMul a b n c) with t := 0, mi := 0, mj := 0, phase := .mmMul }) rfl
      (hr.trans (.step ?_ (.refl _)))⟩
  show s.on (Engine.mulDone _ (mulResult n e.s (mulPasses a b n e.s e.np (k + 1) 0 0))) = _
  rw [show mulResult n e.s (mulPasses a b n e.s e.np (k + 1) 0 0) = mulLimbwise a b n by rw [← hk, hnp, hs]; rfl]
  rfl

/-- `MPRE` as a block. -/
theorem pre_block (s : State) (e : Engine) (n : Nat) (c : PreCaller) : Runs (s.on (e.startPre n c))
    (s.on (Engine.preDone
        { e with mn := n, preFor := c, np := negInverse n, s := limbs n, r2 := radixSquared n (limbs n), phase := .mpR2 })) :=
  ⟨2, rfl⟩

/-- What `MEXP` uses and leaves. -/
structure ExpScratch where
  mn : Nat
  ma : Nat
  mb : Nat
  t : Nat
  mi : Nat
  mj : Nat
  one : Nat
  bm : Nat
  x : Nat
  ei : Nat
  mulFor : MulCaller
  phase : Phase

/-- The engine `e` after `MEXP` with modulus `n` for `c`. -/
abbrev Engine.putExp (e : Engine) (n : Nat) (c : ExpCaller) (z : ExpScratch) : Engine :=
  { e with
    expFor := c, preFor := .exponentiator, np := negInverse n, s := limbs n, r2 := radixSquared n (limbs n)
    mn := z.mn, ma := z.ma, mb := z.mb, t := z.t, mi := z.mi, mj := z.mj, one := z.one, bm := z.bm, x := z.x, ei :=
        z.ei, mulFor := z.mulFor, phase := z.phase }

/-- The scan of `MEXP` (R161, R163). -/
theorem exp_loop (s : State) (e : Engine) (c : ExpCaller) (n E bm : Nat) (hn : ∀ z, (e.putExp n c z).expModulus = n)
    (hE : ∀ z, (e.putExp n c z).expExponent = E) :
    ∀ k x (z : ExpScratch), ∃ z' : ExpScratch, Runs (s.on
        (e.putExp n c { z with x := x, bm := bm, ei := k, phase := .meNext }))
      (s.on (e.putExp n c { z' with x := montScan bm E n k x, bm := bm, phase := .meOut })) := by
  intro k
  induction k with
  | zero => intro x z; exact ⟨{ z with ei := 0 }, ⟨1, rfl⟩⟩
  | succ k ih =>
    intro x z
    have e1 := hn { z with x := x, bm := bm, ei := k, phase := .meSqr }
    obtain ⟨T, j, hm⟩ := mul_block s (e.putExp n c
        { z with x := x, bm := bm, ei := k, phase := .meSqr }) x x n .meSqr rfl rfl
    have step1 : (s.on (e.putExp n c { z with x := x, bm := bm, ei := k + 1, phase := .meNext })).tick = s.on
        (e.putExp n c { z with x := x, bm := bm, ei := k, phase := .meSqr }) := by
      generalize hz : ({ z with x := x, bm := bm, ei := k + 1, phase := .meNext } : ExpScratch) = z9
      have g1 : z9.phase = .meNext := by rw [← hz]
      have g2 : z9.ei = k + 1 := by rw [← hz]
      have g3 : (s.on (e.putExp n c z9)).tick = s.on (if z9.ei = 0 then
          { (e.putExp n c z9) with phase := .meOut } else
          { (e.putExp n c z9) with ei := z9.ei - 1, phase := .meSqr }) := by
        unfold State.tick Engine.tickExp
        simp only [g1]
      rw [g3, if_neg (by omega), g2, ← hz]; rfl
    have step2 : (s.on (e.putExp n c { z with x := x, bm := bm, ei := k, phase := .meSqr })).tick = s.on
        ((e.putExp n c { z with x := x, bm := bm, ei := k, phase := .meSqr }).startMul x x n .meSqr) := by
      show s.on (Engine.startMul _ x x (Engine.expModulus _) .meSqr) = _
      rw [e1]
    have sqr : Runs (s.on (e.putExp n c { z with x := x, bm := bm, ei := k + 1, phase := .meNext }))
        (s.on (e.putExp n c
            { z with ma := x, mb := x, mn := n, mulFor := .meSqr, t := T, mi := limbs n, mj := j, x := mulLimbwise x x n, bm := bm, ei := k, phase := if E.testBit k then .meMul else .meNext })) := by
      refine .step step1 (.step step2 (hm.trans ⟨0, ?_⟩))
      show s.on
          { (e.putExp n c { z with ma := x, mb := x, mn := n, mulFor := .meSqr, t := T, mi := limbs n, mj := j, x := mulLimbwise x x n, bm := bm, ei := k, phase := .mmSub }) with phase := (if (Engine.expExponent (e.putExp n c { z with ma := x, mb := x, mn := n, mulFor := .meSqr, t := T, mi := limbs n, mj := j, x := x, bm := bm, ei := k, phase := .mmSub })).testBit k then .meMul else .meNext) } = _
      rw [hE]
    simp only [montScan]
    cases hb : E.testBit k with
    | false =>
      rw [hb] at sqr
      obtain ⟨z', h⟩ := ih (mulLimbwise x x n)
          { z with ma := x, mb := x, mn := n, mulFor := .meSqr, t := T, mi := limbs n, mj := j }
      exact ⟨z', sqr.trans h⟩
    | true =>
      rw [hb] at sqr
      generalize hz : ({ z with ma := x, mb := x, mn := n, mulFor := .meSqr, t := T, mi := limbs n, mj := j } :
          ExpScratch) = z2
      have sqr2 : Runs (s.on (e.putExp n c { z with x := x, bm := bm, ei := k + 1, phase := .meNext }))
        (s.on (e.putExp n c
            { z2 with x := mulLimbwise x x n, bm := bm, ei := k, phase := .meMul })) := by subst hz; exact sqr
      obtain ⟨T2, j2, hm2⟩ := mul_block s (e.putExp n c
          { z2 with x := mulLimbwise x x n, bm := bm, ei := k, phase := .meMul })
          (mulLimbwise x x n) bm n .meMul rfl rfl
      have step3 : (s.on (e.putExp n c
          { z2 with x := mulLimbwise x x n, bm := bm, ei := k, phase := .meMul })).tick =
          s.on ((e.putExp n c { z2 with x := mulLimbwise x x n, bm := bm, ei := k, phase := .meMul }).startMul
              (mulLimbwise x x n) bm n .meMul) := by
        show s.on (Engine.startMul _ _ _ (Engine.expModulus _) .meMul) = _
        rw [hn]
      obtain ⟨z', h⟩ := ih (mulLimbwise (mulLimbwise x x n) bm n)
          { z2 with ma := mulLimbwise x x n, mb := bm, mn := n, mulFor := .meMul, t := T2, mi := limbs n, mj := j2 }
      exact ⟨z', sqr2.trans (.step step3 (hm2.trans h))⟩

/-- `MEXP` as a block. -/
theorem exp_block (s : State) (e : Engine) (c : ExpCaller) (n E b : Nat) (hn : ∀ z, (e.putExp n c z).expModulus = n)
    (hE : ∀ z, (e.putExp n c z).expExponent = E)
    (hb : ∀ z, (e.putExp n c z).expBase = b) (hn' : (e.startExp c).expModulus = n) :
    ∃ z, Runs (s.on (e.startExp c)) (s.on ((e.putExp n c z).expDone (expMontgomery b E n))) := by
  have h1 : ∃ z : ExpScratch, Runs (s.on (e.startExp c)) (s.on (e.putExp n c { z with phase := .meOne })) := by
    refine ⟨⟨n, e.ma, e.mb, e.t, e.mi, e.mj, e.one, e.bm, e.x, e.ei, e.mulFor, .meOne⟩, ?_⟩
    refine .step (t := s.on ((e.startExp c).startPre n .exponentiator)) ?_
        ((pre_block s _ n .exponentiator).trans (.refl _))
    show s.on (Engine.startPre _ (Engine.expModulus _) .exponentiator) = _
    rw [show Engine.expModulus _ = n from hn']
  obtain ⟨z1, h1⟩ := h1
  have h2 : ∃ z : ExpScratch, Runs (s.on (e.putExp n c { z1 with phase := .meOne }))
      (s.on (e.putExp n c { z with one := mulLimbwise 1 (radixSquared n (limbs n)) n, phase := .meBase })) := by
    obtain ⟨T, j, hm⟩ := mul_block s (e.putExp n c { z1 with phase := .meOne }) 1
        (radixSquared n (limbs n)) n .meOne rfl rfl
    refine ⟨{ z1 with ma := 1, mb := radixSquared n (limbs n), mn := n, mulFor := .meOne, t := T, mi := limbs n, mj := j }, .step ?_ (hm.trans (.refl _))⟩
    show s.on (Engine.startMul _ _ _ (Engine.expModulus _) .meOne) = _
    rw [hn]
  obtain ⟨z2, h2⟩ := h2
  have h3 : ∃ z : ExpScratch, Runs (s.on (e.putExp n c
      { z2 with one := mulLimbwise 1 (radixSquared n (limbs n)) n, phase := .meBase }))
      (s.on (e.putExp n c
          { z with x := mulLimbwise 1 (radixSquared n (limbs n)) n, bm := mulLimbwise b (radixSquared n (limbs n)) n, ei := bitLength E, phase := .meNext })) := by
    obtain ⟨T, j, hm⟩ := mul_block s (e.putExp n c
        { z2 with one := mulLimbwise 1 (radixSquared n (limbs n)) n, phase := .meBase }) b
        (radixSquared n (limbs n)) n .meBase rfl rfl
    refine ⟨{ z2 with one := mulLimbwise 1 (radixSquared n (limbs n)) n, ma := b, mb := radixSquared n (limbs n), mn := n, mulFor := .meBase, t := T, mi := limbs n, mj := j }, .step ?_ (hm.trans ⟨0, ?_⟩)⟩
    · show s.on (Engine.startMul _ (Engine.expBase _) _ (Engine.expModulus _) .meBase) = _
      rw [hn, hb]
    · have := hE
        { z2 with one := mulLimbwise 1 (radixSquared n (limbs n)) n, ma := b, mb := radixSquared n (limbs n), mn := n, mulFor := .meBase, t := T, mi := limbs n, mj := j, phase := .mmSub }
      rw [← this]; rfl
  obtain ⟨z3, h3⟩ := h3
  obtain ⟨z4, h4⟩ := exp_loop s e c n E (mulLimbwise b (radixSquared n (limbs n)) n) hn hE (bitLength E)
      (mulLimbwise 1 (radixSquared n (limbs n)) n) z3
  generalize hX : montScan (mulLimbwise b (radixSquared n (limbs n)) n) E n (bitLength E)
      (mulLimbwise 1 (radixSquared n (limbs n)) n) = X at h4
  obtain ⟨T, j, hm⟩ := mul_block s (e.putExp n c
      { z4 with x := X, bm := mulLimbwise b (radixSquared n (limbs n)) n, phase := .meOut }) X 1 n .meOut rfl rfl
  refine ⟨{ z4 with x := X, bm := mulLimbwise b (radixSquared n (limbs n)) n, ma := X, mb := 1, mn := n, mulFor := .meOut, t := T, mi := limbs n, mj := j, phase := .mmSub }, h1.trans (h2.trans (h3.trans (h4.trans (.step ?_ (hm.trans ⟨0, ?_⟩)))))⟩
  · show s.on (Engine.startMul _ _ _ (Engine.expModulus _) .meOut) = _
    rw [hn]
  · have : expMontgomery b E n = mulLimbwise X 1 n := by rw [← hX]; rfl
    rw [this]; rfl

/-- The engine `e` with the registers of `XGCD`. -/
abbrev Engine.putEu (e : Engine) (c : EuclidCaller) (r0 r1 q : Nat) (t0 t1 : Int) (p : Phase) : Engine :=
  { e with euclFor := c, r0 := r0, r1 := r1, q := q, t0 := t0, t1 := t1, phase := p }

theorem eu_test_stop (s : State) (e : Engine) (c r0 q t0 t1) : Runs (s.on (e.putEu c r0 0 q t0 t1 .xgTest))
    (s.on (e.putEu c r0 0 q t0 t1 .xgFin)) := ⟨1, rfl⟩

theorem eu_pass_gcd (s : State) (e : Engine) (c : EuclidCaller)
    (hc : ∀ r0 r1 q t0 t1 p, (e.putEu c r0 r1 q t0 t1 p).euclidInverse = false) {r0 r1 q : Nat} {t0 t1 : Int}
    (h : r1 ≠ 0) :
    Runs (s.on (e.putEu c r0 r1 q t0 t1 .xgTest)) (s.on (e.putEu c r1 (r0 % r1) (r0 / r1) t0 t1 .xgTest)) := by
  refine .step (t := s.on (e.putEu c r0 r1 q t0 t1 .xgDiv)) ?_
      (.step (t := s.on (e.putEu c r0 r1 (r0 / r1) t0 t1 .xgUpd)) rfl (.step ?_ (.refl _)))
  · show s.on { (e.putEu c r0 r1 q t0 t1 .xgTest) with phase := if r1 = 0 then .xgFin else .xgDiv } = _
    rw [if_neg h]
  · have := hc r0 r1 (r0 / r1) t0 t1 .xgUpd
    unfold State.tick Engine.tickEuclid
    simp only [this]
    have e1 : r0 - r0 / r1 * r1 =
        r0 % r1 := by rw [mul_comm]; exact Nat.sub_eq_of_eq_add (Nat.mod_add_div r0 r1).symm
    simp [e1]

/-- The loop of `XGCD` in gcd mode (R181, R184). -/
theorem eu_loop_gcd (s : State) (e : Engine) (c : EuclidCaller)
    (hc : ∀ r0 r1 q t0 t1 p, (e.putEu c r0 r1 q t0 t1 p).euclidInverse = false) (t0 t1 : Int) : ∀ k r0 r1 q,
    r1 < k →
    ∃ q', Runs (s.on (e.putEu c r0 r1 q t0 t1 .xgTest)) (s.on (e.putEu c (Nat.gcd r0 r1) 0 q' t0 t1 .xgFin)) := by
  intro k
  induction k with
  | zero => intro r0 r1 q h; omega
  | succ k ih =>
    intro r0 r1 q h
    by_cases hz : r1 = 0
    · subst hz; rw [Nat.gcd_zero_right]; exact ⟨q, eu_test_stop ..⟩
    · obtain ⟨q', hr⟩ := ih r1 (r0 % r1) (r0 / r1) (by have := Nat.mod_lt r0 (Nat.pos_of_ne_zero hz); omega)
      refine ⟨q', (eu_pass_gcd s e c hc hz).trans ?_⟩
      rwa [Nat.gcd_comm r0 r1, Nat.gcd_rec r1 r0, Nat.gcd_comm]

theorem eu_pass_inv (s : State) (e : Engine) (c : EuclidCaller)
    (hc : ∀ r0 r1 q t0 t1 p, (e.putEu c r0 r1 q t0 t1 p).euclidInverse = true) {r0 r1 q : Nat} {t0 t1 : Int}
    (h : r1 ≠ 0) :
    Runs (s.on (e.putEu c r0 r1 q t0 t1 .xgTest)) (s.on
        (e.putEu c r1 (r0 % r1) (r0 / r1) t1 (t0 - ((r0 / r1 : Nat) : Int) * t1) .xgTest)) := by
  refine .step (t := s.on (e.putEu c r0 r1 q t0 t1 .xgDiv)) ?_
      (.step (t := s.on (e.putEu c r0 r1 (r0 / r1) t0 t1 .xgUpd)) rfl (.step ?_ (.refl _)))
  · show s.on { (e.putEu c r0 r1 q t0 t1 .xgTest) with phase := if r1 = 0 then .xgFin else .xgDiv } = _
    rw [if_neg h]
  · have := hc r0 r1 (r0 / r1) t0 t1 .xgUpd
    unfold State.tick Engine.tickEuclid
    simp only [this]
    have e1 : r0 - r0 / r1 * r1 =
        r0 % r1 := by rw [mul_comm]; exact Nat.sub_eq_of_eq_add (Nat.mod_add_div r0 r1).symm
    simp [e1]

/-- The loop of `XGCD` in inverse mode (R181, R184). -/
theorem eu_loop_inv (s : State) (e : Engine) (c : EuclidCaller)
    (hc : ∀ r0 r1 q t0 t1 p, (e.putEu c r0 r1 q t0 t1 p).euclidInverse = true) : ∀ k r0 r1 q (t0 t1 : Int), r1 < k →
    ∃ q' t1', Runs (s.on (e.putEu c r0 r1 q t0 t1 .xgTest))
        (s.on (e.putEu c (euclidLoop k r0 r1 t0 t1).1 0 q' (euclidLoop k r0 r1 t0 t1).2 t1' .xgFin)) := by
  intro k
  induction k with
  | zero => intro r0 r1 q t0 t1 h; omega
  | succ k ih =>
    intro r0 r1 q t0 t1 h
    by_cases hz : r1 = 0
    · subst hz; exact ⟨q, t1, eu_test_stop ..⟩
    · obtain ⟨q', t1', hr⟩ := ih r1 (r0 % r1) (r0 / r1) t1 (t0 - ((r0 / r1 : Nat) : Int) * t1)
        (by have := Nat.mod_lt r0 (Nat.pos_of_ne_zero hz); omega)
      refine ⟨q', t1', (eu_pass_inv s e c hc hz).trans ?_⟩
      rw [euclidLoop, if_neg hz]
      exact hr

/-- R182: the coefficient stays below the modulus. -/
theorem euclid_bound {m : Nat} (hm : 2 ≤ m) : ∀ (k r0 r1 : Nat) (t0 t1 : Int), r1 < k → r1 < r0 → t0 * t1 ≤ 0 →
    (r0 : Int) * |t1| + (r1 : Int) * |t0| = m →
    (r0 = 1 → |t0| < m) → (euclidLoop k r0 r1 t0 t1).1 = 1 → |(euclidLoop k r0 r1 t0 t1).2| < m := by
  intro k
  induction k with
  | zero => intro r0 r1 t0 t1 h; omega
  | succ k ih =>
    intro r0 r1 t0 t1 hk hlt hs hi h1 hone
    rw [euclidLoop] at hone ⊢
    by_cases hz : r1 = 0
    · rw [if_pos hz] at hone ⊢; exact h1 hone
    · rw [if_neg hz] at hone ⊢
      have hml := Nat.mod_lt r0 (Nat.pos_of_ne_zero hz)
      refine ih r1 (r0 % r1) t1 _ (by omega) hml ?_ ?_ ?_ hone
      · have : 0 ≤ ((r0 / r1 : Nat) : Int) * (t1 * t1) := mul_nonneg (by positivity) (mul_self_nonneg _)
        nlinarith
      · have habs : |t0 - ((r0 / r1 : Nat) : Int) * t1| = |t0| + ((r0 / r1 : Nat) : Int) * |t1| := by
          have hq : (0 : Int) ≤ ((r0 / r1 : Nat) : Int) := by positivity
          generalize ((r0 / r1 : Nat) : Int) = Q at *
          rcases le_total 0 t0 with a | a <;> rcases le_total 0 t1 with b | b
          · have : t0 = 0 ∨ t1 = 0 := by
              by_contra hc; rw [not_or] at hc
              have : 0 < t0 * t1 := mul_pos (lt_of_le_of_ne a (Ne.symm hc.1)) (lt_of_le_of_ne b (Ne.symm hc.2))
              omega
            rcases this with rfl | rfl
            · simp [abs_mul, abs_of_nonneg hq]
            · simp
          · rw [abs_of_nonneg a, abs_of_nonpos b, abs_of_nonneg (by nlinarith)]; ring
          · rw [abs_of_nonpos a, abs_of_nonneg b, abs_of_nonpos (by nlinarith)]; ring
          · have : t0 = 0 ∨ t1 = 0 := by
              by_contra hc; rw [not_or] at hc
              have : 0 < t0 * t1 := mul_pos_of_neg_of_neg (lt_of_le_of_ne a hc.1) (lt_of_le_of_ne b hc.2)
              omega
            rcases this with rfl | rfl
            · simp [abs_mul, abs_of_nonneg hq]
            · simp
        rw [habs]
        have hd : ((r0 : Nat) : Int) = (r0 % r1 : Nat) + (r1 : Int) *
            (r0 / r1 : Nat) := by exact_mod_cast (Nat.mod_add_div r0 r1).symm
        rw [hd] at hi
        rw [← hi]; ring
      · intro hr1
        have h2 : (2 : Int) ≤ r0 := by omega
        have := abs_nonneg t1
        have := abs_nonneg t0
        have h3 : 2 * |t1| ≤ (r0 : Int) * |t1| := mul_le_mul_of_nonneg_right h2 (abs_nonneg _)
        have h4 : 0 ≤ (r1 : Int) * |t0| := by positivity
        omega

/-- The one correction of R183 gives the residue. -/
theorem residue_of {m : Nat} {t : Int} (h : |t| < m) : (if 0 ≤ t then t.toNat else (t + (m : Int)).toNat) =
    (t % (m : Int)).toNat := by
  rw [abs_lt] at h
  split
  · rw [Int.emod_eq_of_lt ‹_› h.2]
  · rw [← Int.add_emod_right (a := t), Int.emod_eq_of_lt (by omega) (by omega)]

/-- `XGCD` in gcd mode as a block. -/
theorem eu_block_gcd (s : State) (e : Engine) (c : EuclidCaller) (A M : Nat)
    (hc : ∀ r0 r1 q t0 t1 p, (e.putEu c r0 r1 q t0 t1 p).euclidInverse = false)
    (hA : (e.startEuclid c).euclidA = A) (hM : (e.startEuclid c).euclidM = M) : ∃ q' v, Runs
        (s.on (e.startEuclid c)) (s.on ((e.putEu c (Nat.gcd A M) 0 q' e.t0 e.t1 .xgFin).euclidDone
        (Nat.gcd A M) v)) := by
  obtain ⟨q', hr⟩ := eu_loop_gcd s e c hc e.t0 e.t1 (M + 1) A M e.q (by omega)
  refine ⟨q', _, .step ?_ (hr.trans (.step rfl (.refl _)))⟩
  have := hc e.r0 e.r1 e.q e.t0 e.t1 .xgInit
  have g : (e.startEuclid c).euclidInverse = false := this
  show s.on (Engine.tickEuclid (e.startEuclid c)) = _
  unfold Engine.tickEuclid
  simp only [show (e.startEuclid c).phase = .xgInit from rfl, g, hA, hM]
  rfl

/-- `XGCD` in inverse mode as a block. -/
theorem eu_block_inv (s : State) (e : Engine) (c : EuclidCaller) (A M : Nat) (h2 : 2 ≤ M)
    (hc : ∀ r0 r1 q t0 t1 p, (e.putEu c r0 r1 q t0 t1 p).euclidInverse = true)
    (hA : (e.startEuclid c).euclidA = A) (hM : (e.startEuclid c).euclidM = M)
        (hM' : ∀ r0 r1 q t0 t1 p, (e.putEu c r0 r1 q t0 t1 p).euclidM = M) :
    ∃ r0 q' t0 t1 g v, Runs (s.on (e.startEuclid c)) (s.on ((e.putEu c r0 0 q' t0 t1 .xgFin).euclidDone g v)) ∧
        modInv A M = if g = 1 then some v else none := by
  obtain ⟨q', t1', hr⟩ := eu_loop_inv s e c hc (A % M + 1) M (A % M) e.q 0 1 (by omega)
  refine ⟨_, q', _, t1', _, _, .step ?_ (hr.trans (.step rfl (.refl _))), ?_⟩
  · have := hc e.r0 e.r1 e.q e.t0 e.t1 .xgInit
    have g : (e.startEuclid c).euclidInverse = true := this
    show s.on (Engine.tickEuclid (e.startEuclid c)) = _
    unfold Engine.tickEuclid
    simp only [show (e.startEuclid c).phase = .xgInit from rfl, g, hA, hM]
    rfl
  · unfold modInv
    simp only
    split
    · rename_i h1
      congr 1
      have hb := euclid_bound h2 (A % M + 1) M (A % M) 0 1 (by omega) (Nat.mod_lt _ (by omega)) (by simp) (by simp)
          (by omega) h1
      rw [hM']
      exact (residue_of hb).symm
    · rfl

/-! ### Idle and stuck engines -/
/-- An idle engine does nothing (R325). -/
theorem ticks_idle : ∀ (k : Nat) (s : State), s.busy = false → State.ticks k s = s
  | 0, s, _ => rfl
  | k + 1, s, h => by
    have : s.tick = s := by unfold State.tick; cases hp : s.engine.phase <;> simp_all [State.busy]
    rw [State.ticks, this, ticks_idle k s h]

/-- An engine at a silent port waits for ever (R47). -/
theorem stuck : ∀ (k : Nat) (u : State) (e : Engine), (e.phase = .mrDraw ∨ e.phase = .pgDraw) → State.ticks k
    { u with rng := [], engine := e } = { u with rng := [], engine := e }
  | 0, u, e, _ => rfl
  | k + 1, u, e, h => by
    have : State.tick { u with rng := [], engine := e } = { u with rng := [], engine := e } := by
      unfold State.tick State.tickTestDraw State.tickGenDraw takeWord
      rcases h with h | h <;> simp only [h]
    rw [State.ticks, this, stuck k u e h]

/-! ### Drawing -/

/-- `u` with these words to come and this engine. -/
abbrev State.at (u : State) (ws : List Word) (e : Engine) : State := { u with rng := ws, engine := e }

/-- The sequencer, from `src`, ends a drawing computation as it says. -/
def Sim2 {α : Type} (u src : State) (cw : Word) (ok : α → Draws → Prop) : Gen α → Prop
  | .ok a d => ok a d
  | .err x d => ∃ e', Runs src (u.at d.words e') ∧ e'.phase = .fail x ∧ e'.cw = cw ∧ e'.lrng = d.lrng ∧ e'.latt =
      d.latt
  | .silent => ∃ e', Runs src (u.at [] e') ∧ (e'.phase = .mrDraw ∨ e'.phase = .pgDraw)

/-- One computation after another. -/
theorem Sim2.bind {α β : Type} {u src : State} {cw : Word} {ok : α → Draws → Prop} {ok2 : β → Draws → Prop}
    {x : Gen α} {f : α → Draws → Gen β}
    (h : Sim2 u src cw ok x) (hf : ∀ a d, ok a d → Sim2 u src cw ok2 (f a d)) : Sim2 u src cw ok2
        (x.andThen f) := by
  cases x with
  | ok a d => exact hf a d h
  | err e d => exact h
  | silent => exact h

theorem count_succ (l : Word) (c : Nat) : l + 1 + BitVec.ofNat 32 c = l + BitVec.ofNat 32 (c + 1) := by
  rw [BitVec.ofNat_add, BitVec.add_assoc, BitVec.add_comm 1]
  rfl


/-- The words of one draw of the tester, one a transition (R210, R221). -/
theorem test_draw_words (u : State) (e : Engine) (k : Nat) (hk : bitLength e.tn = k) : ∀ (c j acc : Nat)
    (ws : List Word) (l : Word), j + (c + 1) = wordsFor k →
    if c + 1 ≤ ws.length then
      Runs (u.at ws { e with ta := acc, dj := j, lrng := l, phase := .mrDraw })
        (u.at (ws.drop (c + 1))
            { e with ta := (acc + 2 ^ (32 * j) * valueOf (ws.take (c + 1))) % 2 ^ k, dj := 0, lrng := l + BitVec.ofNat 32 (c + 1), phase := .mrAccept })
    else ∃ e', Runs (u.at ws { e with ta := acc, dj := j, lrng := l, phase := .mrDraw }) (u.at [] e') ∧
        (e'.phase = .mrDraw ∨ e'.phase = .pgDraw) := by
  intro c
  induction c with
  | zero =>
    intro j acc ws l h
    cases ws with
    | nil => rw [if_neg (by simp)]; exact ⟨_, .refl _, .inl rfl⟩
    | cons w ws =>
      rw [if_pos (by simp)]
      refine .step ?_ (.refl _)
      unfold State.tick State.tickTestDraw takeWord
      simp only [hk, show j + 1 = wordsFor k from h, beq_self_eq_true, List.tail_cons, List.drop_succ_cons,
          List.drop_zero, List.take_succ_cons, List.take_zero, valueOf,
        Nat.mul_comm]
      rfl
  | succ c ih =>
    intro j acc ws l h
    cases ws with
    | nil => rw [if_neg (by simp)]; exact ⟨_, .refl _, .inl rfl⟩
    | cons w ws =>
      have hs : State.tick (u.at (w :: ws) { e with ta := acc, dj := j, lrng := l, phase := .mrDraw }) =
          u.at ws { e with ta := acc + w.toNat * 2 ^ (32 * j), dj := j + 1, lrng := l + 1, phase := .mrDraw } := by
        unfold State.tick State.tickTestDraw takeWord
        have : (j + 1 == wordsFor k) = false := by rw [beq_eq_false_iff_ne]; omega
        simp only [hk, this, List.tail_cons]
      have := ih (j + 1) (acc + w.toNat * 2 ^ (32 * j)) ws (l + 1) (by omega)
      by_cases hl : c + 1 ≤ ws.length
      · rw [if_pos hl] at this
        rw [if_pos (by simpa using hl)]
        refine .step hs (this.trans ⟨0, ?_⟩)
        have e1 : acc + w.toNat * 2 ^ (32 * j) + 2 ^ (32 * (j + 1)) * valueOf (ws.take (c + 1)) = acc + 2 ^
            (32 * j) * valueOf ((w :: ws).take (c + 1 + 1)) := by
          rw [List.take_succ_cons, valueOf, show 32 * (j + 1) = 32 * j + 32 by ring, pow_add]; ring
        have e2 : l + 1 + BitVec.ofNat 32 (c + 1) = l + BitVec.ofNat 32 (c + 1 + 1) := by
          exact count_succ l (c + 1)
        rw [e1, e2]; rfl
      · rw [if_neg hl] at this
        rw [if_neg (by simpa using hl)]
        obtain ⟨e', h1, h2⟩ := this
        exact ⟨e', .step hs h1, h2⟩

theorem wordsFor_pos {k : Nat} (h : 1 ≤ k) : 1 ≤ wordsFor k := by unfold wordsFor; omega

/-- `DrawBits` in the tester. -/
theorem test_draw (u src : State) (e : Engine) (k : Nat) (hk : bitLength e.tn = k) (h1 : 1 ≤ k) (d : Draws)
    (h : Runs src (u.at d.words { e with ta := 0, dj := 0, lrng := d.lrng, latt := d.latt, phase := .mrDraw })) :
    Sim2 u src e.cw (fun a d' => Runs src (u.at d'.words
        { e with ta := a, dj := 0, lrng := d'.lrng, latt := d'.latt, phase := .mrAccept })) (drawBits k d) := by
  obtain ⟨c, hc⟩ : ∃ c, wordsFor k = c + 1 := ⟨wordsFor k - 1, by have := wordsFor_pos h1; omega⟩
  have hw := test_draw_words u { e with latt := d.latt } k hk c 0 0 d.words d.lrng (by omega)
  rw [drawBits_eq, hc]
  split
  · rename_i hl
    rw [if_pos hl] at hw
    simp only [Nat.zero_add, Nat.mul_zero, pow_zero, Nat.one_mul] at hw
    exact h.trans hw
  · rename_i hl
    rw [if_neg hl] at hw
    obtain ⟨e', g1, g2⟩ := hw
    exact ⟨e', h.trans g1, g2⟩

/-- `DrawBase`. -/
theorem base_loop (u src : State) (e : Engine) (h3 : 3 ≤ e.tn) : ∀ (j r : Nat) (d : Draws), r + (j + 1) =
    Config.baseRejectCap →
    Runs src (u.at d.words
        { e with trej := r, ta := 0, dj := 0, lrng := d.lrng, latt := d.latt, phase := .mrDraw }) →
    Sim2 u src e.cw (fun a d' => ∃ r', Runs src (u.at d'.words
        { e with trej := r', ta := a, dj := 0, lrng := d'.lrng, latt := d'.latt, phase := .mrPow }))
      (drawBase e.tn (j + 1) d) := by
  intro j
  have hb : 1 ≤ bitLength e.tn := by
    by_contra hc
    have := lt_two_pow_bitLength e.tn
    rw [show bitLength e.tn = 0 by omega] at this
    omega
  induction j with
  | zero =>
    intro r d hr h
    rw [drawBase]
    refine (test_draw u src { e with trej := r } _ rfl hb d h).bind fun a d' h' => ?_
    by_cases hin : baseInRange e.tn a = true
    · rw [if_pos hin]
      refine ⟨r, h'.trans (.step ?_ (.refl _))⟩
      show u.at d'.words (if baseInRange e.tn a = true then
          { e with trej := r, ta := a, dj := 0, lrng := d'.lrng, latt := d'.latt, phase := .mrPow } else _) = _
      rw [if_pos hin]
    · rw [if_neg hin, drawBase]
      refine ⟨_, h'.trans (.step (t := u.at d'.words (Engine.report
          { e with trej := r + 1, ta := a, dj := 0, lrng := d'.lrng, latt := d'.latt, phase := .mrAccept } .rngReject)) ?_ (.refl _)), rfl, rfl, rfl, rfl⟩
      show u.at d'.words (if baseInRange e.tn a = true then _ else if r + 1 = Config.baseRejectCap then _ else _) =
          _
      rw [if_neg hin, if_pos (by omega)]
  | succ j ih =>
    intro r d hr h
    rw [drawBase]
    refine (test_draw u src { e with trej := r } _ rfl hb d h).bind fun a d' h' => ?_
    by_cases hin : baseInRange e.tn a = true
    · rw [if_pos hin]
      refine ⟨r, h'.trans (.step ?_ (.refl _))⟩
      show u.at d'.words (if baseInRange e.tn a = true then
          { e with trej := r, ta := a, dj := 0, lrng := d'.lrng, latt := d'.latt, phase := .mrPow } else _) = _
      rw [if_pos hin]
    · rw [if_neg hin]
      refine ih (r + 1) d' (by omega) (h'.trans (.step ?_ (.refl _)))
      show u.at d'.words (if baseInRange e.tn a = true then _ else if r + 1 = Config.baseRejectCap then _ else _) =
          _
      rw [if_neg hin, if_neg (by omega)]



/-- The words of one draw of the generator, one a transition (R221, R226). -/
theorem gen_draw_words (u : State) (e : Engine) (k : Nat) (hk : (sext32 e.pk).toNat = k) : ∀ (c j acc : Nat)
    (ws : List Word) (l : Word), j + (c + 1) = wordsFor k →
    if c + 1 ≤ ws.length then
      Runs (u.at ws { e with pc := acc, dj := j, lrng := l, phase := .pgDraw })
        (u.at (ws.drop (c + 1))
            { e with pc := candidateFrom k ((acc + 2 ^ (32 * j) * valueOf (ws.take (c + 1))) % 2 ^ k), dj := 0, lrng := l + BitVec.ofNat 32 (c + 1), phase := .pgTest })
    else ∃ e', Runs (u.at ws { e with pc := acc, dj := j, lrng := l, phase := .pgDraw }) (u.at [] e') ∧
        (e'.phase = .mrDraw ∨ e'.phase = .pgDraw) := by
  intro c
  induction c with
  | zero =>
    intro j acc ws l h
    cases ws with
    | nil => rw [if_neg (by simp)]; exact ⟨_, .refl _, .inr rfl⟩
    | cons w ws =>
      rw [if_pos (by simp)]
      refine .step ?_ (.refl _)
      unfold State.tick State.tickGenDraw takeWord
      simp only [hk, show j + 1 = wordsFor k from h, beq_self_eq_true, List.tail_cons, List.drop_succ_cons,
          List.drop_zero, List.take_succ_cons, List.take_zero, valueOf,
        Nat.mul_comm]
      rfl
  | succ c ih =>
    intro j acc ws l h
    cases ws with
    | nil => rw [if_neg (by simp)]; exact ⟨_, .refl _, .inr rfl⟩
    | cons w ws =>
      have hs : State.tick (u.at (w :: ws) { e with pc := acc, dj := j, lrng := l, phase := .pgDraw }) =
          u.at ws { e with pc := acc + w.toNat * 2 ^ (32 * j), dj := j + 1, lrng := l + 1, phase := .pgDraw } := by
        unfold State.tick State.tickGenDraw takeWord
        have : (j + 1 == wordsFor k) = false := by rw [beq_eq_false_iff_ne]; omega
        simp only [hk, this, List.tail_cons]
      have := ih (j + 1) (acc + w.toNat * 2 ^ (32 * j)) ws (l + 1) (by omega)
      by_cases hl : c + 1 ≤ ws.length
      · rw [if_pos hl] at this
        rw [if_pos (by simpa using hl)]
        refine .step hs (this.trans ⟨0, ?_⟩)
        have e1 : acc + w.toNat * 2 ^ (32 * j) + 2 ^ (32 * (j + 1)) * valueOf (ws.take (c + 1)) = acc + 2 ^
            (32 * j) * valueOf ((w :: ws).take (c + 1 + 1)) := by
          rw [List.take_succ_cons, valueOf, show 32 * (j + 1) = 32 * j + 32 by ring, pow_add]; ring
        have e2 : l + 1 + BitVec.ofNat 32 (c + 1) = l + BitVec.ofNat 32 (c + 1 + 1) := by
          exact count_succ l (c + 1)
        rw [e1, e2]; rfl
      · rw [if_neg hl] at this
        rw [if_neg (by simpa using hl)]
        obtain ⟨e', h1, h2⟩ := this
        exact ⟨e', .step hs h1, h2⟩

/-- `Candidate` in the generator. -/
theorem gen_draw (u src : State) (e : Engine) (k : Nat) (hk : (sext32 e.pk).toNat = k) (h1 : 1 ≤ k) (d : Draws)
    (h : Runs src (u.at d.words { e with pc := 0, dj := 0, lrng := d.lrng, latt := d.latt, phase := .pgDraw })) :
    Sim2 u src e.cw (fun p d' => Runs src (u.at d'.words
        { e with pc := p, dj := 0, lrng := d'.lrng, latt := d'.latt, phase := .pgTest })) (candidate k d) := by
  obtain ⟨c, hc⟩ : ∃ c, wordsFor k = c + 1 := ⟨wordsFor k - 1, by have := wordsFor_pos h1; omega⟩
  have hw := gen_draw_words u { e with latt := d.latt } k hk c 0 0 d.words d.lrng (by omega)
  rw [candidate, drawBits_eq, hc]
  split
  · rename_i hl
    rw [if_pos hl] at hw
    simp only [Nat.zero_add, Nat.mul_zero, pow_zero, Nat.one_mul] at hw
    exact h.trans hw
  · rename_i hl
    rw [if_neg hl] at hw
    obtain ⟨e', g1, g2⟩ := hw
    exact ⟨e', h.trans g1, g2⟩

end Sys2Proof.Machine
end

