-- ==== Sys2Proof/Laws/Bus.lean ====
section
/-! SUPPORT. What a bus access does, said once: which accesses the port carries, and the step that carries one
(20_memory.md R71 to R79). -/

namespace Sys2Proof.Machine

/-- The register window lies inside the address space of the port (R71, R75). -/
theorem lt_space {b : Build} {addr : Nat} (ha : addr < 0x1000 + 40 * b.limbCount) : addr < 2 ^ addressWidth b := by
  have := lt_two_pow_bitLength (0x1000 + 40 * b.limbCount - 1)
  unfold addressWidth
  omega

/-- An aligned access inside the address space of the port is carried (R71, R79). -/
theorem access_space {b : Build} {addr : Nat} (ha : addr < 2 ^ addressWidth b) (h4 : addr % 4 = 0) (u : State) :
    access b addr u = .next u := by
  unfold access
  rw [if_neg (by omega), if_neg (by omega)]

/-- An aligned access up to the end of the window is carried (R71, R79). -/
theorem access_ok {b : Build} {addr : Nat} (ha : addr < 0x1000 + 40 * b.limbCount) (h4 : addr % 4 = 0) (u : State) :
    access b addr u = .next u := access_space (lt_space ha) h4 u

/-- A step that carries a write anywhere in the address space (R73). -/
theorem step_write_space {s : State} {addr : Nat} {v : Word} {rest : List HostEvent}
    (hh : s.host = .write addr v :: rest) (ha : addr < 2 ^ addressWidth s.build) (h4 : addr % 4 = 0) :
    step s = .next ((s.taken rest).memWrite addr v) := by
  unfold step; rw [hh]
  exact access_space (b := s.build) ha h4 _

/-- A step that carries a read anywhere in the address space (R72). -/
theorem step_read_space {s : State} {addr : Nat} {rest : List HostEvent} (hh : s.host = .read addr :: rest)
    (ha : addr < 2 ^ addressWidth s.build) (h4 : addr % 4 = 0) :
    step s = .next ((s.taken rest).memRead addr) := by
  unfold step; rw [hh]
  exact access_space (b := s.build) ha h4 _

/-- A step that carries a write up to the end of the window (R73). -/
theorem step_write {s : State} {addr : Nat} {v : Word} {rest : List HostEvent} (hh : s.host = .write addr v :: rest)
    (ha : addr < 0x1000 + 40 * s.build.limbCount) (h4 : addr % 4 = 0) :
    step s = .next ((s.taken rest).memWrite addr v) := step_write_space hh (lt_space ha) h4

/-- A step that carries a read up to the end of the window (R72). -/
theorem step_read {s : State} {addr : Nat} {rest : List HostEvent} (hh : s.host = .read addr :: rest)
    (ha : addr < 0x1000 + 40 * s.build.limbCount) (h4 : addr % 4 = 0) :
    step s = .next ((s.taken rest).memRead addr) := step_read_space hh (lt_space ha) h4

/-- No big register lies outside the register window (R75). -/
theorem windowAt_outside {b : Build} {addr : Nat} (h : addr < 0x1000 ∨ 0x1000 + 40 * b.limbCount ≤ addr) :
    windowAt b addr = none := by
  unfold windowAt
  rw [if_neg (by omega)]

/-- The limb a window offset names (R74). -/
theorem windowAt_limb {b : Build} {i j : Nat} (hi : i < 10) (hj : j < b.limbCount) :
    windowAt b (windowOffset b i j) = some (i, j) := by
  have hlt : i * b.limbCount + j < 10 * b.limbCount :=
    calc i * b.limbCount + j < i * b.limbCount + b.limbCount := by omega
      _ = (i + 1) * b.limbCount := by ring
      _ ≤ 10 * b.limbCount := Nat.mul_le_mul_right _ hi
  have hd : (windowOffset b i j - 0x1000) / 4 = j + b.limbCount * i := by
    unfold windowOffset
    rw [mul_comm b.limbCount]
    omega
  unfold windowAt
  rw [if_pos (by unfold windowOffset; omega), hd, Nat.add_mul_div_left _ _ (by omega), Nat.add_mul_mod_self_left,
    Nat.div_eq_of_lt hj, Nat.mod_eq_of_lt hj, Nat.zero_add]

/-- A window offset is inside the window, above every control register (R74, R75). -/
theorem windowOffset_range {b : Build} {i j : Nat} (hi : i < 10) (hj : j < b.limbCount) :
    0x1000 ≤ windowOffset b i j ∧ windowOffset b i j < 0x1000 + 40 * b.limbCount ∧ windowOffset b i j % 4 = 0 := by
  have hlt : i * b.limbCount + j < 10 * b.limbCount :=
    calc i * b.limbCount + j < i * b.limbCount + b.limbCount := by omega
      _ = (i + 1) * b.limbCount := by ring
      _ ≤ 10 * b.limbCount := Nat.mul_le_mul_right _ hi
  unfold windowOffset
  omega

/-- A write above the control registers reaches the register window or nothing (R73). -/
theorem memWrite_high (s : State) {addr : Nat} (v : Word) (h : 0x30 ≤ addr) :
    s.memWrite addr v = match windowAt s.build addr with
      | some (i, j) => if s.busy then s.locked else s.writeWindow i j v
      | none => s := by
  have hc : addr ∉ configOffsets := by
    simp only [configOffsets, offBITLEN, offMINBITS, offROUNDS, offESTART, offATTEMPTCAP, List.mem_cons,
      List.not_mem_nil, or_false]
    omega
  unfold State.memWrite
  exact (if_neg (by unfold offSTATUS; omega)).trans ((if_neg (by unfold offCTRL; omega)).trans
    ((if_neg (by unfold offCMD; omega)).trans (if_neg hc)))

/-- No control register lies above 0x02F (R42, R75). -/
theorem csr_high (s : State) {addr : Nat} (h : 0x30 ≤ addr) : s.csr addr = none := by
  unfold State.csr
  rw [if_neg (show ¬addr = offCMD by unfold offCMD; omega), if_neg
      (show ¬addr = offSTATUS by unfold offSTATUS; omega),
    if_neg (show ¬addr = offCTRL by unfold offCTRL; omega), if_neg (show ¬addr = offID by unfold offID; omega),
    if_neg (show ¬addr = offCAP by unfold offCAP; omega), if_neg
        (show ¬addr = offBITLEN by unfold offBITLEN; omega),
    if_neg (show ¬addr = offMINBITS by unfold offMINBITS; omega), if_neg
        (show ¬addr = offROUNDS by unfold offROUNDS; omega),
    if_neg (show ¬addr = offESTART by unfold offESTART; omega), if_neg
        (show ¬addr = offATTEMPTCAP by unfold offATTEMPTCAP; omega),
    if_neg (show ¬addr = offATTEMPTS by unfold offATTEMPTS; omega), if_neg
        (show ¬addr = offRNGCNT by unfold offRNGCNT; omega)]

end Sys2Proof.Machine
end

