-- ==== Sys2Proof/Laws/Encoding.lean ====
section
/-! SUPPORT. The encoder, field by field (30_encoding.md R101, R102). -/

namespace Sys2Proof

/-- The word is the sum of R101, without wrapping. -/
theorem encodeFields_toNat (o : Opcode) (d a b m : Reg) :
    (encodeFields o d a b m).toNat = o.code + 2 ^ 8 * d.val + 2 ^ 12 * a.val + 2 ^ 16 * b.val + 2 ^ 20 * m.val := by
  have h1 := d.isLt; have h2 := a.isLt; have h3 := b.isLt; have h4 := m.isLt
  have h : o.code < 2 ^ 8 := by cases o <;> decide
  rw [encodeFields, BitVec.toNat_ofNat, Nat.mod_eq_of_lt]
  omega

/-- The fields of R101 do not overlap. -/
theorem encodeFields_or (o : Opcode) (d a b m : Reg) :
    encodeFields o d a b m = o.pattern ||| BitVec.ofNat 32 (2 ^ 8 * d.val) ||| BitVec.ofNat 32 (2 ^ 12 * a.val)
      ||| BitVec.ofNat 32 (2 ^ 16 * b.val) ||| BitVec.ofNat 32 (2 ^ 20 * m.val) := by
  have h1 := d.isLt; have h2 := a.isLt; have h3 := b.isLt; have h4 := m.isLt
  have h : o.code < 2 ^ 8 := by cases o <;> decide
  apply BitVec.eq_of_toNat_eq
  rw [encodeFields_toNat]
  simp only [BitVec.toNat_or, BitVec.toNat_ofNat, Opcode.pattern]
  rw [Nat.mod_eq_of_lt (show o.code < 2 ^ 32 by omega), Nat.mod_eq_of_lt (show 2 ^ 8 * d.val < 2 ^ 32 by omega),
    Nat.mod_eq_of_lt (show 2 ^ 12 * a.val < 2 ^ 32 by omega), Nat.mod_eq_of_lt (show 2 ^ 16 * b.val < 2 ^ 32 by omega),
    Nat.mod_eq_of_lt (show 2 ^ 20 * m.val < 2 ^ 32 by omega)]
  have e1 : o.code ||| 2 ^ 8 * d.val = o.code + 2 ^ 8 * d.val := by
    rw [Nat.or_comm, ← Nat.two_pow_add_eq_or_of_lt h, Nat.add_comm]
  rw [e1]
  have e2 : (o.code + 2 ^ 8 * d.val) ||| 2 ^ 12 * a.val = o.code + 2 ^ 8 * d.val + 2 ^ 12 * a.val := by
    rw [Nat.or_comm, ← Nat.two_pow_add_eq_or_of_lt (by omega), Nat.add_comm]
  rw [e2]
  have e3 : (o.code + 2 ^ 8 * d.val + 2 ^ 12 * a.val) ||| 2 ^ 16 * b.val = o.code + 2 ^ 8 * d.val + 2 ^ 12 * a.val + 2 ^ 16 * b.val := by
    rw [Nat.or_comm, ← Nat.two_pow_add_eq_or_of_lt (by omega), Nat.add_comm]
  rw [e3]
  rw [Nat.or_comm, ← Nat.two_pow_add_eq_or_of_lt (by omega), Nat.add_comm]

/-- Each field of R101 reads back. -/
theorem encodeFields_fields (o : Opcode) (d a b m : Reg) :
    fieldRD (encodeFields o d a b m) = d ∧ fieldRA (encodeFields o d a b m) = a ∧
    fieldRB (encodeFields o d a b m) = b ∧ fieldRM (encodeFields o d a b m) = m ∧
    fieldOPC (encodeFields o d a b m) = o.code := by
  have h1 := d.isLt; have h2 := a.isLt; have h3 := b.isLt; have h4 := m.isLt
  have h : o.code < 2 ^ 8 := by cases o <;> decide
  refine ⟨?_, ?_, ?_, ?_, ?_⟩
  all_goals first
    | (apply Fin.ext; simp only [fieldRD, fieldRA, fieldRB, fieldRM, fieldReg, Fin.ofNat, encodeFields_toNat]; omega)
    | (simp only [fieldOPC, encodeFields_toNat]; omega)

/-- The row of an encoded word is the row it was encoded from. -/
theorem opcodeOf_encodeFields (o : Opcode) (d a b m : Reg) : opcodeOf (encodeFields o d a b m) = some o := by
  rw [opcodeOf, (encodeFields_fields o d a b m).2.2.2.2]
  cases o <;> rfl

/-- `and` distributes over `or`. -/
theorem word_and_or (x y m : Word) : (x ||| y) &&& m = x &&& m ||| y &&& m := by
  ext i hi; simp [Bool.and_or_distrib_right]

/-- A word whose used fields are outside its row's mask agrees with the row's `match` (R102). -/
theorem encodeFields_match {o : Opcode} {d a b m : Reg}
    (hd : BitVec.ofNat 32 (2 ^ 8 * d.val) &&& o.mask = 0) (ha : BitVec.ofNat 32 (2 ^ 12 * a.val) &&& o.mask = 0)
    (hb : BitVec.ofNat 32 (2 ^ 16 * b.val) &&& o.mask = 0) (hm : BitVec.ofNat 32 (2 ^ 20 * m.val) &&& o.mask = 0) :
    encodeFields o d a b m &&& o.mask = o.pattern := by
  rw [encodeFields_or]
  simp only [word_and_or, hd, ha, hb, hm]
  cases o <;> decide

end Sys2Proof
end

