-- ==== Sys2Proof/Laws/Invariant.lean ====
section
/-! SUPPORT. The clauses of the invariant that do not speak of the engine, kept by every shared operation; every
completion leaves the whole invariant; what a CMD write leaves. -/

namespace Sys2Proof.Machine

/-- The clauses of the invariant that do not speak of the engine. -/
structure State.Data (s : State) : Prop where
  build : s.build.Legal
  big : ∀ r : Reg, s.readG r < 2 ^ s.build.maxBits
  dbg : s.dbgp < 2 ^ s.build.maxBits ∧ s.dbgq < 2 ^ s.build.maxBits
  dbgOff : s.build.dbgPrimes = false → s.dbgp = 0 ∧ s.dbgq = 0

/-- The invariant has those clauses. -/
theorem State.Inv.data {s : State} (h : s.Inv) : s.Data := ⟨h.build, h.big, h.dbg, h.dbgOff⟩

/-- They depend on the registers only. -/
theorem State.Data.of_same {s t : State} (h : s.Data) (hb : t.build = s.build) (hg : t.g = s.g)
    (hp : t.dbgp = s.dbgp) (hq : t.dbgq = s.dbgq) : t.Data := by
  refine ⟨by rw [hb]; exact h.build, fun r => ?_, by rw [hb, hp, hq]; exact h.dbg, by rw [hb, hp, hq]; exact h.dbgOff⟩
  rw [State.readG_congr hg, hb]; exact h.big r

/-- A register write keeps them (R22). -/
theorem State.Data.writeG {s : State} (h : s.Data) (r : Reg) (v : Nat) : (s.writeG r v).Data := by
  refine ⟨h.build, fun q => ?_, h.dbg, h.dbgOff⟩
  by_cases hq : q = r
  · subst hq; rw [State.readG_writeG_same]; exact Nat.mod_lt _ (Nat.two_pow_pos _)
  · rw [State.readG_writeG_other _ _ hq]; exact h.big q

/-- So does a write of the debug registers (R41). -/
theorem State.Data.writeDbg {s : State} (h : s.Data) (p q : Nat) : (s.writeDbg p q).Data := by
  unfold State.writeDbg
  split
  · rename_i hd
    exact ⟨h.build, h.big, ⟨Nat.mod_lt _ (Nat.two_pow_pos _), Nat.mod_lt _ (Nat.two_pow_pos _)⟩,
        fun h => by simp [hd] at h⟩
  · exact ⟨h.build, h.big, ⟨Nat.two_pow_pos _, Nat.two_pow_pos _⟩, fun _ => ⟨rfl, rfl⟩⟩

/-- So does every commit (R303). -/
theorem State.Data.commit {s : State} (h : s.Data) (c : Commit) : (s.commit c).Data := by
  cases c with
  | big d v => exact h.writeG d v
  | verdict p => exact h.of_same rfl rfl rfl rfl
  | key d b m n e x p q => exact (((h.writeG m n).writeG b e).writeG d x).writeDbg p q
  | clear =>
    refine ⟨h.build, fun r => ?_, ⟨Nat.two_pow_pos _, Nat.two_pow_pos _⟩, fun _ => ⟨rfl, rfl⟩⟩
    simp [State.commit, State.readG]

theorem State.Data.count {s : State} (h : s.Data) (i : Instr) : (s.countAttempts i).Data := by
  cases i <;> exact h.of_same rfl rfl rfl rfl

theorem State.Data.failEffects {s : State} (h : s.Data) (i : Instr) : (s.failEffects i).Data := by
  cases i with
  | genkey d b m => exact ⟨h.build, h.big, ⟨Nat.two_pow_pos _, Nat.two_pow_pos _⟩, fun _ => ⟨rfl, rfl⟩⟩
  | _ => exact h.of_same rfl rfl rfl rfl

/-- A completion with a pair of R301 leaves the invariant. -/
theorem State.Data.complete {s : State} (h : s.Data) {c x : BitVec 4} (hp : (c, x) ∈ statusPairs) :
    (s.complete c x).Inv := by
  have hd : (s.complete c x).Data := h.of_same rfl rfl rfl rfl
  have hb : (s.complete c x).busy = false := rfl
  refine ⟨hd.build, hd.big, hd.dbg, hd.dbgOff, hp, fun _ => rfl, fun h => ?_, ?_, fun h => ?_, fun h => ?_⟩
  · rw [hb] at h; cases h
  · refine ⟨?_, ?_, ?_⟩ <;> (show Phase.idle ≠ _; decide)
  · rw [hb] at h; cases h
  · rw [hb] at h; cases h

/-- Every error has its pair in the table (R301). -/
theorem pair_err (e : Err) : (e.code, e.subcode) ∈ statusPairs := by cases e <;> decide

/-- A successful completion leaves the invariant (R303). -/
theorem State.Data.completeOk {s : State} (h : s.Data) (i : Instr) (c : Commit) : (s.completeOk i c).Inv :=
  ((h.commit c).count i).complete (by decide)
/-- A completion with an error leaves the invariant (R304). -/
theorem State.Data.completeErr {s : State} (h : s.Data) (i : Option Instr) (e : Err) : (s.completeErr i e).Inv := by
  cases i with
  | none => exact h.complete (pair_err e)
  | some i => exact (h.failEffects i).complete (pair_err e)

/-- A CMD write whose word fails a decode check (R106). -/
theorem issue_error {s : State} {w : Word} {x : Err} (hd : decodeChecks w = .error x) :
    s.issue w = { s.accept w with engine := (s.accept w).engine.report x } := by
  have h : (s.accept w).tickDecode = { s.accept w with engine := (s.accept w).engine.report x } := by
    unfold State.tickDecode
    rw [show (s.accept w).engine.cw = w from rfl, hd]
  unfold State.issue
  rw [h]
  exact if_neg (by simp [Engine.report])

/-- Out of `FAIL` a rejected word completes as at the command level (R104, R106, R108, R304). -/
theorem issue_error_tick {s : State} {w : Word} {x : Err} (hd : decodeChecks w = .error x) :
    (s.issue w).tick = (s.accept w).completeErr none x := by
  rw [issue_error hd]
  have hc : commandOf w = none := by unfold commandOf; rw [hd]
  show State.completeErr _ (commandOf w) x = _
  rw [hc]
  rfl

/-- A CMD write of a command (R105, R107). -/
theorem issue_ok {s : State} {w : Word} {i : Instr} (hd : decodeChecks w = .ok i) :
    s.issue w = (s.accept w).latch i := by
  have h : (s.accept w).tickDecode =
      { s.accept w with engine := { (s.accept w).engine with phase := .latch } } := by
    unfold State.tickDecode
    rw [show (s.accept w).engine.cw = w from rfl, hd]
  unfold State.issue
  rw [h]
  refine (if_pos rfl).trans ?_
  unfold State.tickLatch
  have hc : commandOf w = some i := by unfold commandOf; rw [hd]
  simp only [show (s.accept w).engine.cw = w from rfl, hc]
  rfl

end Sys2Proof.Machine
end

