-- ==== Sys2Proof/Laws/Montgomery.lean ====
section
/-! SUPPORT. The limb algorithm of the Montgomery block, loop by loop (40_montgomery.md R133, R134): what each loop
adds to the accumulator, and that no limb overflows. -/

namespace Sys2Proof.Machine

/-- The weight of limb `j`. -/
def limbWeight (j : Nat) : Nat := 2 ^ (32 * j)

/-- The value of the limbs below `c`. -/
def lowLimbs (c t : Nat) : Nat := t % limbWeight c

theorem limbWeight_succ (j : Nat) : limbWeight (j + 1) =
    2 ^ 32 * limbWeight j := by unfold limbWeight; rw [← pow_add]; ring_nf
theorem limbWeight_zero : limbWeight 0 = 1 := rfl

theorem lowLimbs_succ (c t : Nat) : lowLimbs (c + 1) t = lowLimbs c t + limb t c * limbWeight c := by
  have h3 : 2 ^ (32 * (c + 1)) = 2 ^ (32 * c) * 2 ^ 32 := by rw [← pow_add]; ring_nf
  show t % 2 ^ (32 * (c + 1)) = _
  rw [h3, Nat.mod_mul]; unfold limb lowLimbs limbWeight; ring

theorem lowLimbs_setLimb_le {c j t w : Nat} (hw : w < 2 ^ 32) (h : c ≤ j) : lowLimbs c (setLimb t j w) =
    lowLimbs c t := by
  induction c with
  | zero => simp [lowLimbs, limbWeight, Nat.mod_one]
  | succ c ih => rw [lowLimbs_succ, lowLimbs_succ, ih (by omega), limb_setLimb_other _ hw (by omega)]

theorem lowLimbs_setLimb_gt {c j t w : Nat} (hw : w < 2 ^ 32) (h : j < c) :
    lowLimbs c (setLimb t j w) + limb t j * limbWeight j = lowLimbs c t + w * limbWeight j := by
  induction c with
  | zero => omega
  | succ c ih =>
    rw [lowLimbs_succ, lowLimbs_succ]
    by_cases hj : j = c
    · subst hj; rw [lowLimbs_setLimb_le hw (le_refl _), limb_setLimb_same _ _ hw]; ring
    · rw [limb_setLimb_other _ hw (by omega)]
      have := ih (by omega)
      omega

theorem divB (v : Nat) : v % 2 ^ 32 + 2 ^ 32 * (v / 2 ^ 32) = v := Nat.mod_add_div v _

theorem carry_lt {x y z c : Nat} (hx : x < 2 ^ 32) (hy : y < 2 ^ 32) (hz : z < 2 ^ 32) (hc : c < 2 ^ 32) :
    (x + y * z + c) / 2 ^ 32 < 2 ^ 32 := by
  rw [Nat.div_lt_iff_lt_mul (by norm_num)]
  have : y * z ≤ (2 ^ 32 - 1) * (2 ^ 32 - 1) := Nat.mul_le_mul (by omega) (by omega)
  omega

/-- The inner loop adds `a * bi` to the accumulator, its carry above (R134). -/
theorem addProduct_spec (a bi : Nat) (hb : bi < 2 ^ 32) : ∀ k j c t, c < 2 ^ 32 →
    (addProduct a bi k j c t).1 < 2 ^ 32 ∧
    lowLimbs (j + k) (addProduct a bi k j c t).2 + (addProduct a bi k j c t).1 * limbWeight
        (j + k) + lowLimbs j a * bi
      = lowLimbs (j + k) t + lowLimbs (j + k) a * bi + c * limbWeight j ∧
    (∀ l, j + k ≤ l → limb (addProduct a bi k j c t).2 l = limb t l) ∧
    (∀ W, j + k ≤ W → t < limbWeight W → (addProduct a bi k j c t).2 < limbWeight W) := by
  intro k
  induction k with
  | zero => intro j c t hc; exact ⟨hc, by simp [addProduct]; ring, fun l _ => rfl, fun W _ h => h⟩
  | succ k ih =>
    intro j c t hc
    simp only [addProduct]
    have hv := carry_lt (limb_lt t j) (limb_lt a j) hb hc
    have hd := divB (limb t j + limb a j * bi + c)
    generalize hV : limb t j + limb a j * bi + c = v at *
    obtain ⟨h1, h2, h3, h4⟩ := ih (j + 1) (v / 2 ^ 32) (setLimb t j (v % 2 ^ 32)) hv
    have hm : v % 2 ^ 32 < 2 ^ 32 := Nat.mod_lt _ (by norm_num)
    generalize addProduct a bi k (j + 1) (v / 2 ^ 32) (setLimb t j (v % 2 ^ 32)) = r at *
    refine ⟨h1, ?_, fun l hl => ?_, fun W hW ht => h4 W (by omega) (setLimb_lt ht (by omega) hm)⟩
    · have e : j + (k + 1) = j + 1 + k := by omega
      rw [e]
      have g := lowLimbs_setLimb_gt (c := j + 1 + k) (t := t) hm (show j < j + 1 + k by omega)
      rw [lowLimbs_succ j a, limbWeight_succ] at h2
      zify at h2 g hd hV ⊢
      linear_combination h2 + g + (limbWeight j : ℤ) * hd - (limbWeight j : ℤ) * hV
    · rw [h3 l (by omega), limb_setLimb_other _ hm (by omega)]

/-- The reducing loop adds `m * n` and drops the lowest limb, its carry above (R134). -/
theorem shiftReduce_spec (n m : Nat) (hb : m < 2 ^ 32) : ∀ k j c t, c < 2 ^ 32 →
    (shiftReduce n m k (j + 1) c t).1 < 2 ^ 32 ∧
    2 ^ 32 * lowLimbs (j + k) (shiftReduce n m k (j + 1) c t).2 + (shiftReduce n m k (j + 1) c t).1 * limbWeight
        (j + 1 + k) + lowLimbs (j + 1) t + m * lowLimbs (j + 1) n
      = 2 ^ 32 * lowLimbs j t + lowLimbs (j + 1 + k) t + m * lowLimbs (j + 1 + k) n + c * limbWeight (j + 1) ∧
    (∀ l, j + k ≤ l → limb (shiftReduce n m k (j + 1) c t).2 l = limb t l) ∧
    (∀ W, j + k ≤ W → t < limbWeight W → (shiftReduce n m k (j + 1) c t).2 < limbWeight W) := by
  intro k
  induction k with
  | zero => intro j c t hc; exact ⟨hc, by simp [shiftReduce]; ring, fun l _ => rfl, fun W _ h => h⟩
  | succ k ih =>
    intro j c t hc
    simp only [shiftReduce, Nat.add_sub_cancel]
    have hv := carry_lt (limb_lt t (j + 1)) hb (limb_lt n (j + 1)) hc
    have hd := divB (limb t (j + 1) + m * limb n (j + 1) + c)
    generalize hV : limb t (j + 1) + m * limb n (j + 1) + c = v at *
    have hm : v % 2 ^ 32 < 2 ^ 32 := Nat.mod_lt _ (by norm_num)
    obtain ⟨h1, h2, h3, h4⟩ := ih (j + 1) (v / 2 ^ 32) (setLimb t j (v % 2 ^ 32)) hv
    generalize shiftReduce n m k (j + 1 + 1) (v / 2 ^ 32) (setLimb t j (v % 2 ^ 32)) = r at *
    refine ⟨h1, ?_, fun l hl => ?_, fun W hW ht => h4 W (by omega) (setLimb_lt ht (by omega) hm)⟩
    · have e : j + (k + 1) = j + 1 + k := by omega
      have e' : j + 1 + (k + 1) = j + 1 + 1 + k := by omega
      rw [e, e']
      have g := lowLimbs_setLimb_gt (c := j + 1 + 1 + k) (t := t) hm (show j < j + 1 + 1 + k by omega)
      have g2 := lowLimbs_setLimb_gt (c := j + 1) (t := t) hm (show j < j + 1 by omega)
      have g3 := lowLimbs_setLimb_gt (c := j + 1 + 1) (t := t) hm (show j < j + 1 + 1 by omega)
      have g4 := lowLimbs_succ (j + 1) t
      have g5 := lowLimbs_succ j t
      have g6 := lowLimbs_succ (j + 1) n
      rw [limbWeight_succ (j + 1)] at h2
      have hP : ((limbWeight (j + 1) : ℕ) : ℤ) = 2 ^ 32 *
          (limbWeight j : ℤ) := by rw [limbWeight_succ j]; push_cast; ring
      zify at h2 g g2 g3 g4 g5 g6 hd hV ⊢
      push_cast at *
      linear_combination h2 + g - g3 + (2^32 : ℤ) * g2 + (limbWeight (j + 1) : ℤ) * hd -
          (limbWeight (j + 1) : ℤ) * hV - g4 - (m:ℤ) * g6  + (2^32 : ℤ) * g5 - ((v:ℤ) % 4294967296) * hP
    · rw [h3 l (by omega), limb_setLimb_other _ hm (by omega)]

theorem lowLimbs_zero (t : Nat) : lowLimbs 0 t = 0 := by simp [lowLimbs, limbWeight, Nat.mod_one]
theorem lowLimbs_of_lt {c t : Nat} (h : t < limbWeight c) : lowLimbs c t = t := Nat.mod_eq_of_lt h
theorem lowLimbs_lt (c t : Nat) : lowLimbs c t < limbWeight c := Nat.mod_lt _ (Nat.two_pow_pos _)
theorem limbWeight_pos (c : Nat) : 0 < limbWeight c := Nat.two_pow_pos _

/-- The first half of a pass. -/
theorem mulHalf_spec {a b s i t : Nat} (ha : a < limbWeight s) (ht : t < limbWeight (s + 2)) :
    mulHalf a b s i t = lowLimbs (s + 1) t + a * limb b i ∧ mulHalf a b s i t < limbWeight (s + 2) := by
  obtain ⟨h1, h2, h3, h4⟩ := addProduct_spec a (limb b i) (limb_lt b i) s 0 0 t (by norm_num)
  have h5 := h4 (s + 2) (by omega) ht
  unfold mulHalf
  simp only
  generalize addProduct a (limb b i) s 0 0 t = r at *
  simp only [Nat.zero_add, lowLimbs_zero, limbWeight_zero, lowLimbs_of_lt ha] at h2 h3
  have hd := divB (limb r.2 s + r.1)
  have hv : (limb r.2 s + r.1) / 2 ^ 32 < 2 ^ 32 := by
    have := limb_lt r.2 s
    omega
  generalize hV : limb r.2 s + r.1 = v at *
  have hm : v % 2 ^ 32 < 2 ^ 32 := Nat.mod_lt _ (by norm_num)
  have hlt : setLimb (setLimb r.2 s (v % 2 ^ 32)) (s + 1) (v / 2 ^ 32) < limbWeight (s + 2) :=
    setLimb_lt (setLimb_lt h5 (by omega) hm) (by omega) hv
  refine ⟨?_, hlt⟩
  rw [← lowLimbs_of_lt hlt, show s + 2 = s + 1 + 1 from rfl, lowLimbs_succ (s + 1), limb_setLimb_same _ _ hv,
      lowLimbs_setLimb_le hv (le_refl _),
    lowLimbs_succ, limb_setLimb_same _ _ hm, lowLimbs_setLimb_le hm (le_refl _), lowLimbs_succ, limbWeight_succ]
  rw [h3 s (le_refl _)] at hV
  zify at h2 hd hV ⊢
  linear_combination h2 + (limbWeight s : ℤ) * hd - (limbWeight s : ℤ) * hV

theorem redHalf_final {k r v x t : Nat} (hm : v % 2 ^ 32 < 2 ^ 32) (hz2 : x + v / 2 ^ 32 < 2 ^ 32)
    (hd : v % 2 ^ 32 + 2 ^ 32 * (v / 2 ^ 32) = v)
    (key : 2 ^ 32 * (lowLimbs k r + v * limbWeight k + x * limbWeight (k + 1)) = t) :
    2 ^ 32 * lowLimbs (k + 1 + 1) (setLimb (setLimb r k (v % 2 ^ 32)) (k + 1) (x + v / 2 ^ 32)) = t := by
  rw [lowLimbs_succ, limb_setLimb_same _ _ hz2, lowLimbs_setLimb_le hz2 (le_refl _), lowLimbs_succ,
      limb_setLimb_same _ _ hm, lowLimbs_setLimb_le hm (le_refl _), ← key]
  have hP1 := limbWeight_succ k
  generalize limbWeight (k + 1) = p1 at *
  generalize limbWeight k = p0 at *
  generalize v % 2 ^ 32 = a at *
  generalize v / 2 ^ 32 = b at *
  subst hP1 hd
  ring

/-- The second half of a pass, when nothing overflows: an exact division by `2^32`. -/
theorem redHalf_spec {n s t : Nat} {np : Word} (hs : 1 ≤ s) (hn : n < limbWeight s) (ht : t < limbWeight (s + 2))
    (hz : (limb t 0 + limb t 0 * np.toNat % 2 ^ 32 * limb n 0) % 2 ^ 32 = 0)
    (hb : t + limb t 0 * np.toNat % 2 ^ 32 * n < limbWeight (s + 2)) :
    2 ^ 32 * lowLimbs (s + 1) (redHalf n s np t) = t + limb t 0 * np.toNat % 2 ^ 32 * n ∧
        redHalf n s np t < limbWeight (s + 2) := by
  unfold redHalf
  simp only
  have hmlt : limb t 0 * np.toNat % 2 ^ 32 < 2 ^ 32 := Nat.mod_lt _ (by norm_num)
  generalize limb t 0 * np.toNat % 2 ^ 32 = m at *
  have hc0 : (limb t 0 + m * limb n 0) / 2 ^ 32 < 2 ^ 32 := by
    have := carry_lt (limb_lt t 0) hmlt (limb_lt n 0) (show 0 < 2 ^ 32 by norm_num)
    simpa using this
  have hd0 := divB (limb t 0 + m * limb n 0)
  rw [hz, Nat.zero_add] at hd0
  generalize (limb t 0 + m * limb n 0) / 2 ^ 32 = c0 at *
  obtain ⟨k, rfl⟩ : ∃ k, s = k + 1 := ⟨s - 1, by omega⟩
  simp only [Nat.add_sub_cancel]
  obtain ⟨h1, h2, h3, h4⟩ := shiftReduce_spec n m hmlt k 0 c0 t hc0
  have h5 := h4 (k + 1 + 2) (by omega) ht
  simp only [Nat.zero_add] at h1 h2 h3 h5
  generalize shiftReduce n m k 1 c0 t = r at *
  have e1 : (0 + 1 + k) = k + 1 := by omega
  simp only [lowLimbs_zero] at h2
  rw [show 1 + k = k + 1 by omega] at h2
  have t1 : lowLimbs 1 t =
      limb t 0 := by have := lowLimbs_succ 0 t; rw [lowLimbs_zero] at this; simpa [limbWeight] using this
  have n1 : lowLimbs 1 n =
      limb n 0 := by have := lowLimbs_succ 0 n; rw [lowLimbs_zero] at this; simpa [limbWeight] using this
  have p1 : limbWeight 1 = 2 ^ 32 := rfl
  rw [t1, n1, p1, lowLimbs_of_lt hn, limbWeight_succ] at h2
  have hd := divB (limb r.2 (k + 1) + r.1)
  have hvlt : (limb r.2 (k + 1) + r.1) / 2 ^ 32 < 2 ^ 32 := by have := limb_lt r.2 (k + 1); omega
  generalize hV : limb r.2 (k + 1) + r.1 = v at *
  have hm : v % 2 ^ 32 < 2 ^ 32 := Nat.mod_lt _ (by norm_num)
  rw [h3 (k + 1) (by omega)] at hV
  have l1 : limb (setLimb r.2 k (v % 2 ^ 32)) (k + 1 + 1) = limb t (k + 1 + 1) := by
    rw [limb_setLimb_other _ hm (by omega), h3 _ (by omega)]
  rw [l1]
  have tt : t = lowLimbs (k + 1) t + limb t (k + 1) * limbWeight (k + 1) + limb t (k + 1 + 1) * limbWeight
      (k + 1 + 1) := by
    have g0 : lowLimbs (k + 1 + 1 + 1) t = t := lowLimbs_of_lt ht
    have g1 := lowLimbs_succ (k + 1 + 1) t
    have g2 := lowLimbs_succ (k + 1) t
    rw [g0, g2] at g1
    exact g1
  have key : 2 ^ 32 * (lowLimbs k r.2 + v * limbWeight k + limb t (k + 1 + 1) * limbWeight (k + 1)) =
      t + m * n := by
    have hP1 : ((limbWeight (k + 1) : ℕ) : ℤ) = 2 ^ 32 *
        (limbWeight k : ℤ) := by rw [limbWeight_succ k]; push_cast; ring
    have hP2 : ((limbWeight (k + 1 + 1) : ℕ) : ℤ) = 2 ^ 32 *
        (limbWeight (k + 1) : ℤ) := by rw [limbWeight_succ (k + 1)]; push_cast; ring
    zify at h2 hd hV hd0 tt ⊢
    rw [hP2] at tt
    rw [hP1] at tt ⊢
    linear_combination h2 - tt + hd0 - (2 ^ 32 * limbWeight k : ℤ) * hV
  have hz2 : limb t (k + 1 + 1) + v / 2 ^ 32 < 2 ^ 32 := by
    by_contra hcon
    have : limbWeight (k + 1 + 2) ≤ 2 ^ 32 * (lowLimbs k r.2 + v * limbWeight k + limb t (k + 1 + 1) * limbWeight
        (k + 1)) := by
      have hge : 2 ^ 32 ≤ limb t (k + 1 + 1) + v / 2 ^ 32 := by omega
      have : 2 ^ 32 * limbWeight (k + 1) ≤ (limb t (k + 1 + 1) + v / 2 ^ 32) * limbWeight (k + 1) :=
          Nat.mul_le_mul_right _ hge
      have h6 : v / 2 ^ 32 * limbWeight (k + 1) ≤ v * limbWeight k := by
        rw [limbWeight_succ, ← Nat.mul_assoc]
        exact Nat.mul_le_mul_right _ (Nat.div_mul_le_self _ _)
      rw [show k + 1 + 2 = k + 1 + 1 + 1 from rfl, limbWeight_succ, limbWeight_succ (k + 1)]
      apply Nat.mul_le_mul_left
      rw [Nat.add_mul] at this
      omega
    omega
  rw [Nat.mod_eq_of_lt hz2]
  refine ⟨?_, setLimb_lt (setLimb_lt h5 (by omega) hm) (by omega) hz2⟩
  exact redHalf_final hm hz2 hd key


/-- The outer passes keep the accumulator below `2 n` and congruent (R134, R135). -/
theorem mulPasses_spec {a b n s : Nat} {np : Word} (hs : 1 ≤ s) (hn : n < limbWeight s) (ha : a < n)
    (hnp : (np.toNat * n) % 2 ^ 32 = 2 ^ 32 - 1) : ∀ k i t, t < limbWeight (s + 2) → lowLimbs (s + 1) t < 2 * n →
    lowLimbs (s + 1) t * limbWeight i ≡ a * lowLimbs i b [MOD n] →
    mulPasses a b n s np k i t < limbWeight (s + 2) ∧ lowLimbs (s + 1) (mulPasses a b n s np k i t) < 2 * n ∧
    lowLimbs (s + 1) (mulPasses a b n s np k i t) * limbWeight (i + k) ≡ a * lowLimbs (i + k) b [MOD n] := by
  intro k
  induction k with
  | zero => intro i t h1 h2 h3; exact ⟨h1, h2, h3⟩
  | succ k ih =>
    intro i t h1 h2 h3
    simp only [mulPasses]
    obtain ⟨g1, g2⟩ := mulHalf_spec (b := b) (i := i) (ha.trans hn) h1
    generalize mulHalf a b s i t = T at *
    have hbi := limb_lt b i
    have hml : limb T 0 * np.toNat % 2 ^ 32 < 2 ^ 32 := Nat.mod_lt _ (by norm_num)
    have hz : (limb T 0 + limb T 0 * np.toNat % 2 ^ 32 * limb n 0) % 2 ^ 32 = 0 := by
      have e : limb n 0 = n % 2 ^ 32 := by simp [limb]
      have h5 : (np.toNat * (n % 2 ^ 32)) % 2 ^ 32 = 2 ^ 32 - 1 := by rw [← hnp, Nat.mul_mod_mod]
      rw [e]
      have : (limb T 0 * np.toNat % 2 ^ 32 * (n % 2 ^ 32)) % 2 ^ 32 = (limb T 0 * (2 ^ 32 - 1)) % 2 ^ 32 := by
        rw [Nat.mod_mul_mod, Nat.mul_assoc, Nat.mul_mod, h5, ← Nat.mul_mod_mod, Nat.mod_mul_mod]
        simp
      rw [Nat.add_mod, this, ← Nat.add_mod]
      have : limb T 0 + limb T 0 * (2 ^ 32 - 1) = 2 ^ 32 * limb T 0 := by ring
      rw [this, Nat.mul_mod_right]
    have hsum : T + limb T 0 * np.toNat % 2 ^ 32 * n < 2 ^ 32 * (2 * n) := by
      have e1 : a * limb b i ≤ (n - 1) * (2 ^ 32 - 1) := Nat.mul_le_mul (by omega) (by omega)
      have e2 : limb T 0 * np.toNat % 2 ^ 32 * n ≤ (2 ^ 32 - 1) * n := Nat.mul_le_mul_right _ (by omega)
      have e3 : (n - 1) * (2 ^ 32 - 1) + (2 ^ 32 - 1) = n * (2 ^ 32 - 1) := by
        obtain ⟨q, rfl⟩ : ∃ q, n = q + 1 := ⟨n - 1, by omega⟩
        simp; ring
      omega
    have hb2 : 2 ^ 32 * (2 * n) ≤ limbWeight (s + 2) := by
      rw [show s + 2 = s + 1 + 1 from rfl, limbWeight_succ, limbWeight_succ]
      apply Nat.mul_le_mul_left
      have := hn
      nlinarith
    obtain ⟨r1, r2⟩ := redHalf_spec (np := np) hs hn g2 hz (by omega)
    generalize limb T 0 * np.toNat % 2 ^ 32 = m at *
    generalize redHalf n s np T = U at *
    have h6 := ih (i + 1) U r2 (by omega) ?_
    · rw [show i + (k + 1) = i + 1 + k by omega]; exact h6
    · rw [limbWeight_succ, lowLimbs_succ i]
      have : lowLimbs (s + 1) U * (2 ^ 32 * limbWeight i) = lowLimbs
          (s + 1) t * limbWeight i + a * limb b i * limbWeight i + n * (m * limbWeight i) := by
        have : 2 ^ 32 * lowLimbs (s + 1) U * limbWeight i = (T + m * n) * limbWeight i := by rw [r1]
        rw [g1] at this
        zify at this ⊢
        linear_combination this
      rw [this]
      have h7 : lowLimbs (s + 1) t * limbWeight i + a * limb b i * limbWeight i + n * (m * limbWeight i) ≡ lowLimbs
          (s + 1) t * limbWeight i + a * limb b i * limbWeight i [MOD n] := by
        unfold Nat.ModEq; rw [Nat.add_mul_mod_self_left]
      refine h7.trans ?_
      have h8 : a * (lowLimbs i b + limb b i * limbWeight i) =
          a * lowLimbs i b + a * limb b i * limbWeight i := by ring
      rw [h8]
      exact Nat.ModEq.add_right _ h3


/-- The doublings of R133. -/
theorem doublings_spec {n : Nat} (hn : 0 < n) : ∀ k x, x < n → doublings n k x < n ∧ doublings n k x =
    x * 2 ^ k % n := by
  intro k
  induction k with
  | zero => intro x hx; exact ⟨hx, by simp [doublings, Nat.mod_eq_of_lt hx]⟩
  | succ k ih =>
    intro x hx
    simp only [doublings]
    have h1 : doublePass n x < n ∧ doublePass n x = 2 * x % n := by
      unfold doublePass
      split
      · refine ⟨by omega, ?_⟩
        rw [Nat.mod_eq_sub_mod (by omega), Nat.mod_eq_of_lt (by omega)]
      · exact ⟨by omega, (Nat.mod_eq_of_lt (by omega)).symm⟩
    obtain ⟨h2, h3⟩ := ih _ h1.1
    refine ⟨h2, ?_⟩
    rw [h3, h1.2, Nat.mod_mul_mod, pow_succ]; ring_nf

end Sys2Proof.Machine
end

