-- ==== Sys2Proof/Laws/PerInstr.lean ====
section
/-! SUPPORT. The family `F` of LAWS.json: every command's word is in its own row of the opcode table. -/

/-- The word of a command has the opcode of its row, and agrees with the row's `match` under its `mask`
(R101, R102). -/
def Sys2Proof.Laws.F.Statement (i : Sys2Proof.Instr) : Prop :=
  Sys2Proof.opcodeOf (Sys2Proof.encode i) = some i.opcode ∧
    Sys2Proof.encode i &&& i.opcode.mask = i.opcode.pattern

namespace Sys2Proof.Laws.F

/-- The fields a row uses lie outside its mask. -/
theorem field_free : ∀ r : Reg,
    (∀ o ∈ [Opcode.montmul, .tomont, .frommont, .modexp, .gcd, .modinv, .genprime, .genkey, .encrypt, .decrypt],
      BitVec.ofNat 32 (2 ^ 8 * r.val) &&& o.mask = 0) ∧
    (∀ o ∈ [Opcode.montmul, .tomont, .frommont, .modexp, .gcd, .modinv, .mrtest, .encrypt, .decrypt],
      BitVec.ofNat 32 (2 ^ 12 * r.val) &&& o.mask = 0) ∧
    (∀ o ∈ [Opcode.montmul, .modexp, .gcd, .genkey, .encrypt, .decrypt],
      BitVec.ofNat 32 (2 ^ 16 * r.val) &&& o.mask = 0) ∧
    (∀ o ∈ [Opcode.montmul, .tomont, .frommont, .modexp, .modinv, .genkey, .encrypt, .decrypt],
      BitVec.ofNat 32 (2 ^ 20 * r.val) &&& o.mask = 0) := by decide

theorem montmul (d a b m : Reg) : Statement (.montmul d a b m) :=
  ⟨opcodeOf_encodeFields _ _ _ _ _, encodeFields_match ((field_free d).1 _ (by decide)) ((field_free a).2.1 _ (by decide))
    ((field_free b).2.2.1 _ (by decide)) ((field_free m).2.2.2 _ (by decide))⟩

theorem tomont (d a m : Reg) : Statement (.tomont d a m) :=
  ⟨opcodeOf_encodeFields _ _ _ _ _, encodeFields_match ((field_free d).1 _ (by decide)) ((field_free a).2.1 _ (by decide))
    (by decide) ((field_free m).2.2.2 _ (by decide))⟩

theorem frommont (d a m : Reg) : Statement (.frommont d a m) :=
  ⟨opcodeOf_encodeFields _ _ _ _ _, encodeFields_match ((field_free d).1 _ (by decide)) ((field_free a).2.1 _ (by decide))
    (by decide) ((field_free m).2.2.2 _ (by decide))⟩

theorem modexp (d a b m : Reg) : Statement (.modexp d a b m) :=
  ⟨opcodeOf_encodeFields _ _ _ _ _, encodeFields_match ((field_free d).1 _ (by decide)) ((field_free a).2.1 _ (by decide))
    ((field_free b).2.2.1 _ (by decide)) ((field_free m).2.2.2 _ (by decide))⟩

theorem gcd (d a b : Reg) : Statement (.gcd d a b) :=
  ⟨opcodeOf_encodeFields _ _ _ _ _, encodeFields_match ((field_free d).1 _ (by decide)) ((field_free a).2.1 _ (by decide))
    ((field_free b).2.2.1 _ (by decide)) (by decide)⟩

theorem modinv (d a m : Reg) : Statement (.modinv d a m) :=
  ⟨opcodeOf_encodeFields _ _ _ _ _, encodeFields_match ((field_free d).1 _ (by decide)) ((field_free a).2.1 _ (by decide))
    (by decide) ((field_free m).2.2.2 _ (by decide))⟩

theorem mrtest (a : Reg) : Statement (.mrtest a) :=
  ⟨opcodeOf_encodeFields _ _ _ _ _, encodeFields_match (by decide) ((field_free a).2.1 _ (by decide))
    (by decide) (by decide)⟩

theorem genprime (d : Reg) : Statement (.genprime d) :=
  ⟨opcodeOf_encodeFields _ _ _ _ _, encodeFields_match ((field_free d).1 _ (by decide)) (by decide)
    (by decide) (by decide)⟩

theorem genkey (d b m : Reg) : Statement (.genkey d b m) :=
  ⟨opcodeOf_encodeFields _ _ _ _ _, encodeFields_match ((field_free d).1 _ (by decide)) (by decide)
    ((field_free b).2.2.1 _ (by decide)) ((field_free m).2.2.2 _ (by decide))⟩

theorem encrypt (d a b m : Reg) : Statement (.encrypt d a b m) :=
  ⟨opcodeOf_encodeFields _ _ _ _ _, encodeFields_match ((field_free d).1 _ (by decide)) ((field_free a).2.1 _ (by decide))
    ((field_free b).2.2.1 _ (by decide)) ((field_free m).2.2.2 _ (by decide))⟩

theorem decrypt (d a b m : Reg) : Statement (.decrypt d a b m) :=
  ⟨opcodeOf_encodeFields _ _ _ _ _, encodeFields_match ((field_free d).1 _ (by decide)) ((field_free a).2.1 _ (by decide))
    ((field_free b).2.2.1 _ (by decide)) ((field_free m).2.2.2 _ (by decide))⟩

theorem zeroize : Statement .zeroize :=
  ⟨opcodeOf_encodeFields _ _ _ _ _, encodeFields_match (by decide) (by decide)
    (by decide) (by decide)⟩

end Sys2Proof.Laws.F
end

