-- ==== Sys2Proof/Laws/Primality.lean ====
section
/-! SUPPORT. The tester on given words of the port (43_primality.md R201 to R209). -/

namespace Sys2Proof.Machine

/-- `DrawBits(k)` on the words `ws` (R221). -/
theorem drawBits_of {k : Nat} {d : Draws} {ws rest : List Word} (hl : ws.length = wordsFor k)
    (hw : d.words = ws ++ rest) :
    drawBits k d = .ok (drawValue k ws) (d.after ws.length) := by
  rw [drawBits_eq, if_pos (by rw [hw, List.length_append]; omega), ← hl, hw, List.take_left]
  rfl

/-- What is left after the words `ws`. -/
theorem Draws.after_words {d : Draws} {ws rest : List Word} (hw : d.words = ws ++ rest) :
    (d.after ws.length).words = rest := by
  simp [Draws.after, hw]

/-- Rejected draws are taken and counted against the bound (R204). -/
theorem drawBase_rejects {n : Nat} : ∀ (bad : List (List Word)) (j : Nat) (d : Draws) (rest : List Word),
    (∀ ws ∈ bad, RejectedDraw n ws) →
    d.words = bad.flatten ++ rest → drawBase n (bad.length + j) d = drawBase n j (d.after bad.flatten.length)
  | [], j, d, rest, _, _ => by simp [Draws.after_zero]
  | ws :: bad, j, d, rest, h, hw => by
    obtain ⟨h1, h2⟩ := h ws (List.mem_cons_self ..)
    have hw' : d.words = ws ++ (bad.flatten ++ rest) := by rw [hw]; simp
    rw [List.length_cons, show bad.length + 1 + j =
        bad.length + j + 1 by omega, drawBase, drawBits_of h1 hw', Gen.andThen]
    rw [if_neg (by simpa [baseInRange] using h2), drawBase_rejects bad j (d.after ws.length) rest
        (fun w hm => h w (List.mem_cons_of_mem _ hm)) (Draws.after_words hw'),
      Draws.after_after, List.flatten_cons, List.length_append]

/-- `DrawBase(n)` on the words of one base (R204). -/
theorem drawBase_of {n K : Nat} {r : BaseDraws} {d : Draws} {rest : List Word} (hr : r.Valid n)
    (hK : r.rejected.length < K)
    (hw : d.words = r.words ++ rest) : drawBase n K d = .ok (r.base n) (d.after r.words.length) := by
  obtain ⟨j, rfl⟩ : ∃ j, K = r.rejected.length + (j + 1) := ⟨K - r.rejected.length - 1, by omega⟩
  have hw' : d.words = r.rejected.flatten ++ (r.accepted ++ rest) := by rw [hw]; simp [BaseDraws.words]
  rw [drawBase_rejects _ _ _ _ hr.outside hw', drawBase, drawBits_of hr.size (Draws.after_words hw'), Gen.andThen,
    if_pos (by simpa [baseInRange, BaseDraws.base] using hr.inside)]
  simp [Draws.after_after, BaseDraws.words, BaseDraws.base]

/-- `DrawBase(n)` fails when every draw is rejected (R204). -/
theorem drawBase_fails {n : Nat} {bad : List (List Word)} {d : Draws} {rest : List Word}
    (h : ∀ ws ∈ bad, RejectedDraw n ws)
    (hw : d.words = bad.flatten ++ rest) : drawBase n bad.length d = .err .rngReject (d.after bad.flatten.length) :=
  drawBase_rejects bad 0 d rest h hw

/-! ### Decomposition and rounds (R203, R205, R206) -/
/-- Trailing zeros divide out to an odd part. -/
theorem trailingZeros_spec : ∀ k v, 0 < v → v < 2 ^ k → ∃ q, v = 2 ^ trailingZeros k v * q ∧ q % 2 = 1
  | 0, v, h, h2 => by simp at h2; omega
  | k + 1, v, h, h2 => by
    rw [trailingZeros]
    split
    · obtain ⟨q, h3, h4⟩ := trailingZeros_spec k (v / 2) (by omega) (by rw [pow_succ] at h2; omega)
      refine ⟨q, ?_, h4⟩
      rw [pow_succ]
      have : v = 2 * (v / 2) := by omega
      rw [this]; nth_rewrite 1 [h3]; rw [← this]; ring
    · exact ⟨v, by simp, by omega⟩

/-- `n - 1 = 2^TS * TD` with `TD` odd (R203). -/
theorem decompose_spec {n : Nat} (h : 2 ≤ n) : n - 1 = 2 ^ decomposeS n * decomposeD n ∧ decomposeD n % 2 = 1 := by
  obtain ⟨q, h1, h2⟩ := trailingZeros_spec (bitLength (n - 1)) (n - 1) (by omega) (lt_two_pow_bitLength _)
  have : decomposeD n = q := by
    unfold decomposeD decomposeS
    nth_rewrite 1 [h1]
    exact Nat.mul_div_cancel_left _ (Nat.two_pow_pos _)
  rw [this]; exact ⟨h1, h2⟩

/-- The decomposition is unique. -/
theorem decompose_unique {S D S' D' : Nat} (h : 2 ^ S * D = 2 ^ S' * D') (hD : D % 2 = 1) (hD' : D' % 2 = 1) :
    S = S' ∧ D = D' := by
  induction S generalizing S' with
  | zero =>
    cases S' with
    | zero => simpa using h
    | succ j =>
      have : D = 2 * (2 ^ j * D') := by rw [pow_zero, one_mul, pow_succ] at h; rw [h]; ring
      omega
  | succ j ih =>
    cases S' with
    | zero =>
      have : D' = 2 * (2 ^ j * D) := by rw [pow_zero, one_mul, pow_succ] at h; rw [← h]; ring
      omega
    | succ j' =>
      have h2 : 2 * (2 ^ j * D) = 2 * (2 ^ j' * D') := by
        rw [pow_succ, pow_succ] at h
        linarith
      have := ih (S' := j') (Nat.eq_of_mul_eq_mul_left (by norm_num) h2)
      exact ⟨by omega, this.2⟩

/-- The strong test in terms of the decomposition the engine computes. -/
theorem strongPasses_iff {n a : Nat} (h : 2 ≤ n) : StrongPasses n a ↔
    a ^ decomposeD n % n = 1 ∨ ∃ j, j < decomposeS n ∧ a ^ (2 ^ j * decomposeD n) % n = n - 1 := by
  obtain ⟨h1, h2⟩ := decompose_spec h
  constructor
  · rintro ⟨S, D, g1, g2, g3⟩
    obtain ⟨rfl, rfl⟩ := decompose_unique (g1.symm.trans h1) g2 h2
    exact g3
  · exact fun g => ⟨_, _, h1, h2, g⟩

theorem decomposeS_pos {n : Nat} (h : 3 ≤ n) (ho : n % 2 = 1) : 1 ≤ decomposeS n := by
  obtain ⟨h1, h2⟩ := decompose_spec (n := n) (by omega)
  by_contra hc
  have : decomposeS n = 0 := by omega
  rw [this, pow_zero, one_mul] at h1
  omega

/-- The squarings reach `n - 1` exactly when one of the powers is `n - 1` (R206). -/
theorem squaresPass_iff {n : Nat} (h : 3 ≤ n) : ∀ k x, squaresPass n k x = true ↔ ∃ j, 1 ≤ j ∧ j ≤ k ∧
    x ^ 2 ^ j % n = n - 1
  | 0, x => by simp [squaresPass]
  | k + 1, x => by
    rw [squaresPass]
    have e1 : x * x % n = x ^ 2 ^ 1 % n := by rw [pow_one, pow_two]
    have key : ∀ j, (x * x % n) ^ 2 ^ j % n = x ^ 2 ^ (j + 1) % n := by
      intro j; rw [← Nat.pow_mod, ← pow_two, ← pow_mul, ← pow_succ']
    split
    · rename_i h1
      exact iff_of_true rfl ⟨1, le_refl _, by omega, e1.symm.trans h1⟩
    · rename_i h1
      split
      · rename_i h2
        refine iff_of_false (by simp) ?_
        rintro ⟨j, h3, h4, h5⟩
        obtain ⟨j, rfl⟩ : ∃ i, j = i + 1 := ⟨j - 1, by omega⟩
        rw [← key, h2, one_pow, Nat.mod_eq_of_lt (by omega)] at h5
        omega
      · rw [squaresPass_iff h k]
        constructor
        · rintro ⟨j, h3, h4, h5⟩; exact ⟨j + 1, by omega, by omega, by rw [← key]; exact h5⟩
        · rintro ⟨j, h3, h4, h5⟩
          obtain ⟨j, rfl⟩ : ∃ i, j = i + 1 := ⟨j - 1, by omega⟩
          refine ⟨j, ?_, by omega, by rw [key]; exact h5⟩
          by_contra hc
          have : j = 0 := by omega
          subst this
          exact h1 (by rw [e1]; exact h5)

/-- The round of R205, R206 is the strong test. -/
theorem roundPasses_iff {n a : Nat} (h : 3 ≤ n) (ho : n % 2 = 1) : roundPasses n a = true ↔ StrongPasses n a := by
  rw [strongPasses_iff (by omega)]
  have hS := decomposeS_pos h ho
  unfold roundPasses
  simp only [modExp_eq]
  have key : ∀ j, (a ^ decomposeD n % n) ^ 2 ^ j % n = a ^ (2 ^ j * decomposeD n) % n := by
    intro j; rw [← Nat.pow_mod, ← pow_mul, mul_comm]
  split
  · rename_i h1
    simp only [true_iff]
    rcases h1 with h1 | h1
    · exact .inl h1
    · exact .inr ⟨0, hS, by rw [← key, pow_zero, pow_one, Nat.mod_mod]; exact h1⟩
  · rename_i h1
    rw [not_or] at h1
    rw [squaresPass_iff h]
    constructor
    · rintro ⟨j, h3, h4, h5⟩; exact .inr ⟨j, by omega, by rw [← key]; exact h5⟩
    · rintro (h3 | ⟨j, h4, h5⟩)
      · exact absurd h3 h1.1
      · refine ⟨j, ?_, by omega, by rw [key]; exact h5⟩
        by_contra hc
        have : j = 0 := by omega
        subst this
        rw [← key, pow_zero, pow_one, Nat.mod_mod] at h5
        exact h1.2 h5


/-- Rounds that pass (R201). -/
theorem testRounds_pass {n : Nat} (h : 3 ≤ n) (ho : n % 2 = 1) : ∀ (rs : List BaseDraws) (j : Nat) (d : Draws)
    (rest : List Word), AllPass n rs →
    d.words = rs.flatMap BaseDraws.words ++ rest → testRounds n (rs.length + j) d = testRounds n j
        (d.after (rs.flatMap BaseDraws.words).length)
  | [], j, d, rest, _, _ => by simp [Draws.after_zero]
  | r :: rs, j, d, rest, hp, hw => by
    obtain ⟨h1, h2⟩ := hp r (List.mem_cons_self ..)
    have hw' : d.words = r.words ++ (rs.flatMap BaseDraws.words ++ rest) := by rw [hw]; simp
    rw [List.length_cons, show rs.length + 1 + j =
        rs.length + j + 1 by omega, testRounds, drawBase_of (K := Config.baseRejectCap) h1 h1.few hw', Gen.andThen,
      if_pos ((roundPasses_iff h ho).2 h2), testRounds_pass h ho rs j _ rest
          (fun r hm => hp r (List.mem_cons_of_mem _ hm)) (Draws.after_words hw'),
      Draws.after_after, List.flatMap_cons, List.length_append]

/-- `MRT(n, rounds)` on the words of a verdict (R201 to R209). -/
theorem millerRabin_of {n rounds : Nat} {ws rest : List Word} {v : Bool} {d : Draws} (hv : Verdict n rounds ws v)
    (hw : d.words = ws ++ rest) :
    millerRabin n rounds d = .ok v (d.after ws.length) := by
  unfold Verdict at hv
  unfold millerRabin
  by_cases c1 : n < 2
  · rw [if_pos (.inl c1)] at hv; obtain ⟨rfl, rfl⟩ := hv; rw [if_pos c1]; simp [Draws.after_zero]
  rw [if_neg c1]
  by_cases c2 : n % 2 = 0
  · rw [if_pos (.inr c2)] at hv; obtain ⟨rfl, rfl⟩ := hv; rw [if_pos c2]; simp [Draws.after_zero]
  rw [if_neg c2]
  rw [if_neg (by tauto)] at hv
  by_cases c3 : n = 3
  · rw [if_pos c3] at hv; obtain ⟨rfl, rfl⟩ := hv; rw [if_pos c3]; simp [Draws.after_zero]
  rw [if_neg c3]
  rw [if_neg c3] at hv
  obtain ⟨rs, hp, ⟨rfl, rfl, rfl⟩ | ⟨hlt, r, hr, hns, rfl, rfl⟩⟩ := hv
  · have := testRounds_pass (by omega) (by omega) rs 0 d rest hp hw
    exact this
  · obtain ⟨j, hj⟩ : ∃ j, rounds = rs.length + (j + 1) := ⟨rounds - rs.length - 1, by omega⟩
    have hw' : d.words = rs.flatMap BaseDraws.words ++ (r.words ++ rest) := by rw [hw]; simp
    rw [hj, testRounds_pass (by omega) (by omega) rs _ d _ hp hw', testRounds, drawBase_of
        (K := Config.baseRejectCap) hr hr.few (Draws.after_words hw'), Gen.andThen,
      if_neg (by rw [roundPasses_iff (by omega) (by omega)]; exact hns), Draws.after_after, List.length_append]


/-- The words of a run that takes exactly `ws`. -/
theorem spent_after {s : State} {i : Instr} {ws rest : List Word} (h : s.rng = ws ++ rest) (l : Word) :
    Spent s { (s.accepted i).draws.after ws.length with latt := l } ws.length :=
  ⟨by rw [h, List.length_append]; omega, rfl, by simp [Draws.after]⟩

end Sys2Proof.Machine
end

