-- ==== Sys2Proof/Laws/PrimeGen.lean ====
section
/-! SUPPORT. The generator on given words of the port (44_primegen.md R222 to R224), and the exponent search of
the key builder (45_keygen.md R249). -/

namespace Sys2Proof.Machine

/-- One attempt (R223). -/
theorem attempt_step {k rounds c : Nat} {v : Bool} {a : Attempt} {d : Draws} {rest : List Word}
    (h : a.Ends k rounds v) (hw : d.words = a.words ++ rest) :
    primeSearch k rounds (c + 1) d = if v then .ok (a.value k) { d.after a.words.length with latt := d.latt + 1 }
      else primeSearch k rounds c { d.after a.words.length with latt := d.latt + 1 } := by
  obtain ⟨h1, h2⟩ := h
  have hw' : d.words = a.candidate ++ (a.test ++ rest) := by rw [hw]; simp [Attempt.words]
  rw [primeSearch, candidate, drawBits_of (d := { d with latt := d.latt + 1 }) h1 hw', Gen.andThen, Gen.andThen]
  have e : candidateFrom k (drawValue k a.candidate) = a.value k := rfl
  have hw2 : (Draws.after { d with latt := d.latt + 1 } a.candidate.length).words = a.test ++ rest :=
      Draws.after_words (d := { d with latt := d.latt + 1 }) hw'
  rw [e, millerRabin_of h2 hw2, Gen.andThen, Draws.after_after]
  have e2 : a.candidate.length + a.test.length = a.words.length := by simp [Attempt.words]
  rw [e2]
  rfl

/-- Rejected candidates (R223, R224). -/
theorem search_fails {k rounds : Nat} : ∀ (fails : List Attempt) (j : Nat) (d : Draws) (rest : List Word),
    (∀ a ∈ fails, a.Ends k rounds false) →
    d.words = fails.flatMap Attempt.words ++ rest → primeSearch k rounds (fails.length + j) d =
      primeSearch k rounds j
          { d.after (fails.flatMap Attempt.words).length with latt := d.latt + BitVec.ofNat 32 fails.length }
  | [], j, d, rest, _, _ => by simp [Draws.after_zero]
  | a :: fails, j, d, rest, h, hw => by
    have hw' : d.words = a.words ++ (fails.flatMap Attempt.words ++ rest) := by rw [hw]; simp
    rw [List.length_cons, show fails.length + 1 + j =
        fails.length + j + 1 by omega, attempt_step (h a (List.mem_cons_self ..)) hw', if_neg (by simp)]
    refine (search_fails fails j { d.after a.words.length with latt := d.latt + 1 } rest
        (fun x hx => h x (List.mem_cons_of_mem _ hx)) (Draws.after_words hw')).trans ?_
    congr 1
    have e : (Draws.after { d.after a.words.length with latt := d.latt + 1 } (fails.flatMap Attempt.words).length) =
      { (d.after a.words.length).after (fails.flatMap Attempt.words).length with latt := d.latt + 1 } := rfl
    rw [e, Draws.after_after, List.flatMap_cons, List.length_append]
    have e2 : d.latt + 1 + BitVec.ofNat 32 fails.length = d.latt + BitVec.ofNat 32 (fails.length + 1) := by
      rw [BitVec.ofNat_add, BitVec.add_assoc, BitVec.add_comm 1]; rfl
    simp only [e2]

/-- The loop of R223 on the words of a search. -/
theorem search_finds {k rounds cap : Nat} {fails : List Attempt} {found : Attempt} {d : Draws} {rest : List Word}
    (h : Search k rounds cap fails found)
    (hw : d.words = searchDraws fails found ++ rest) : primeSearch k rounds cap d =
      .ok (found.value k)
          { d.after (searchDraws fails found).length with latt := d.latt + BitVec.ofNat 32 (fails.length + 1) } := by
  obtain ⟨j, rfl⟩ : ∃ j, cap = fails.length + (j + 1) := ⟨cap - fails.length - 1, by have := h.few; omega⟩
  have hw' : d.words = fails.flatMap Attempt.words ++ (found.words ++ rest) := by rw [hw]; simp [searchDraws]
  rw [search_fails _ _ _ _ h.rejected hw', attempt_step h.accepted (rest := rest) (by exact Draws.after_words hw'),
      if_pos rfl]
  congr 1
  have e2 : d.latt + BitVec.ofNat 32 fails.length + 1 = d.latt + BitVec.ofNat 32 (fails.length + 1) := by
      rw [BitVec.ofNat_add, BitVec.add_assoc]; rfl
  simp only [e2]
  have e : (Draws.after
      { d.after (fails.flatMap Attempt.words).length with latt := d.latt + BitVec.ofNat 32 fails.length } found.words.length) =
      { (d.after (fails.flatMap Attempt.words).length).after found.words.length with latt := d.latt + BitVec.ofNat 32 fails.length } := rfl
  rw [e, Draws.after_after]
  simp [searchDraws]

/-- `PGEN(k)` on the words of a search (R223). -/
theorem generatePrime_finds {u : State} {k : Nat} {fails : List Attempt} {found : Attempt} {d : Draws}
    {rest : List Word} (h2 : 2 ≤ k) (hk : k ≤ u.build.maxBits)
    (h : Search k u.rounds.toNat u.attemptcap.toNat fails found)
    (hw : d.words = searchDraws fails found ++ rest) : generatePrime u k d =
      .ok (found.value k)
          { d.after (searchDraws fails found).length with latt := d.latt + BitVec.ofNat 32 (fails.length + 1) } := by
  unfold generatePrime checkPrimeLength
  rw [if_neg (by omega), if_neg (by omega)]
  simp only [Int.toNat_natCast]
  exact search_finds h hw

theorem drawValue_lt (k : Nat) (ws : List Word) : drawValue k ws < 2 ^ k := Nat.mod_lt _ (Nat.two_pow_pos _)

/-- A candidate is odd and has exactly `k` bits (R222). -/
theorem value_spec {k : Nat} (hk : 2 ≤ k) (a : Attempt) : a.value k % 2 = 1 ∧ 2 ^ (k - 1) ≤ a.value k ∧
    a.value k < 2 ^ k := by
  have h := candidateFrom_spec hk (drawValue_lt k a.candidate)
  have e : candidateFrom k (drawValue k a.candidate) = a.value k := rfl
  rw [e, bitLength_eq_iff (by omega)] at h
  exact ⟨h.1, h.2.1, h.2.2⟩


/-! ### The exponent search (R249) -/

/-- `FindE` returns the first exponent. -/
theorem findE_of {phi e : Nat} : ∀ (K i start : Nat), i < K → e = start + 2 * i → 1 < e → e < phi → Nat.gcd e phi =
    1 →
    (∀ j, j < i → ¬(1 < start + 2 * j ∧ Nat.gcd (start + 2 * j) phi = 1)) → findE phi K start = some e
  | 0, i, start, h, _, _, _, _, _ => by omega
  | K + 1, i, start, h, he, h1, h2, h3, h4 => by
    rw [findE, if_neg (by omega)]
    cases i with
    | zero => simp only [Nat.mul_zero, Nat.add_zero] at he; subst he; rw [if_pos ⟨h1, h3⟩]
    | succ i =>
      have h40 : ¬(1 < start ∧ gcdOf start phi = 1) := h4 0 (by omega)
      rw [if_neg h40]
      exact findE_of K i (start + 2) (by omega) (by omega) h1 h2 h3 fun j hj => by
        have := h4 (j + 1) (by omega)
        rwa [show start + 2 * (j + 1) = start + 2 + 2 * j by ring] at this

/-- `FindE` (R249). -/
theorem findE_iff {start phi e : Nat} : findE phi Config.eRetryCap start = some e ↔ ∃ i,
    FirstExponent start phi i e := by
  constructor
  · intro h
    obtain ⟨h1, h2, h3, i, h4, h5, h6⟩ := findE_spec _ _ _ h
    exact ⟨i, h4, h5, h1, h2, h3, h6⟩
  · rintro ⟨i, h⟩
    exact findE_of _ i _ h.bound h.place h.above h.below h.coprime h.least

end Sys2Proof.Machine
end

