-- ==== Sys2Proof/Tests/Slice0.lean ====
section
/-! SUPPORT. Tests. The expected values are those of spec/95_test_vectors.md (its label is named with each) and
of the tables the comment names; then, for every statement with hypotheses, a state and operands that meet
them. -/

namespace Sys2Proof.Tests

open Sys2Proof Sys2Proof.Machine

/-! ### Helpers -/

/-- A legal build with registers of 64 bits and debug registers: R5 allows it, and values stay small. -/
def smallBuild : Build := { maxBits := 64, dbgPrimes := true }

/-- After reset, with `G0` to `G4` as given. -/
def regs (g0 g1 g2 g3 g4 : Nat) : State :=
  { State.reset with build := smallBuild, g := #v[g0, g1, g2, g3, g4, 0, 0, 0] }

/-- A state with the configuration of a drawing command and the port's answers. -/
def draw (s : State) (bitlen : Word) (rounds : BitVec 8) (words : List Word) : State :=
  { s with bitlen := bitlen, rounds := rounds, rng := words }

/-- The configuration of a GENKEY, with two registers that its result must replace. -/
def keyState (bitlen : Word) (minbits : BitVec 16) (estart : Word) (words : List Word) : State :=
  { draw (regs 9 9 9 9 9) bitlen 1 words with minbits := minbits, estart := estart }

/-- The state with this event next. -/
def doing (s : State) (ev : HostEvent) : State := { s with host := [ev] }

/-- The state a command or a step ends in, if it does. -/
def ended : Host.Outcome State Fault Refusal → Option State
  | .next t => some t
  | .fault _ | .refused _ => none

/-- A result register and `STATUS` after a command. -/
def after (i : Instr) (s : State) (r : Reg) : Option (Nat × Word) :=
  (ended (exec i s)).map fun t => (t.readG r, t.statusWord)

/-- `STATUS` and `RNGCNT` after a command. -/
def afterDraws (i : Instr) (s : State) : Option (Word × Word) :=
  (ended (exec i s)).map fun t => (t.statusWord, t.rngcnt)

/-! ### Decode: words of 30_encoding.md R111 and 95_test_vectors.md, one or more a command -/

theorem test_decode_montmul : decode 0x00021301 = .ok (.montmul 3 1 2 0) := by decide
theorem test_decode_tomont : decode 0x00001102 = .ok (.tomont 1 1 0) := by decide
theorem test_decode_frommont : decode 0x00004403 = .ok (.frommont 4 4 0) := by decide
theorem test_decode_modexp : decode 0x00021310 = .ok (.modexp 3 1 2 0) := by decide
theorem test_decode_gcd : decode 0x00031420 = .ok (.gcd 4 1 3) := by decide
theorem test_decode_modinv : decode 0x00301421 = .ok (.modinv 4 1 3) := by decide
theorem test_decode_mrtest : decode 0x00001030 = .ok (.mrtest 1) := by decide
theorem test_decode_genprime : decode 0x00000240 = .ok (.genprime 2) := by decide
theorem test_decode_genkey : decode 0x00010250 = .ok (.genkey 2 1 0) := by decide
theorem test_decode_encrypt : decode 0x00014360 = .ok (.encrypt 3 4 1 0) := by decide
theorem test_decode_decrypt : decode 0x00046761 = .ok (.decrypt 7 6 4 0) := by decide
theorem test_decode_zeroize : decode 0x0000007F = .ok .zeroize := by decide

/-- D1 to D3. -/
theorem test_decode_unknown : ∀ w ∈ [0x00000000, 0x000000FF, 0x00000004],
    decodeChecks (BitVec.ofNat 32 w) = .error .unknownOpcode := by decide

/-- D4, D5, D8 to D13, K25. -/
theorem test_decode_reserved : ∀ w ∈ [0x00000801, 0x01000001, 0x00000130, 0x00100040, 0x0000017F, 0x8000007F,
      0x00310020, 0x00010021, 0x00011250],
    decodeChecks (BitVec.ofNat 32 w) = .error .reservedBits := by decide

/-- K24, K26; K27: the reserved bits are checked before the overlap. -/
theorem test_decode_overlap : decodeChecks 0x00020250 = .error .destOverlap ∧
    decodeChecks 0x00010050 = .error .destOverlap ∧ decodeChecks 0x00001050 = .error .reservedBits := by decide

/-- The MONTSQR of R112 is a MONTMUL word. -/
theorem test_montsqr : encode (.montsqr 3 1 0) = 0x00011301 := by decide

/-! ### The check of WellFormed refuses an ill-formed command -/

theorem test_ill_formed_genkey : ¬(Instr.genkey 2 2 0).WellFormed ∧ ¬(Instr.genkey 0 1 0).WellFormed ∧
    ¬(Instr.genkey 1 2 2).WellFormed ∧ (Instr.genkey 2 1 0).WellFormed := by decide

/-! ### Commands: at most two vectors each -/

/-- M1, M13. -/
theorem test_montmul : after (.montmul 3 1 2 0) (regs 23707 42 42 5 0) 3 = some (12974, 0x00000002) := by decide
theorem test_montmul_range :
    after (.montmul 3 1 2 0) (regs 23707 23707 42 5 0) 3 = some (5, 0x00010306) := by decide
/-- M1; M15: the modulus check is first. -/
theorem test_tomont : after (.tomont 3 1 0) (regs 23707 42 0 5 0) 3 = some (923, 0x00000002) := by decide
theorem test_tomont_checks : after (.tomont 3 1 0) (regs 24000 30000 0 5 0) 3 = some (5, 0x00060106) := by decide
/-- M1, M5. -/
theorem test_frommont : after (.frommont 3 1 0) (regs 23707 42 0 5 0) 3 = some (22887, 0x00000002) := by decide
theorem test_frommont_back : after (.frommont 3 1 0) (regs 23707 923 0 5 0) 3 = some (42, 0x00000002) := by decide
/-- X6: the base is reduced; X14: the destination is the modulus. -/
theorem test_modexp_reduces : after (.modexp 3 1 2 0) (regs 23707 23749 7 5 0) 3 = some (19073, 0x00000002) := by decide
theorem test_modexp_onto_modulus :
    after (.modexp 0 1 2 0) (regs 23707 42 7 5 0) 0 = some (0x4A81, 0x00000002) := by decide
/-- I7, I5. -/
theorem test_gcd : after (.gcd 4 1 3) (regs 0 12 0 18 5) 4 = some (6, 0x00000002) := by decide
theorem test_gcd_zero : after (.gcd 4 1 3) (regs 0 0 0 9 5) 4 = some (9, 0x00000002) := by decide
/-- I11, I12. -/
theorem test_modinv : after (.modinv 4 1 3) (regs 0 7 0 23400 5) 4 = some (3343, 0x00000002) := by decide
theorem test_modinv_none : after (.modinv 4 1 3) (regs 0 3 0 23400 5) 4 = some (5, 0x00050106) := by decide
/-- T8: four rejected draws. T12: composite. -/
theorem test_mrtest_prime : afterDraws (.mrtest 1)
    (draw (regs 0 151 0 0 0) 0 1 [0, 1, 0x96, 0x1FF, 0xABCDEF05]) = some (0x0000000A, 5) := by decide
theorem test_mrtest_composite :
    afterDraws (.mrtest 1) (draw (regs 0 9 0 0 0) 0 1 [2, 7]) = some (0x00000002, 1) := by decide
/-- P1, P5. -/
theorem test_genprime : (ended (exec (.genprime 2) (draw (regs 0 0 0 0 0) 8 2 [0x11, 2, 0x17, 2, 3]))).map
    (fun t => (t.readG 2, t.attempts, t.rngcnt, t.statusWord)) = some (151, 2, 5, 0x00000002) := by decide
theorem test_genprime_short :
    afterDraws (.genprime 2) (draw (regs 0 0 0 0 0) 1 40 []) = some (0x00010206, 0) := by decide
/-- K1: `q = p` once, so q alone is redrawn. K24: the overlap. -/
theorem test_genkey : (ended (exec (.genkey 2 1 0) (keyState 6 6 3 [0, 2, 0, 2, 2, 2]))).map
    (fun t => ([t.readG 0, t.readG 1, t.readG 2, t.dbgp, t.dbgq], [t.attempts, t.rngcnt, t.statusWord]))
      = some ([35, 5, 5, 5, 7], [3, 6, 0x00000002]) := by decide
theorem test_genkey_overlap :
    after (.genkey 2 2 0) (keyState 6 6 3 [0, 2]) 2 = some (9, 0x00030406) := by decide
/-- E1, E4. -/
theorem test_encrypt : after (.encrypt 3 4 1 0) (regs 23707 7 0 0xDEAD 42) 3 = some (19073, 0x00000002) := by decide
theorem test_encrypt_range :
    after (.encrypt 3 4 1 0) (regs 23707 7 0 0xDEAD 23707) 3 = some (0xDEAD, 0x00010306) := by decide
/-- E2; E8b: the modulus check is first. -/
theorem test_decrypt : after (.decrypt 3 4 1 0) (regs 23707 3343 0 0xDEAD 19073) 3 = some (42, 0x00000002) := by decide
theorem test_decrypt_checks :
    after (.decrypt 3 4 1 0) (regs 23708 7 0 0xDEAD 99999) 3 = some (0xDEAD, 0x00060106) := by decide
/-- Z1. -/
theorem test_zeroize : (ended (exec .zeroize { regs 35 5 5 0 0 with dbgp := 5, dbgq := 7, prime := true, attempts := 3 })).map
    (fun t => (t.g.toList, t.dbgp, t.dbgq, t.attempts, t.statusWord))
      = some ([0, 0, 0, 0, 0, 0, 0, 0], 0, 0, 3, 0x00000002) := by decide

/-! ### The port -/

/-- R75: `AW` of the default build; R40 and Z9: `CAP` of the default build. -/
theorem test_constants : addressWidth Build.standard = 14 ∧ capWord Build.standard = 0x08201000 := by decide

/-- Z3: `ACK` after an error leaves the record. -/
theorem test_ack : (ended (step (doing { State.reset with done := true, errcode := 3, sub := 1 } (.write 4 2)))).map
    State.statusWord = some 0x00010304 := by decide

/-- Z8: only the writable bits of a configuration register are written. -/
theorem test_write_config : (ended (step (doing State.reset (.write 0x018 0xFFFFFFFF)))).map
    (fun t => t.readValue 0x018) = some 0x0000FFFF := by decide

/-- D1 through a bare `CMD` write: in FAIL the engine is busy, its next transition completes. -/
theorem test_illegal_write : (ended (step (doing (regs 5 0 0 0 0) (.write 0x000 0x00000000)))).map
    (fun t => (t.busy, t.tick.statusWord, t.tick.readG 0)) = some (true, 0x00010406, 5) := by decide

/-- R73: a limb of `DBGP` is read-only; R76: the offset above the window reads 0. -/
theorem test_read_only : (ended (step (doing { regs 0 0 0 0 0 with dbgp := 5 } (.write 0x1040 9)))).map
    (fun t => (t.dbgp, t.readValue 0x1040, t.readValue 0x1050)) = some (5, 5, 0) := by decide

/-- Z10, on registers of two limbs: `G3` starts at 0x1018. -/
theorem test_write_limb : (ended (step (doing (regs 0 0 0 0x100000002 0) (.write 0x1018 9)))).map
    (fun t => (t.readG 3, t.readValue 0x101C)) = some (0x100000009, 1) := by decide

/-! ### Witnesses: the hypotheses of the statements can be met -/

/-- The part of the invariant that does not depend on whether a command runs. -/
abbrev Settled (s : State) : Prop :=
  s.build.Legal ∧ (∀ r : Reg, s.readG r < 2 ^ s.build.maxBits) ∧
    (s.dbgp < 2 ^ s.build.maxBits ∧ s.dbgq < 2 ^ s.build.maxBits) ∧
    (s.build.dbgPrimes = false → s.dbgp = 0 ∧ s.dbgq = 0) ∧ (s.errcode, s.sub) ∈ statusPairs

theorem ready_of {s : State} (h : Settled s) (he : s.engine = Engine.cleared) : Ready s := by
  have hb : s.busy = false := by simp [State.busy, he, Engine.cleared]
  refine ⟨⟨h.1, h.2.1, h.2.2.1, h.2.2.2.1, h.2.2.2.2, fun _ => he, ?_, ?_, ?_, ?_⟩, hb⟩
  · simp [hb]
  · simp [he, Engine.cleared]
  · simp [hb]
  · simp [hb]

/-- What the invariant asks of a running command, in a form that can be decided. -/
abbrev Running (s : State) : Prop :=
  s.busy = true ∧ (s.done = false ∧ s.errcode = 0 ∧ s.sub = 0) ∧
    (s.engine.phase ≠ .decode ∧ s.engine.phase ≠ .latch ∧ s.engine.phase ≠ .zero) ∧
    (commandOf s.engine.cw).isSome ∧ s.prime = false

theorem inv_of {s : State} (h : Settled s) (hr : Running s) : s.Inv := by
  obtain ⟨hb, hz, hp, hc, hv⟩ := hr
  exact ⟨h.1, h.2.1, h.2.2.1, h.2.2.2.1, h.2.2.2.2, fun hf => by simp [hb] at hf, fun _ => hz, hp,
    fun _ _ => Option.isSome_iff_exists.1 hc, fun _ _ _ => hv⟩

/-- A GENPRIME after so many transitions of its sequencer. -/
def running (k : Nat) (words : List Word) : State :=
  State.ticks k ((draw (regs 0 0 0 0 0) 8 1 words).issue 0x00000240)

/-- A running command of a word, just issued. -/
def issued (w : Word) : State := (regs 23707 42 7 5 0).issue w

/-! Decode and steps. -/

theorem witness_IllegalWordCompletes :
    (doing State.reset (.command 0)).busy = false ∧ (doing State.reset (.write 0x000 0)).busy = false ∧
    decodeChecks 0x00000000 = .error .unknownOpcode ∧ decodeChecks 0x00000801 = .error .reservedBits ∧
    decodeChecks 0x00020250 = .error .destOverlap := by decide

theorem witness_StepRunsCommand :
    (doing State.reset (.command 0x0000007F)).host = [.command 0x0000007F] ∧
    decode 0x0000007F = .ok .zeroize ∧ decode 0x00020250 = .ok (.genkey 2 2 0) ∧
    (doing State.reset (.write 0x000 0x0000007F)).busy = false ∧
    (doing (issued 0x00021310) .engine).host = [.engine] ∧ (issued 0x00021310).host = [] := by decide

theorem witness_StepRunsFetchWord : decodeTableWord 32 0x0000007F = some .zeroize := by decide

/-- `AW` is 13 for registers of two limbs: the last address of the port is 0x1FFC. -/
theorem witness_StepStops :
    (doing (regs 0 0 0 0 0) (.read 0x1FFC)).host = [.read 0x1FFC] ∧ 0x1FFC % 4 = 0 ∧
    0x1FFC < 2 ^ addressWidth smallBuild ∧
    0x2000 % 4 = 0 ∧ 2 ^ addressWidth smallBuild ≤ 0x2000 ∧ 0x1FFD % 4 ≠ 0 := by decide

/-! Montgomery, powers, the cipher. -/

theorem witness_MontmulResult : Ready (regs 3 2 2 0 0) ∧ 3 ≤ (regs 3 2 2 0 0).readG 0 ∧
    (regs 3 2 2 0 0).readG 0 % 2 = 1 ∧ (regs 3 2 2 0 0).readG 1 < (regs 3 2 2 0 0).readG 0 ∧
    (regs 3 2 2 0 0).readG 2 < (regs 3 2 2 0 0).readG 0 := ⟨ready_of (by decide) rfl, by decide⟩

/-- What the statements about a command with one operand below an odd modulus ask, with `d ≠ m`. -/
abbrev OddModulus (s : State) : Prop :=
  Ready s ∧ (3 ≤ s.readG 0 ∧ s.readG 0 % 2 = 1 ∧ s.readG 1 < s.readG 0 ∧ (3 : Reg) ≠ 0)

theorem witness_TomontResult : OddModulus (regs 3 2 0 0 0) := ⟨ready_of (by decide) rfl, by decide⟩
theorem witness_FrommontResult : OddModulus (regs 23707 23706 0 0 0) := ⟨ready_of (by decide) rfl, by decide⟩
theorem witness_FrommontUndoesTomont : OddModulus (regs 3 1 0 0 0) := ⟨ready_of (by decide) rfl, by decide⟩
theorem witness_EncryptResult : OddModulus (regs 3 2 0 0 0) := ⟨ready_of (by decide) rfl, by decide⟩
theorem witness_DecryptResult : OddModulus (regs 5 4 0 0 0) := ⟨ready_of (by decide) rfl, by decide⟩
theorem witness_CipherOneDatapath : (regs 3 2 7 0 0).readG 1 < (regs 3 2 7 0 0).readG 0 := by decide

/-- The base may be as large as the register. -/
theorem witness_ModexpResult : Ready (regs 3 (2 ^ 64 - 1) 0 0 0) ∧ 3 ≤ (regs 3 (2 ^ 64 - 1) 0 0 0).readG 0 ∧
    (regs 3 (2 ^ 64 - 1) 0 0 0).readG 0 % 2 = 1 := ⟨ready_of (by decide) rfl, by decide⟩

theorem witness_OperandChecks :
    (Ready (regs 2 0 0 0 0) ∧ (regs 2 0 0 0 0).readG 0 < 3) ∧
    (Ready (regs 4 0 0 0 0) ∧ (regs 4 0 0 0 0).readG 0 % 2 = 0) ∧
    (Ready (regs 3 3 0 0 0) ∧ 3 ≤ (regs 3 3 0 0 0).readG 0 ∧ (regs 3 3 0 0 0).readG 0 % 2 = 1 ∧
      (regs 3 3 0 0 0).readG 0 ≤ (regs 3 3 0 0 0).readG 1) :=
  ⟨⟨ready_of (by decide) rfl, by decide⟩, ⟨ready_of (by decide) rfl, by decide⟩, ready_of (by decide) rfl, by decide⟩

/-- The key of K1, with a message that shares a factor with the modulus. -/
theorem witness_RsaRoundTrip : Ready (regs 35 5 5 0 14) ∧ Nat.Prime 5 ∧ Nat.Prime 7 ∧
    (5 ≠ 7 ∧ 5 ≠ 2 ∧ 7 ≠ 2 ∧ (regs 35 5 5 0 14).readG 0 = 5 * 7 ∧
      (regs 35 5 5 0 14).readG 1 * (regs 35 5 5 0 14).readG 2 % ((5 - 1) * (7 - 1)) = 1 ∧
      (regs 35 5 5 0 14).readG 4 < 5 * 7 ∧ (3 : Reg) ≠ 0 ∧ (3 : Reg) ≠ 1 ∧ (3 : Reg) ≠ 2) :=
  ⟨ready_of (by decide) rfl, by norm_num, by norm_num, by decide⟩

/-! Euclid. -/

theorem witness_GcdResult : Ready (regs 0 0 0 0 0) := ready_of (by decide) rfl

theorem witness_ModinvResult : Ready (regs 2 3 0 0 0) ∧ 2 ≤ (regs 2 3 0 0 0).readG 0 ∧
    Nat.gcd ((regs 2 3 0 0 0).readG 1 % (regs 2 3 0 0 0).readG 0) ((regs 2 3 0 0 0).readG 0) = 1 :=
  ⟨ready_of (by decide) rfl, by decide⟩

theorem witness_ModinvErrors :
    (Ready (regs 1 5 0 0 0) ∧ (regs 1 5 0 0 0).readG 0 < 2) ∧
    (Ready (regs 2 4 0 0 0) ∧ 2 ≤ (regs 2 4 0 0 0).readG 0 ∧
      Nat.gcd ((regs 2 4 0 0 0).readG 1 % (regs 2 4 0 0 0).readG 0) ((regs 2 4 0 0 0).readG 0) ≠ 1) :=
  ⟨⟨ready_of (by decide) rfl, by decide⟩, ready_of (by decide) rfl, by decide⟩

/-! The tester. -/

theorem strong_of {n a : Nat} (h : 3 ≤ n ∧ n % 2 = 1 ∧ roundPasses n a = true) : StrongPasses n a :=
  (roundPasses_iff h.1 h.2.1).1 h.2.2

theorem not_strong_of {n a : Nat} (h : 3 ≤ n ∧ n % 2 = 1 ∧ roundPasses n a = false) : ¬StrongPasses n a :=
  fun hs => by simpa [h.2.2] using (roundPasses_iff h.1 h.2.1).2 hs

/-- One base drawn without a rejection. -/
def oneBase (w : Word) : BaseDraws := { rejected := [], accepted := [w] }

theorem oneBase_valid {n : Nat} {w : Word} (h : 1 = wordsFor (bitLength n) ∧
    2 ≤ drawValue (bitLength n) [w] ∧ drawValue (bitLength n) [w] ≤ n - 2) : (oneBase w).Valid n :=
  ⟨by simp [oneBase], by simp [oneBase], h.1, h.2⟩

/-- T6: two rounds that pass. -/
theorem verdict_151 : Verdict 151 2 [2, 3] true := by
  unfold Verdict
  rw [if_neg (by omega), if_neg (by omega)]
  refine ⟨[oneBase 2, oneBase 3], ?_, .inl ⟨rfl, rfl, rfl⟩⟩
  intro r hr
  rcases List.mem_cons.1 hr with rfl | hr
  · exact ⟨oneBase_valid (by decide), strong_of (by decide)⟩
  · rcases List.mem_singleton.1 hr with rfl
    exact ⟨oneBase_valid (by decide), strong_of (by decide)⟩

/-- A round that fails after none that pass. -/
theorem verdict_fails {n : Nat} {w : Word} (rounds : Nat) (h : 5 ≤ n ∧ n % 2 = 1 ∧ 0 < rounds)
    (hb : 1 = wordsFor (bitLength n) ∧ 2 ≤ drawValue (bitLength n) [w] ∧ drawValue (bitLength n) [w] ≤ n - 2)
    (hf : roundPasses n (drawValue (bitLength n) [w]) = false) : Verdict n rounds [w] false := by
  unfold Verdict
  rw [if_neg (by omega), if_neg (by omega)]
  exact ⟨[], by simp [AllPass], .inr ⟨h.2.2, oneBase w, oneBase_valid hb,
    not_strong_of ⟨by omega, h.2.1, hf⟩, rfl, rfl⟩⟩

/-- T6 passes, T12 fails, T3 and T3c draw nothing. -/
theorem witness_MrtestVerdict :
    (Ready (draw (regs 0 151 0 0 0) 0 2 [2, 3, 9]) ∧ Verdict 151 2 [2, 3] true) ∧ Verdict 9 1 [2] false ∧
    Verdict 2 40 [] false ∧ Verdict 3 40 [] true :=
  ⟨⟨ready_of (by decide) rfl, verdict_151⟩, verdict_fails 1 (by decide) (by decide) (by decide),
    by simp [Verdict], by simp [Verdict]⟩

/-- T13, for `n = 5`: 128 rejected draws of 0. -/
theorem witness_MrtestRngReject : Ready (draw (regs 0 5 0 0 0) 0 1 (List.replicate 128 0)) ∧
    AllPass 5 [] ∧ (∀ ws ∈ List.replicate 128 [(0 : Word)], RejectedDraw 5 ws) ∧
    ([] : List BaseDraws).flatMap BaseDraws.words ++ (List.replicate 128 [(0 : Word)]).flatten
      = List.replicate 128 0 := by
  refine ⟨ready_of (by decide) rfl, by simp [AllPass], ?_, by decide⟩
  intro ws h
  rw [List.eq_of_mem_replicate h]
  exact ⟨by decide, by decide⟩

theorem witness_MrtestNoFalseNegative : Ready (draw (regs 0 151 0 0 0) 0 2 [2, 3]) ∧ Nat.Prime 151 ∧
    (ended (exec (.mrtest 1) (draw (regs 0 151 0 0 0) 0 2 [2, 3]))).map State.busy = some false :=
  ⟨ready_of (by decide) rfl, by norm_num, by decide⟩

/-! The generator. -/

/-- P1's first candidate, 145. -/
def attempt145 : Attempt := { candidate := [0x11], test := [2] }
/-- P1's second candidate, 151. -/
def attempt151 : Attempt := { candidate := [0x17], test := [2, 3] }

theorem attempt145_fails : attempt145.Ends 8 2 false := by
  refine ⟨by decide, ?_⟩
  rw [show attempt145.value 8 = 145 by decide]
  exact verdict_fails 2 (by decide) (by decide) (by decide)

/-- P1. -/
theorem witness_GenprimeFinds : Ready (draw (regs 0 0 0 0 0) 8 2 [0x11, 2, 0x17, 2, 3]) ∧
    Search 8 2 65536 [attempt145] attempt151 ∧
    (searchDraws [attempt145] attempt151 = [0x11, 2, 0x17, 2, 3] ∧ (8 : Word).toInt = (8 : Nat)) := by
  refine ⟨ready_of (by decide) rfl, ⟨by decide, ?_, by decide, ?_⟩, by decide⟩
  · intro a ha
    rw [List.mem_singleton.1 ha]
    exact attempt145_fails
  · rw [show attempt151.value 8 = 151 by decide]
    exact verdict_151

/-- One attempt allowed, and it fails. -/
theorem witness_GenprimeExhausted :
    Ready { draw (regs 0 0 0 0 0) 8 2 [0x11, 2] with attemptcap := 1 } ∧
    (∀ f ∈ [attempt145], f.Ends 8 2 false) ∧ [attempt145].flatMap Attempt.words = [0x11, 2] := by
  refine ⟨ready_of (by decide) rfl, ?_, by decide⟩
  intro a ha
  rw [List.mem_singleton.1 ha]
  exact attempt145_fails

theorem witness_GenprimeLengthErrors :
    (Ready (draw (regs 0 0 0 0 0) 1 40 []) ∧ (1 : Word).toInt < 2) ∧
    (Ready (draw (regs 0 0 0 0 0) 65 40 []) ∧ (smallBuild.maxBits : Int) < (65 : Word).toInt) :=
  ⟨⟨ready_of (by decide) rfl, by decide⟩, ready_of (by decide) rfl, by decide⟩

/-! The key builder. -/

/-- K3's third candidate, 181. -/
def attempt181 : Attempt := { candidate := [0xB5], test := [2] }
/-- K3's fourth candidate, 191. -/
def attempt191 : Attempt := { candidate := [0xBF], test := [2] }

/-- A first attempt that one round accepts. -/
theorem search_one {a : Attempt} {w : Word} {p : Nat}
    (h : a.candidate.length = wordsFor 8 ∧ a.value 8 = p ∧ a.test = [w])
    (hp : 5 ≤ p ∧ p % 2 = 1) (hb : 1 = wordsFor (bitLength p) ∧ 2 ≤ drawValue (bitLength p) [w] ∧
      drawValue (bitLength p) [w] ≤ p - 2) (hr : roundPasses p (drawValue (bitLength p) [w]) = true) :
    Search 8 1 65536 [] a := by
  refine ⟨by decide, by simp, h.1, ?_⟩
  rw [h.2.1, h.2.2]
  unfold Verdict
  rw [if_neg (by omega), if_neg (by omega)]
  refine ⟨[oneBase w], ?_, .inl ⟨rfl, rfl, rfl⟩⟩
  intro r hm
  rw [List.mem_singleton.1 hm]
  exact ⟨oneBase_valid hb, strong_of ⟨by omega, hp.2, hr⟩⟩

theorem search181 : Search 8 1 65536 [] attempt181 :=
  search_one (p := 181) (w := 2) (by decide) (by decide) (by decide) (by decide)

theorem search191 : Search 8 1 65536 [] attempt191 :=
  search_one (p := 191) (w := 2) (by decide) (by decide) (by decide) (by decide)

/-- K3 from its second pair on: the exponent is the third one tried. -/
theorem witness_GenkeyMakes : Ready (keyState 16 16 3 [0xB5, 2, 0xBF, 2]) ∧
    Search 8 1 65536 [] attempt181 ∧ Search 8 1 65536 [] attempt191 ∧
    FirstExponent 3 ((181 - 1) * (191 - 1)) 2 7 ∧
    (attempt181.value 8 = 181 ∧ attempt191.value 8 = 191 ∧ 2 ^ (2 * 8 - 1) ≤ 181 * 191 ∧
      searchDraws [] attempt181 ++ searchDraws [] attempt191 = [0xB5, 2, 0xBF, 2]) ∧
    ((2 : Reg) ≠ 1 ∧ (2 : Reg) ≠ 0 ∧ (1 : Reg) ≠ 0) ∧ (16 : Word).toInt = 2 * (8 : Nat) :=
  ⟨ready_of (by decide) rfl, search181, search191,
    ⟨by decide, by decide, by decide, by decide, by decide, by decide⟩, by decide, by decide, by decide⟩

/-- Each error of GENKEY before a draw: overlap, below the minimum, above the registers, odd, prime length
below 2, no attempt allowed. -/
theorem witness_GenkeyEarlyErrors :
    (Ready (keyState 6 6 3 []) ∧ (2 : Reg) = 2) ∧
    (Ready (keyState 5 6 3 []) ∧ (5 : Word).toInt < (6 : BitVec 16).toNat) ∧
    (Ready (keyState 66 6 3 []) ∧ ((6 : BitVec 16).toNat : Int) ≤ (66 : Word).toInt ∧
      (smallBuild.maxBits : Int) < (66 : Word).toInt) ∧
    (Ready (keyState 7 6 3 []) ∧ ((6 : BitVec 16).toNat : Int) ≤ (7 : Word).toInt ∧ (7 : Word).toInt % 2 = 1) ∧
    (Ready (keyState 2 0 3 []) ∧ ((0 : BitVec 16).toNat : Int) ≤ (2 : Word).toInt ∧ (2 : Word).toInt % 2 = 0 ∧
      (2 : Word).toInt / 2 < 2) ∧
    (Ready { keyState 4 4 3 [] with attemptcap := 0 } ∧ (4 : Word).toInt % 2 = 0 ∧ 2 ≤ (4 : Word).toInt / 2) :=
  ⟨⟨ready_of (by decide) rfl, by decide⟩, ⟨ready_of (by decide) rfl, by decide⟩,
    ⟨ready_of (by decide) rfl, by decide⟩, ⟨ready_of (by decide) rfl, by decide⟩,
    ⟨ready_of (by decide) rfl, by decide⟩, ready_of (by decide) rfl, by decide⟩

/-- K1. -/
theorem witness_GenkeyGuarantee : Ready (keyState 6 6 3 [0, 2, 0, 2, 2, 2]) ∧
    (ended (exec (.genkey 2 1 0) (keyState 6 6 3 [0, 2, 0, 2, 2, 2]))).map
      (fun t => (t.busy, t.errcode)) = some (false, 0) := ⟨ready_of (by decide) rfl, by decide⟩

/-- K23: the first exponent is not below φ = 34200. -/
theorem witness_GenkeyNoExponent : Ready (keyState 16 16 34200 [0xB5, 2, 0xBF, 2]) ∧
    Search 8 1 65536 [] attempt181 ∧ Search 8 1 65536 [] attempt191 ∧
    ∀ i e, ¬FirstExponent 34200 ((181 - 1) * (191 - 1)) i e := by
  refine ⟨ready_of (by decide) rfl, search181, search191, fun i e h => ?_⟩
  have h1 := h.place
  have h2 := h.below
  omega

/-- K11. -/
theorem witness_GenkeyFourBits : Ready (keyState 4 4 3 (List.replicate 65 0)) ∧
    65 ≤ (keyState 4 4 3 (List.replicate 65 0)).rng.length ∧
    1 ≤ (keyState 4 4 3 []).attemptcap.toNat := ⟨ready_of (by decide) rfl, by decide⟩

/-! All commands. -/

/-- A failing run of MRTEST (T13), GENPRIME (P5), GENKEY (K13) and MODINV (I20): each ends idle with an error. -/
theorem witness_ErrorsArePrecise :
    (Ready (draw (regs 0 5 0 0 0) 0 1 (List.replicate 128 0)) ∧
      afterDraws (.mrtest 1) (draw (regs 0 5 0 0 0) 0 1 (List.replicate 128 0)) = some (0x00040206, 128)) ∧
    (Ready (draw (regs 0 0 0 0 0) 1 40 []) ∧
      afterDraws (.genprime 2) (draw (regs 0 0 0 0 0) 1 40 []) = some (0x00010206, 0)) ∧
    (Ready (keyState 2 0 3 []) ∧ afterDraws (.genkey 2 1 0) (keyState 2 0 3 []) = some (0x00010206, 0) ∧
      (Instr.genkey 2 1 0).WellFormed) ∧
    (Ready (regs 1 5 0 0 0) ∧ afterDraws (.modinv 4 1 0) (regs 1 5 0 0 0) = some (0x00060106, 0)) :=
  ⟨⟨ready_of (by decide) rfl, by decide +kernel⟩, ⟨ready_of (by decide) rfl, by decide⟩,
    ⟨ready_of (by decide) rfl, by decide⟩, ready_of (by decide) rfl, by decide⟩

/-- A failing run of the Montgomery commands, the cipher and MODEXP (M12, M13, E4, X13). -/
theorem witness_ErrorsByCommand : Ready (regs 3 3 0 5 0) ∧
    after (.tomont 3 1 0) (regs 3 3 0 5 0) 3 = some (5, 0x00010306) ∧
    after (.encrypt 3 1 2 0) (regs 3 3 0 5 0) 3 = some (5, 0x00010306) ∧
    after (.montmul 3 1 2 0) (regs 23708 42 42 5 0) 3 = some (5, 0x00060106) ∧
    after (.frommont 3 1 0) (regs 3 3 0 5 0) 3 = some (5, 0x00010306) ∧
    after (.decrypt 3 1 2 0) (regs 3 3 0 5 0) 3 = some (5, 0x00010306) ∧
    after (.modexp 3 1 2 0) (regs 10 5 3 5 0) 3 = some (5, 0x00060106) := ⟨ready_of (by decide) rfl, by decide⟩

theorem witness_ZeroizeResult : (regs 1 2 3 4 5).busy = false := by decide

theorem witness_OnlyDestinationsWritten :
    (ended (exec (.gcd 4 1 3) (regs 0 12 0 18 5))).isSome ∧ ¬MayWrite 3 (.gcd 4 1 3) ∧
    (ended (exec (.genkey 2 1 0) (keyState 6 6 3 [0, 2, 0, 2, 2, 2]))).isSome ∧
    ¬MayWrite 3 (.genkey 2 1 0) := ⟨by decide, by simp [MayWrite], by decide, by simp [MayWrite]⟩

/-- A completed and a waiting GENPRIME. -/
theorem witness_DrawsCounted :
    (Ready (draw (regs 0 0 0 0 0) 8 1 [0x17, 2]) ∧
      (ended (exec (.genprime 2) (draw (regs 0 0 0 0 0) 8 1 [0x17, 2]))).map State.busy = some false) ∧
    (Ready (draw (regs 0 0 0 0 0) 8 1 [0x17]) ∧
      (ended (exec (.genprime 2) (draw (regs 0 0 0 0 0) 8 1 [0x17]))).map State.busy = some true) ∧
    ¬Drawing (.gcd 4 1 3) :=
  ⟨⟨ready_of (by decide) rfl, by decide⟩, ⟨ready_of (by decide) rfl, by decide⟩, by simp [Drawing]⟩

/-- `PRIME` falls through a ZEROIZE, a reset and the acceptance of an MRTEST. -/
theorem witness_PrimeWrittenBy : ∀ ev ∈ [HostEvent.command 0x0000007F, .hardReset, .write 0 0x00001030],
    (ended (step (doing { State.reset with prime := true } ev))).map State.prime = some false := by decide

theorem witness_CommandsEnd : Ready (regs 0 12 0 18 5) ∧ ¬Drawing .zeroize :=
  ⟨ready_of (by decide) rfl, by simp [Drawing]⟩

theorem witness_InterruptAtCompletion : Ready { regs 0 12 0 18 5 with ie := true } ∧
    (ended (exec (.gcd 4 1 3) { regs 0 12 0 18 5 with ie := true })).map State.irq = some true :=
  ⟨ready_of (by decide) rfl, by decide⟩

/-! The bus. -/

/-- A running MODEXP and the first and last locked addresses: `CMD`, `ATTEMPTCAP`, and the window's first and
last limb. -/
theorem witness_LockedAccess :
    (∀ addr ∈ [0x000, 0x024, 0x1000, 0x104C], (doing (issued 0x00021310) (.write addr 7)).Inv ∧
      (doing (issued 0x00021310) (.write addr 7)).busy = true) ∧
    (∀ addr ∈ [0x1000, 0x104C], (doing (issued 0x00021310) (.read addr)).Inv ∧
      (doing (issued 0x00021310) (.read addr)).busy = true ∧ addr % 4 = 0 ∧ 0x1000 ≤ addr ∧
      addr < 0x1000 + 40 * (smallBuild.maxBits / 32)) ∧
    (doing (issued 0x00021310) (.command 0x0000007F)).Inv := by
  have hs : ∀ ev, (doing (issued 0x00021310) ev).Inv := fun ev =>
    inv_of (show Settled (issued 0x00021310) by decide) (show Running (issued 0x00021310) by decide)
  exact ⟨fun addr h => ⟨hs _, rfl⟩, fun addr h => ⟨hs _, rfl, by revert addr; decide⟩, hs _⟩

/-- The last limb a write reaches. -/
theorem witness_LimbWrite : Ready (doing (regs 1 2 3 4 5) (.write (0x1000 + 4 * ((7 : Reg).val * (64 / 32) + 1)) 9)) ∧
    1 < smallBuild.maxBits / 32 := ⟨ready_of (by decide) rfl, by decide⟩

/-- The first and the last general register, and both debug registers. -/
theorem witness_LimbRead :
    ∀ i ∈ [0, 7, 8, 9], Ready (doing (regs 1 2 3 4 5) (.read (0x1000 + 4 * (i * (64 / 32) + 1)))) ∧ i < 10 :=
  fun i h => ⟨ready_of (show Settled (regs 1 2 3 4 5) by decide) rfl, by revert i; decide⟩

theorem witness_LdgLoads :
    Ready { regs 1 2 3 4 5 with host := hostLDG smallBuild 7 (2 ^ 64 - 1) ++ [.wait] } ∧
    2 ^ 64 - 1 < 2 ^ smallBuild.maxBits := ⟨ready_of (by decide) rfl, by decide⟩

theorem witness_StatusAndControlAccess : (doing (issued 0x00021310) (.read 0x004)).host = [.read 0x004] ∧
    (doing (issued 0x00021310) (.write 0x004 0xFFFFFFFF)).host = [.write 0x004 0xFFFFFFFF] ∧
    (doing (issued 0x00021310) (.read 0x008)).host = [.read 0x008] ∧
    (doing (issued 0x00021310) (.write 0x008 1)).host = [.write 0x008 1] ∧
    (1 : Word).getLsbD 1 = false ∧ (1 : Word).getLsbD 2 = false := by decide

/-- Every configuration register, written by an idle engine, and read while a MODEXP runs. -/
theorem witness_ConfigurationAccess : ∀ addr ∈ [0x014, 0x018, 0x01C, 0x020, 0x024],
    (doing (regs 0 0 0 0 0) (.write addr 0xFFFFFFFF)).busy = false ∧
    (doing (issued 0x00021310) (.read addr)).busy = true := fun _ _ => ⟨rfl, rfl⟩

/-- The reserved offsets next to each boundary of the map of R75 (0x030 and 0xFFC, 0x1050 and 0x1FFC), and the
last limb of each debug register, with a legal build; the other clauses need no more than the event. -/
theorem witness_ReservedAndReadOnly : (doing (regs 0 0 0 0 0) (.write 0x030 7)).build.Legal ∧
    (∀ addr ∈ [0x030, 0xFFC], addr % 4 = 0 ∧ 0x030 ≤ addr ∧ addr < 0x1000) ∧
    (∀ addr ∈ [0x1050, 0x1FFC], addr % 4 = 0 ∧ 0x1000 + 40 * (smallBuild.maxBits / 32) ≤ addr ∧
      addr < 2 ^ addressWidth smallBuild) ∧
    (∀ i ∈ [8, 9], 8 ≤ i ∧ i ≤ 9 ∧ 1 < smallBuild.maxBits / 32 ∧
      (doing (regs 0 0 0 0 0) (.write (0x1000 + 4 * (i * (smallBuild.maxBits / 32) + 1)) 7)).busy = false) := by
  decide

/-! Abort and reset. -/

/-- An abort of an idle engine, and of a running MRTEST, GENPRIME, GENKEY and MODEXP. -/
theorem witness_AbortEnds :
    (doing (regs 0 0 0 0 0) (.write 0x008 2)).Inv ∧
    (∀ w ∈ [0x00001030, 0x00000240, 0x00010250, 0x00021310],
      (doing (issued (BitVec.ofNat 32 w)) (.write 0x008 2)).Inv ∧
      (doing (issued (BitVec.ofNat 32 w)) (.write 0x008 2)).busy = true ∧
      (commandOf (issued (BitVec.ofNat 32 w)).engine.cw).isSome) ∧
    (2 : Word).getLsbD 1 = true ∧ (2 : Word).getLsbD 2 = false := by
  refine ⟨(ready_of (by decide) rfl).inv, fun w h => ⟨inv_of ?_ ?_, ?_⟩, by decide⟩
  · revert w; decide
  · revert w; decide
  · revert w; decide

theorem witness_ResetState :
    (doing (issued 0x00021310) .hardReset).host = [.hardReset] ∧
    (4 : Word).getLsbD 2 = true ∧ (doing (issued 0x00021310) (.write 0x008 4)).host = [.write 0x008 4] := by decide

/-! The invariant and the sequencers. -/

/-- A step of a running engine, and of an idle one. -/
theorem witness_StepKeepsInv : (issued 0x00021310).Inv ∧ (ended (step (issued 0x00021310))).isSome ∧
    (doing (regs 0 0 0 0 0) (.command 0x0000007F)).Inv ∧
    (ended (step (doing (regs 0 0 0 0 0) (.command 0x0000007F)))).isSome :=
  ⟨inv_of (by decide) (by decide), by decide, (ready_of (by decide) rfl).inv, by decide⟩

/-- A transition that does not end the command, and an idle engine. -/
theorem witness_BusyTicksHidden : (issued 0x00021310).Inv ∧ (issued 0x00021310).tick.busy = true ∧
    (regs 0 0 0 0 0).Inv ∧ (regs 0 0 0 0 0).busy = false :=
  ⟨inv_of (by decide) (by decide), by decide, (ready_of (by decide) rfl).inv, by decide⟩

/-- A GENPRIME before it draws, waiting on a silent port, and drawing. -/
theorem witness_OneWordPerDraw :
    ((running 0 []).Inv ∧ (running 0 []).rngReq = false ∧ (running 0 []).tick.busy = true) ∧
    ((running 3 []).Inv ∧ (running 3 []).rngReq = true ∧ (running 3 []).rng = []) ∧
    ((running 3 [5]).Inv ∧ (running 3 [5]).rngReq = true ∧ (running 3 [5]).rng = [5]) :=
  ⟨⟨inv_of (by decide) (by decide), by decide⟩, ⟨inv_of (by decide) (by decide), by decide⟩,
    inv_of (by decide) (by decide), by decide⟩

/-- The smallest modulus. -/
theorem witness_MulLimbwiseAgrees : 3 ≤ 3 ∧ 3 % 2 = 1 ∧ 2 < 3 ∧ 0 < 3 := by decide

theorem witness_PrecomputedValues : 3 ≤ 0xFFFFFFFF ∧ 0xFFFFFFFF % 2 = 1 := by decide
theorem witness_ExpMontgomeryAgrees : 3 ≤ 23707 ∧ 23707 % 2 = 1 ∧ 42 < 23707 := by decide

theorem witness_SequencerRefinesNonDrawing : Ready (regs 0 12 0 18 5) ∧ ¬Drawing (.gcd 4 1 3) ∧
    (ended (exec (.gcd 4 1 3) (regs 0 12 0 18 5))).isSome :=
  ⟨ready_of (by decide) rfl, by simp [Drawing], by decide⟩

/-- A GENPRIME that completes, and one that waits for ever. -/
theorem witness_SequencerRefinesDrawing :
    (Ready (draw (regs 0 0 0 0 0) 8 1 [0x17, 2]) ∧ Drawing (.genprime 2) ∧
      (ended (exec (.genprime 2) (draw (regs 0 0 0 0 0) 8 1 [0x17, 2]))).map State.busy = some false) ∧
    (Ready (draw (regs 0 0 0 0 0) 8 1 [0x17]) ∧
      (ended (exec (.genprime 2) (draw (regs 0 0 0 0 0) 8 1 [0x17]))).map State.busy = some true) :=
  ⟨⟨ready_of (by decide) rfl, trivial, by decide⟩, ready_of (by decide) rfl, by decide⟩

/-- A GENPRIME that completes and is cut after its first draw. -/
theorem witness_AbortedDraws : Ready (draw (regs 0 0 0 0 0) 8 1 [0x17, 2]) ∧
    (ended (exec (.genprime 2) (draw (regs 0 0 0 0 0) 8 1 [0x17, 2]))).map State.busy = some false ∧
    encode (.genprime 2) = 0x00000240 ∧
    (running 4 [0x17, 2]).busy = true ∧ (running 4 [0x17, 2]).engine.lrng = 1 :=
  ⟨ready_of (by decide) rfl, by decide⟩

end Sys2Proof.Tests
end

/-! ## The command word (30_encoding.md R101, R106) -/

namespace Sys2Proof

/-- Each field of an encoded word reads back (R101). -/
@[simp] theorem fieldRD_encodeFields (o : Opcode) (d a b m : Reg) : fieldRD (encodeFields o d a b m) = d :=
  (encodeFields_fields o d a b m).1
@[simp] theorem fieldRA_encodeFields (o : Opcode) (d a b m : Reg) : fieldRA (encodeFields o d a b m) = a :=
  (encodeFields_fields o d a b m).2.1
@[simp] theorem fieldRB_encodeFields (o : Opcode) (d a b m : Reg) : fieldRB (encodeFields o d a b m) = b :=
  (encodeFields_fields o d a b m).2.2.1
@[simp] theorem fieldRM_encodeFields (o : Opcode) (d a b m : Reg) : fieldRM (encodeFields o d a b m) = m :=
  (encodeFields_fields o d a b m).2.2.2.1

/-- The word of a command, read in the command's own row, gives its registers back (R101, R102). -/
theorem instr_encode (i : Instr) : i.opcode.instr (encode i) = i := by
  cases i <;> simp [Instr.opcode, Opcode.instr, encode]

/-- Every command's word is in its own row of the opcode table (R102). -/
theorem encode_inRow (i : Instr) : Laws.F.Statement i := by
  cases i with
  | montmul d a b m => exact Laws.F.montmul d a b m
  | tomont d a m => exact Laws.F.tomont d a m
  | frommont d a m => exact Laws.F.frommont d a m
  | modexp d a b m => exact Laws.F.modexp d a b m
  | gcd d a b => exact Laws.F.gcd d a b
  | modinv d a m => exact Laws.F.modinv d a m
  | mrtest a => exact Laws.F.mrtest a
  | genprime d => exact Laws.F.genprime d
  | genkey d b m => exact Laws.F.genkey d b m
  | encrypt d a b m => exact Laws.F.encrypt d a b m
  | decrypt d a b m => exact Laws.F.decrypt d a b m
  | zeroize => exact Laws.F.zeroize

/-- Decoding the word of a command gives the command back (R101, R102, R113). -/
theorem decode_encode (i : Instr) : decode (encode i) = .ok i := by
  obtain ⟨hrow, hmask⟩ := encode_inRow i
  simp [decode, hrow, hmask, instr_encode]

end Sys2Proof

namespace Sys2Proof.Machine

/-- The word of a command passes the decode checks exactly when its destinations do not overlap (R106). -/
theorem decodeChecks_encode (i : Instr) :
    decodeChecks (encode i) = if i.wellFormed then .ok i else .error .destOverlap := by
  simp [decodeChecks, decode_encode]

theorem commandOf_eq_some {w : Word} {i : Instr} (h : decodeChecks w = .ok i) : commandOf w = some i := by
  simp [commandOf, h]

theorem commandOf_eq_none {w : Word} {e : Err} (h : decodeChecks w = .error e) : commandOf w = none := by
  simp [commandOf, h]

theorem commandOf_encode {i : Instr} (hw : i.wellFormed = true) : commandOf (encode i) = some i :=
  commandOf_eq_some (by rw [decodeChecks_encode, if_pos hw])

/-- The `CMD` write of a well-formed command leaves it accepted and latched (R105, R107). -/
theorem issue_encode {s : State} {i : Instr} (hw : i.wellFormed = true) : s.issue (encode i) = s.accepted i :=
  issue_ok (by rw [decodeChecks_encode, if_pos hw])

/-! ## The invariant -/

/-- The invariant speaks of the registers, the engine, the completion flags and `PRIME`; `DONE` may fall. -/
theorem State.Inv.of_data {s t : State} (h : s.Inv) (hd : t.Data) (he : t.engine = s.engine)
    (hdone : s.done = false → t.done = false) (hcode : t.errcode = s.errcode) (hsub : t.sub = s.sub)
    (hprime : t.prime = s.prime) : t.Inv where
  build := hd.build
  big := hd.big
  dbg := hd.dbg
  dbgOff := hd.dbgOff
  pair := by rw [hcode, hsub]; exact h.pair
  idle := by rw [State.busy, he]; exact h.idle
  running hb := by
    obtain ⟨h1, h2, h3⟩ := h.running (by rwa [State.busy, he] at hb)
    exact ⟨hdone h1, hcode.trans h2, hsub.trans h3⟩
  settled := by rw [he]; exact h.settled
  decoded := by rw [State.busy, he]; exact h.decoded
  tester := by rw [State.busy, he, hprime]; exact h.tester

/-- The same, where no register changes. -/
theorem State.Inv.of_same {s t : State} (h : s.Inv) (hb : t.build = s.build) (hg : t.g = s.g)
    (hp : t.dbgp = s.dbgp) (hq : t.dbgq = s.dbgq) (he : t.engine = s.engine) (hdone : s.done = false → t.done = false)
    (hcode : t.errcode = s.errcode) (hsub : t.sub = s.sub) (hprime : t.prime = s.prime) : t.Inv :=
  h.of_data (h.data.of_same hb hg hp hq) he hdone hcode hsub hprime

/-- The phases in which a command executes are none of the four others. -/
theorem Phase.ne_of_runs {p : Phase} (h : p.runs = true) : p ≠ .idle ∧ p ≠ .decode ∧ p ≠ .latch ∧ p ≠ .zero := by
  refine ⟨?_, ?_, ?_, ?_⟩ <;> (rintro rfl; cases h)

/-- A running engine at work on a command keeps the invariant while its command word stays (R43, R106). -/
theorem State.Inv.advance {s : State} {i : Instr} {ws : List Word} {e : Engine} (h : s.Inv) (hb : s.busy = true)
    (hc : commandOf s.engine.cw = some i) (hcw : e.cw = s.engine.cw) (hruns : e.phase.runs = true) :
    ({ s with rng := ws, engine := e } : State).Inv := by
  obtain ⟨hidle, hdecode, hlatch, hzero⟩ := Phase.ne_of_runs hruns
  constructor
  · exact h.build
  · exact h.big
  · exact h.dbg
  · exact h.dbgOff
  · exact h.pair
  · exact fun hi => absurd (by simpa [State.busy] using hi) hidle
  · exact fun _ => h.running hb
  · exact ⟨hdecode, hlatch, hzero⟩
  · exact fun _ _ => ⟨i, by rw [hcw]; exact hc⟩
  · exact fun _ a ha => h.tester hb a (by rwa [hcw] at ha)

/-- Acceptance with the latch leaves the invariant (R105, R107). -/
theorem State.Inv.latch {s : State} {w : Word} {i : Instr} (h : s.Inv) (hd : decodeChecks w = .ok i) :
    ((s.accept w).latch i).Inv where
  build := h.build
  big := h.big
  dbg := h.dbg
  dbgOff := h.dbgOff
  pair := by simp [statusPairs]
  idle hb := absurd hb (by simp [State.busy, State.latch])
  running _ := ⟨rfl, rfl, rfl⟩
  settled := by simp [State.latch]
  decoded _ _ := ⟨i, commandOf_eq_some hd⟩
  tester _ a ha := by
    obtain rfl : i = .mrtest a := Option.some.inj ((commandOf_eq_some hd).symm.trans ha)
    rfl

/-- So does the acceptance of a word that fails a decode check (R105, R106). -/
theorem State.Inv.reject {s : State} {w : Word} {e : Err} (h : s.Inv) (hd : decodeChecks w = .error e) :
    ({ s.accept w with engine := (s.accept w).engine.report e } : State).Inv where
  build := h.build
  big := h.big
  dbg := h.dbg
  dbgOff := h.dbgOff
  pair := by simp [statusPairs]
  idle hb := absurd hb (by simp [State.busy, Engine.report])
  running _ := ⟨rfl, rfl, rfl⟩
  settled := by simp [Engine.report]
  decoded _ hf := absurd rfl (hf e)
  tester _ a ha := absurd ((commandOf_eq_none hd).symm.trans ha) (by simp)

/-- A `CMD` write to an idle engine keeps the invariant (R80, R105). -/
theorem State.Inv.issue {s : State} (h : s.Inv) (w : Word) : (s.issue w).Inv := by
  cases hd : decodeChecks w with
  | ok i => rw [issue_ok hd]; exact h.latch hd
  | error e => rw [issue_error hd]; exact h.reject hd

/-- A locked access keeps the invariant (R78). -/
theorem State.Inv.locked {s : State} (h : s.Inv) : s.locked.Inv := h.of_same rfl rfl rfl rfl rfl id rfl rfl rfl

/-- A command at the command level keeps the invariant (R9). -/
theorem State.Inv.exec {s t : State} {i : Instr} (h : s.Inv) (ht : exec i s = .next t) : t.Inv := by
  cases hb : s.busy with
  | true =>
    obtain ⟨body, hrun, -⟩ := exec_cases i s
    rw [hrun, runCommand_busy hb] at ht
    rw [← Host.Outcome.next.inj ht]
    exact h.locked
  | false =>
    have hacc : ∀ d : Draws, ((s.accepted i).withDraws d).Data := fun d => h.data.of_same rfl rfl rfl rfl
    rcases exec_inversion hb ht with ⟨-, rfl⟩ | ⟨-, c, d, n, -, -, -, rfl⟩ | ⟨-, e, d, n, -, -, -, rfl⟩ | ⟨hw, -, rfl⟩
    · exact (h.data.of_same (t := s.accept (encode i)) rfl rfl rfl rfl).completeErr none _
    · exact (hacc d).completeOk i c
    · exact (hacc d).completeErr (some i) e
    · exact h.latch (by rw [decodeChecks_encode, if_pos hw])

/-- A word that is no command keeps the invariant (R104). -/
theorem State.Inv.rejectWord {s : State} (h : s.Inv) (w : Word) (e : Err) : (rejectWord w e s).Inv := by
  unfold Machine.rejectWord
  split
  · exact h.locked
  · exact (h.data.of_same (t := s.accept w) rfl rfl rfl rfl).completeErr none e

/-- The command event keeps the invariant. -/
theorem State.Inv.runWord {s t : State} (h : s.Inv) {w : Word} (ht : runWord w s = .next t) : t.Inv := by
  unfold Machine.runWord at ht
  split at ht
  · exact h.exec ht
  · rw [← Host.Outcome.next.inj ht]; exact h.rejectWord w _
  · rw [← Host.Outcome.next.inj ht]; exact h.rejectWord w _

/-- Whatever a transition of an engine at work on a command does keeps the invariant (R43, R108). -/
theorem State.Inv.of_tick {s t : State} {i : Instr} (h : s.Inv) (hb : s.busy = true)
    (hc : commandOf s.engine.cw = some i) (ht : Tick s t) : t.Inv := by
  cases ht with
  | inside e on => exact h.advance hb hc on.cw on.runs
  | waits => exact h
  | draws w ws e _ _ hcw _ hruns => exact h.advance hb hc hcw hruns
  | succeeds j => exact h.data.completeOk j _
  | fails x => exact h.data.completeErr _ x

/-- A transition of the engine keeps the invariant: out of `FAIL` it is a completion, and elsewhere a running
engine is at work on a command (R108, R325). -/
theorem State.Inv.tick {s : State} (h : s.Inv) : s.tick.Inv := by
  cases hb : s.busy with
  | false => rw [show s.tick = s from ticks_idle 1 s hb]; exact h
  | true =>
    by_cases hf : ∃ x, s.engine.phase = .fail x
    · obtain ⟨x, hx⟩ := hf
      rw [show s.tick = s.completeErr (commandOf s.engine.cw) x by simp only [State.tick, hx]]
      exact h.data.completeErr _ x
    · obtain ⟨i, hc⟩ := h.decoded hb fun x hx => hf ⟨x, hx⟩
      exact h.of_tick hb hc (tick_cases h hb).1

/-- A reset leaves the engine idle (R49). -/
@[simp] theorem State.resetAll_busy (s : State) : s.resetAll.busy = false := rfl

/-- A reset leaves the invariant, in every legal build (R49, R340, R341). -/
theorem State.Inv.resetAll {s : State} (h : s.Inv) : s.resetAll.Inv where
  build := h.build
  big r := by
    have hr : s.resetAll.readG r = 0 := by simp [State.readG, State.resetAll, State.reset]
    rw [hr]
    exact Nat.two_pow_pos _
  dbg := ⟨Nat.two_pow_pos _, Nat.two_pow_pos _⟩
  dbgOff _ := ⟨rfl, rfl⟩
  pair := by simp [State.resetAll, State.reset, statusPairs]
  idle _ := rfl
  running hb := absurd hb (by simp)
  settled := by simp [State.resetAll, State.reset, Engine.cleared]
  decoded hb := absurd hb (by simp)
  tester hb := absurd hb (by simp)

/-- An abort keeps the invariant (R316). -/
theorem State.Inv.abort {s : State} (h : s.Inv) : s.abort.Inv := by
  unfold State.abort
  split
  · exact h.data.completeErr _ _
  · exact h

/-- A write to `STATUS` keeps the invariant: `DONE` can only fall (R25). -/
theorem State.Inv.writeStatus {s : State} (h : s.Inv) (v : Word) : (s.writeStatus v).Inv :=
  h.of_same rfl rfl rfl rfl rfl (fun hd => by simp [State.writeStatus, hd]) rfl rfl rfl

/-- A write to `CTRL` keeps the invariant (R30). -/
theorem State.Inv.writeCtrl {s : State} (h : s.Inv) (v : Word) : (s.writeCtrl v).Inv := by
  have hie : ({ s with ie := v.getLsbD 0 } : State).Inv := h.of_same rfl rfl rfl rfl rfl id rfl rfl rfl
  unfold State.writeCtrl
  split_ifs
  · exact h.resetAll
  · exact hie.abort
  · exact hie

/-- A write to a configuration register keeps the invariant (R32 to R36). -/
theorem State.Inv.writeConfig {s : State} (h : s.Inv) (addr : Nat) (v : Word) : (s.writeConfig addr v).Inv := by
  unfold State.writeConfig
  split_ifs <;> exact h.of_same rfl rfl rfl rfl rfl id rfl rfl rfl

/-- A write of the register window keeps the invariant (R21, R73). -/
theorem State.Inv.writeWindow {s : State} (h : s.Inv) (i j : Nat) (v : Word) : (s.writeWindow i j v).Inv := by
  unfold State.writeWindow
  split
  · exact h.of_data (h.data.writeG _ _) rfl id rfl rfl rfl
  · exact h

/-- A write on the bus keeps the invariant (R73, R78). -/
theorem State.Inv.memWrite {s : State} (h : s.Inv) (addr : Nat) (v : Word) : (s.memWrite addr v).Inv := by
  unfold State.memWrite
  split
  · exact h.writeStatus v
  split
  · exact h.writeCtrl v
  split
  · split
    · exact h.locked
    · exact h.issue v
  split
  · split
    · exact h.locked
    · exact h.writeConfig addr v
  split
  · split
    · exact h.locked
    · exact h.writeWindow _ _ v
  · exact h

/-- A read on the bus keeps the invariant (R72, R78). -/
theorem State.Inv.memRead {s : State} (h : s.Inv) (addr : Nat) : (s.memRead addr).Inv := by
  have heff : (s.readEffect addr).Inv := by
    unfold State.readEffect
    split
    · exact h
    split
    · split
      · exact h.locked
      · exact h
    · exact h
  exact heff.of_same rfl rfl rfl rfl rfl id rfl rfl rfl

/-- A poll of `WAIT` keeps the invariant (R112). -/
theorem State.Inv.poll {s : State} (h : s.Inv) : s.poll.Inv := by
  have hsame : ∀ evs w, ({ s with host := evs, rdata := w } : State).Inv := fun evs w =>
    h.of_same rfl rfl rfl rfl rfl id rfl rfl rfl
  unfold State.poll
  split
  · exact (hsame _ _).tick
  · exact hsame s.host _

/-- A carried access ends in the state it was given (R71, R79). -/
theorem access_next {b : Build} {addr : Nat} {u t : State} (h : access b addr u = .next t) : t = u := by
  unfold access at h
  split_ifs at h
  exact (Host.Outcome.next.inj h).symm

/-- A host event keeps the invariant. -/
theorem State.Inv.hostEvent {s t : State} (h : s.Inv) {ev : HostEvent} (ht : hostEvent ev s = .next t) : t.Inv := by
  cases ev with
  | command w => exact h.runWord ht
  | write addr v => rw [access_next ht]; exact h.memWrite addr v
  | read addr => rw [access_next ht]; exact h.memRead addr
  | wait => rw [← Host.Outcome.next.inj ht]; exact h.poll
  | engine => rw [← Host.Outcome.next.inj ht]; exact h.tick
  | hardReset => rw [← Host.Outcome.next.inj ht]; exact h.resetAll
  | supply w =>
    rw [← Host.Outcome.next.inj ht]
    exact h.of_same rfl rfl rfl rfl rfl id rfl rfl rfl

/-- Settles O52, by the event: each operation of the machine keeps the invariant. -/
theorem stepKeepsInv : Obligations.StepKeepsInv := by
  unfold Obligations.StepKeepsInv
  intro s t h ht
  unfold step at ht
  split at ht
  · rw [← Host.Outcome.next.inj ht]
    exact h.tick
  · next ev rest _ =>
    have htaken : (s.taken rest).Inv := h.of_same rfl rfl rfl rfl rfl id rfl rfl rfl
    exact htaken.hostEvent ht

/-! ## What a step runs -/

/-- A word that decodes to a command runs it (R9, R31). -/
theorem runWord_of_decode {w : Word} {i : Instr} (h : decode w = .ok i) (s : State) : runWord w s = exec i s := by
  unfold runWord
  rw [h]

/-- A `CMD` write to an idle engine is the acceptance of its word (R31, R105). -/
theorem memWrite_cmd {s : State} (h : s.busy = false) (w : Word) : s.memWrite 0x000 w = s.issue w := by
  simp [State.memWrite, offSTATUS, offCTRL, offCMD, h]

/-- Settles O7, clause by clause: the event decides what the step runs. -/
theorem stepRunsCommand : Obligations.StepRunsCommand := by
  unfold Obligations.StepRunsCommand
  intro s w rest
  refine ⟨fun i hh hd => ?_, fun hb hh => ?_, fun hh => ?_, fun hh => ?_⟩
  · have hstep : step s = runWord w (s.taken rest) := by rw [step, hh]; rfl
    rw [hstep, runWord_of_decode hd]
    rfl
  · rw [step_write hh (by omega) rfl, memWrite_cmd (s := s.taken rest) hb]
    rfl
  · rw [step, hh]
    rfl
  · rw [step, hh]

/-- What the host's probe reads is what the decoder reads, and no bit of the word is cut off (R100). -/
theorem decodeTableWord_some {nbits w : Nat} {i : Instr} (h : decodeTableWord nbits w = some i) :
    decode (BitVec.ofNat 32 w) = .ok i ∧ w % 2 ^ nbits = w := by
  unfold decodeTableWord at h
  split at h
  · next hw =>
    split at h
    · next j hd =>
      obtain rfl := Option.some.inj h
      exact ⟨hd, Nat.mod_eq_of_lt hw.2⟩
    · cases h
  · cases h

/-- Settles O8: the probe puts the word's command first in the host's list, before an idle engine. -/
theorem stepRunsFetchWord : Obligations.StepRunsFetchWord := by
  unfold Obligations.StepRunsFetchWord
  intro s nbits w i h
  obtain ⟨hd, hw⟩ := decodeTableWord_some h
  have hstep : step (s.withFetchWord nbits w) =
      runWord (BitVec.ofNat 32 (w % 2 ^ nbits)) { s with engine := Engine.cleared, rdata := none } := rfl
  rw [hstep, hw, runWord_of_decode hd]

end Sys2Proof.Machine

/-! ## The Montgomery blocks compute what the command level says (40_montgomery.md R131 to R135, 41_modexp.md R161) -/

namespace Sys2Proof.Machine

/-! ### The values of `MPRE` -/

/-- A Newton pass squares the distance of `n0 * y` from 1 (R132). -/
theorem newtonPass_error (n0 y : Word) : 1 - n0 * newtonPass n0 y = (1 - n0 * y) ^ 2 := by
  unfold newtonPass
  ring

/-- Of an odd word the square is 1 modulo 8. -/
theorem one_sub_sq_odd {n0 : Word} (h : n0.toNat % 2 = 1) : ∃ c : Word, 1 - n0 * n0 = 8 * c := by
  obtain ⟨q, hq⟩ : ∃ q, n0.toNat = 2 * q + 1 := ⟨n0.toNat / 2, by omega⟩
  obtain ⟨r, hr⟩ : ∃ r, q * (q + 1) = 2 * r := (Nat.even_mul_succ_self q).two_dvd
  have hn : n0 = 2 * (q : Word) + 1 := by
    have hcast : n0 = (n0.toNat : Word) := by simp
    rw [hcast, hq]
    push_cast
    rfl
  have hc : (q : Word) * ((q : Word) + 1) = 2 * (r : Word) := by exact_mod_cast congrArg (Nat.cast : Nat → Word) hr
  refine ⟨-(r : Word), ?_⟩
  rw [hn]
  linear_combination (-4 : Word) * hc

/-- Four Newton passes from `n0` invert it modulo `2^32` (R132). -/
theorem negInverse_mul_low {n : Nat} (h : n % 2 = 1) : negInverse n * BitVec.ofNat 32 (limb n 0) = -1 := by
  have hodd : (BitVec.ofNat 32 (limb n 0)).toNat % 2 = 1 := by
    simp [limb]
    omega
  obtain ⟨c, hc⟩ := one_sub_sq_odd hodd
  unfold negInverse
  simp only
  generalize BitVec.ofNat 32 (limb n 0) = n0 at *
  have herr : 1 - n0 * newtonPass n0 (newtonPass n0 (newtonPass n0 (newtonPass n0 n0))) = 0 := by
    rw [newtonPass_error, newtonPass_error, newtonPass_error, newtonPass_error, hc]
    have h8 : (8 : Word) ^ 16 = 0 := by decide
    linear_combination c ^ 16 * h8
  linear_combination herr

/-- `NP * n = -1` modulo `2^32` (R132). -/
theorem negInverse_mul {n : Nat} (h : n % 2 = 1) : (negInverse n).toNat * n % 2 ^ 32 = 2 ^ 32 - 1 := by
  have hlow := congrArg BitVec.toNat (negInverse_mul_low h)
  rw [BitVec.toNat_mul, BitVec.toNat_ofNat] at hlow
  simpa [limb, Nat.mul_mod] using hlow

/-- `R2 = R^2 mod n` (R133). -/
theorem radixSquared_eq {n : Nat} (h : 2 ≤ n) : radixSquared n (limbs n) = radix n * radix n % n := by
  rw [radixSquared, (doublings_spec (by omega) _ 1 (by omega)).2, one_mul, radix, ← pow_add]
  congr 2
  omega

/-! ### The product of `MMUL` -/

/-- The final subtraction of R134 leaves the residue below `n`. -/
theorem mulResult_spec {n s t : Nat} (h : lowLimbs (s + 1) t < 2 * n) :
    mulResult n s t < n ∧ mulResult n s t ≡ lowLimbs (s + 1) t [MOD n] := by
  change t % 2 ^ (32 * (s + 1)) < 2 * n at h
  unfold mulResult
  change (if n ≤ t % 2 ^ (32 * (s + 1)) then _ else _) < n ∧
    (if n ≤ t % 2 ^ (32 * (s + 1)) then _ else _) ≡ t % 2 ^ (32 * (s + 1)) [MOD n]
  generalize t % 2 ^ (32 * (s + 1)) = u at h
  split
  · next hle =>
    refine ⟨by omega, ?_⟩
    rw [Nat.ModEq, Nat.mod_eq_sub_mod hle]
  · exact ⟨by omega, Nat.ModEq.rfl⟩

/-- `MMUL` leaves the `u < n` with `u * R = a * b` modulo `n` (R131, R135). -/
theorem mulLimbwise_spec {a b n : Nat} (ho : n % 2 = 1) (ha : a < n) (hb : b < n) :
    mulLimbwise a b n < n ∧ mulLimbwise a b n * radix n ≡ a * b [MOD n] := by
  have hpos : 0 < limbWeight (limbs n + 2) := limbWeight_pos _
  have hzero : lowLimbs (limbs n + 1) 0 = 0 := by simp [lowLimbs]
  obtain ⟨-, hlt, hmod⟩ := mulPasses_spec (b := b) (one_le_limbs n) (lt_radix n) ha (negInverse_mul ho) (limbs n) 0 0
    hpos (by omega) (by rw [hzero, lowLimbs_zero, mul_zero, zero_mul])
  obtain ⟨h1, h2⟩ := mulResult_spec hlt
  refine ⟨h1, (h2.mul_right _).trans ?_⟩
  rwa [Nat.zero_add, lowLimbs_of_lt (hb.trans (lt_radix n))] at hmod

/-- The radix is a unit modulo an odd `n` (R130). -/
theorem radix_coprime {n : Nat} (ho : n % 2 = 1) : Nat.gcd (radix n) n = 1 :=
  Nat.Coprime.pow_left _ (Nat.coprime_two_left.2 (Nat.odd_iff.2 ho))

/-- Residues that agree after a multiplication by the radix agree. -/
theorem modEq_of_mul_radix {n x y : Nat} (ho : n % 2 = 1) (h : x * radix n ≡ y * radix n [MOD n]) : x ≡ y [MOD n] :=
  Nat.ModEq.cancel_right_of_coprime (by rw [Nat.gcd_comm]; exact radix_coprime ho) h

/-- The Montgomery product is the `u < n` with `u * R = a * b` modulo `n` (R131). -/
theorem montMul_spec {a b n : Nat} (h : 2 ≤ n) (ho : n % 2 = 1) :
    montMul a b n < n ∧ montMul a b n * radix n ≡ a * b [MOD n] := by
  obtain ⟨v, hv⟩ := modInv_isSome (radix_coprime ho)
  have hinv : radix n * v ≡ 1 [MOD n] := by
    rw [Nat.ModEq, (modInv_spec h hv).2, Nat.mod_eq_of_lt (by omega)]
  have hprod : montMul a b n = a * b * v % n := by rw [montMul, hv, Option.getD_some]
  rw [hprod]
  refine ⟨Nat.mod_lt _ (by omega), ?_⟩
  calc a * b * v % n * radix n ≡ a * b * v * radix n [MOD n] := (Nat.mod_modEq _ _).mul_right _
    _ = a * b * (radix n * v) := by ring
    _ ≡ a * b * 1 [MOD n] := hinv.mul_left _
    _ = a * b := mul_one _

/-- `MMUL` computes the Montgomery product (R135). -/
theorem mulLimbwise_eq_montMul {a b n : Nat} (h : 2 ≤ n) (ho : n % 2 = 1) (ha : a < n) (hb : b < n) :
    mulLimbwise a b n = montMul a b n := by
  obtain ⟨h1, h2⟩ := mulLimbwise_spec ho ha hb
  obtain ⟨h3, h4⟩ := montMul_spec (a := a) (b := b) h ho
  exact (modEq_of_mul_radix ho (h2.trans h4.symm)).eq_of_lt_of_lt h1 h3

/-! ### Montgomery form -/

/-- `x` is the Montgomery form of `y` modulo `n` (R141). -/
structure MontForm (n x y : Nat) : Prop where
  lt : x < n
  form : x ≡ y * radix n [MOD n]

/-- A product with `R^2` takes a residue into Montgomery form (R141). -/
theorem montForm_of_residue {n y : Nat} (h : 2 ≤ n) (ho : n % 2 = 1) (hy : y < n) :
    MontForm n (mulLimbwise y (radixSquared n (limbs n)) n) y := by
  rw [radixSquared_eq h]
  obtain ⟨h1, h2⟩ := mulLimbwise_spec ho hy (Nat.mod_lt (radix n * radix n) (show n > 0 by omega))
  refine ⟨h1, modEq_of_mul_radix ho (h2.trans ?_)⟩
  rw [mul_assoc]
  exact (Nat.mod_modEq _ _).mul_left _

/-- A product of Montgomery forms is the Montgomery form of the product (R161). -/
theorem MontForm.mul {n x y x' y' : Nat} (ho : n % 2 = 1) (hx : MontForm n x y) (hx' : MontForm n x' y') :
    MontForm n (mulLimbwise x x' n) (y * y' % n) := by
  obtain ⟨h1, h2⟩ := mulLimbwise_spec ho hx.lt hx'.lt
  refine ⟨h1, modEq_of_mul_radix ho (h2.trans ?_)⟩
  calc x * x' ≡ y * radix n * (y' * radix n) [MOD n] := hx.form.mul hx'.form
    _ = y * y' * (radix n * radix n) := by ring
    _ ≡ y * y' % n * (radix n * radix n) [MOD n] := (Nat.mod_modEq _ _).symm.mul_right _
    _ = y * y' % n * radix n * radix n := by ring

/-- A product of a Montgomery form and a plain residue is the plain product (R206). -/
theorem MontForm.mul_residue {n x y z : Nat} (ho : n % 2 = 1) (hx : MontForm n x y) (hz : z < n) :
    mulLimbwise x z n = y * z % n := by
  obtain ⟨h1, h2⟩ := mulLimbwise_spec ho hx.lt hz
  have hmod : mulLimbwise x z n ≡ y * z [MOD n] := by
    refine modEq_of_mul_radix ho (h2.trans ?_)
    calc x * z ≡ y * radix n * z [MOD n] := hx.form.mul_right _
      _ = y * z * radix n := by ring
  rw [← Nat.mod_eq_of_lt h1]
  exact hmod

/-- TOMONT's product is `x * R mod n` (R141). -/
theorem mulLimbwise_radixSquared {n y : Nat} (h : 2 ≤ n) (ho : n % 2 = 1) (hy : y < n) :
    mulLimbwise y (radixSquared n (limbs n)) n = y * radix n % n := by
  have hm := montForm_of_residue h ho hy
  rw [← Nat.mod_eq_of_lt hm.lt]
  exact hm.form

/-- The two products of `MR_SQ` square a residue (R206). -/
theorem mulLimbwise_square {n x : Nat} (h : 2 ≤ n) (ho : n % 2 = 1) (hx : x < n) :
    mulLimbwise (mulLimbwise x (radixSquared n (limbs n)) n) x n = x * x % n :=
  (montForm_of_residue h ho hx).mul_residue ho hx

/-! ### The power of `MEXP` -/

/-- The scan of R161 keeps the Montgomery form of the scan on plain residues. -/
theorem montScan_form {n bm b e : Nat} (ho : n % 2 = 1) (hb : MontForm n bm b) : ∀ k x y, MontForm n x y →
    MontForm n (montScan bm e n k x) (powScan b e n k y) := by
  intro k
  induction k with
  | zero => exact fun _ _ h => h
  | succ k ih =>
    intro x y hx
    have hsq := hx.mul ho hx
    simp only [montScan, powScan]
    cases e.testBit k with
    | false => exact ih _ _ hsq
    | true => exact ih _ _ (hsq.mul ho hb)

/-- The scan on plain residues stays below the modulus. -/
theorem powScan_lt {n b e : Nat} (h : 0 < n) : ∀ k y, y < n → powScan b e n k y < n := by
  intro k
  induction k with
  | zero => exact fun _ hy => hy
  | succ k ih =>
    intro y _
    refine ih _ ?_
    split <;> exact Nat.mod_lt _ h

/-- `MEXP`, with every product a Montgomery product, computes the power (R161, R164). -/
theorem expMontgomery_eq_modExp {b e n : Nat} (h : 2 ≤ n) (ho : n % 2 = 1) (hb : b < n) :
    expMontgomery b e n = modExp b e n := by
  have hscan := montScan_form (e := e) ho (montForm_of_residue h ho hb) (bitLength e) _ _
    (montForm_of_residue h ho (show 1 < n by omega))
  unfold expMontgomery modExp
  simp only [Nat.mod_eq_of_lt hb, Nat.mod_eq_of_lt (show 1 < n by omega)]
  rw [hscan.mul_residue ho (by omega), mul_one, Nat.mod_eq_of_lt (powScan_lt (by omega) _ _ (by omega))]

end Sys2Proof.Machine

/-! ## The top level of the sequencer (30_encoding.md R108, 60_exceptions.md R303, R304) -/

namespace Sys2Proof.Machine

/-- The live counts of a running engine are those of a drawing computation (R44). -/
structure Counts (e : Engine) (d : Draws) : Prop where
  lrng : e.lrng = d.lrng
  latt : e.latt = d.latt

/-- The command word and the live counts stay, as they do in every block that draws nothing. -/
structure Engine.KeepsCounts (e e' : Engine) : Prop where
  cw : e'.cw = e.cw
  lrng : e'.lrng = e.lrng
  latt : e'.latt = e.latt

/-! ### Completions read nothing of the engine but its counts -/

theorem State.on_commit (s : State) (e : Engine) (c : Commit) : (s.on e).commit c = (s.commit c).on e := by
  cases c with
  | key d b m n x y p q =>
    cases hd : s.build.dbgPrimes <;> simp [State.commit, State.writeDbg, State.writeG, hd]
  | _ => rfl

/-- A successful completion is the command level's (R303). -/
theorem completeOk_at {u : State} {e : Engine} {d : Draws} (h : Counts e d) (i : Instr) (c : Commit) :
    (u.at d.words e).completeOk i c = (u.withDraws d).completeOk i c := by
  have hcount : ∀ s : State, ((s.on e).countAttempts i).complete 0 0 =
      ((s.on { u.engine with lrng := d.lrng, latt := d.latt }).countAttempts i).complete 0 0 := by
    intro s
    cases i <;> simp [State.countAttempts, State.complete, State.zeroise, h.lrng, h.latt]
  have hat : u.at d.words e = State.on { u with rng := d.words } e := rfl
  have hwith : u.withDraws d = State.on { u with rng := d.words } { u.engine with lrng := d.lrng, latt := d.latt } :=
    rfl
  rw [hat, hwith, State.completeOk, State.completeOk, State.on_commit, State.on_commit, hcount]

/-- So is a completion with an error (R304). -/
theorem completeErr_at {u : State} {e : Engine} {d : Draws} (h : Counts e d) (i : Instr) (x : Err) :
    (u.at d.words e).completeErr (some i) x = (u.withDraws d).completeErr (some i) x := by
  cases i <;>
    simp [State.completeErr, State.failEffects, State.countAttempts, State.complete, State.zeroise, State.withDraws,
      h.lrng, h.latt]

/-- Out of `WRITEBACK` the command in `CW` completes (R108, R303). -/
theorem tick_writeback {s : State} {i : Instr} (hp : s.engine.phase = .writeback)
    (hc : commandOf s.engine.cw = some i) : s.tick = s.completeOk i (s.engine.results i) := by
  simp only [State.tick, hp, State.tickWriteback, hc]

/-- Out of `FAIL` the command in `CW` completes with the error (R108, R304). -/
theorem tick_fail {s : State} {x : Err} (hp : s.engine.phase = .fail x) :
    s.tick = s.completeErr (commandOf s.engine.cw) x := by
  simp only [State.tick, hp]

/-- Out of `EXEC` the command's checks are made and its block is started (R108). -/
theorem tick_accepted {s : State} {i : Instr} (hw : i.wellFormed = true) :
    (s.accepted i).tick = (s.accepted i).on ((s.accepted i).engine.startCommand (s.accepted i).bitlen i) := by
  simp only [State.tick, State.accepted_phase, State.tickExec, State.accepted_cw, commandOf_encode hw]

/-! ### The sequencer follows a computation of the command level -/

/-- The sequencer, from `u`, has the commit `c` of the command `i` ready after the draws `d`. -/
def Commits (u : State) (i : Instr) (c : Commit) (d : Draws) : Prop :=
  ∃ e, Runs u (u.at d.words e) ∧ e.phase = .writeback ∧ e.cw = encode i ∧ Counts e d ∧ e.results i = c

/-- The sequencer follows the computation `x` of the command `i` from the command's acceptance in `u`. -/
def Follows (u : State) (i : Instr) (x : Gen Commit) : Prop := Sim2 u u (encode i) (Commits u i) x

/-- A computation that ends is followed to the command level's completion. -/
theorem Follows.completes {u : State} {i : Instr} {x : Gen Commit} (h : Follows u i x) (hw : i.wellFormed = true)
    (hx : x ≠ .silent) : Runs u (u.finish i x) := by
  cases x with
  | silent => exact absurd rfl hx
  | ok c d =>
    obtain ⟨e, hrun, hphase, hcw, hcounts, hres⟩ := h
    have htick : (u.at d.words e).tick = (u.at d.words e).completeOk i (e.results i) :=
      tick_writeback hphase (by rw [hcw]; exact commandOf_encode hw)
    refine hrun.trans (.step htick ?_)
    rw [hres, completeOk_at hcounts]
    exact .refl _
  | err y d =>
    obtain ⟨e, hrun, hphase, hcw, hlrng, hlatt⟩ := h
    have htick : (u.at d.words e).tick = (u.at d.words e).completeErr (commandOf e.cw) y := tick_fail hphase
    refine hrun.trans (.step htick ?_)
    rw [hcw, commandOf_encode hw, completeErr_at ⟨hlrng, hlatt⟩]
    exact .refl _

/-- The engine of a state that it will reach busy for good is busy until then: an idle engine does nothing. -/
theorem busy_of_runs_stuck {s t : State} (h : Runs s t) (ht : ∀ k, (State.ticks k t).busy = true) (k : Nat) :
    (State.ticks k s).busy = true := by
  obtain ⟨j, rfl⟩ := h
  rcases Nat.le_total j k with hjk | hkj
  · obtain ⟨a, rfl⟩ := Nat.exists_eq_add_of_le hjk
    rw [ticks_add]
    exact ht a
  · by_contra hidle
    obtain ⟨a, rfl⟩ := Nat.exists_eq_add_of_le hkj
    have hj := ht 0
    rw [State.ticks, ticks_add, ticks_idle a _ (by simpa using hidle)] at hj
    exact hidle hj

/-- A computation that waits on a silent port leaves the sequencer busy for ever (R47). -/
theorem Follows.waits {u : State} {i : Instr} (h : Follows u i .silent) (k : Nat) :
    (State.ticks k u).busy = true := by
  obtain ⟨e, hrun, hphase⟩ := h
  refine busy_of_runs_stuck hrun (fun j => ?_) k
  rw [stuck j u e hphase]
  rcases hphase with hp | hp <;> simp [State.busy, hp]

/-! ### Commands that draw nothing -/

/-- The checks of a command of the Montgomery kernel, when they pass (R137). -/
theorem checkOperands_none {n : Nat} {xs : List Nat} (h : checkOperands n xs = none) :
    3 ≤ n ∧ n % 2 = 1 ∧ ∀ x ∈ xs, x < n := by
  unfold checkOperands badModulus at h
  split_ifs at h with h1 h2
  simp only [Bool.or_eq_true, decide_eq_true_eq, beq_iff_eq, not_or] at h1
  refine ⟨by omega, by omega, fun x hx => ?_⟩
  by_contra hlt
  exact h2 (List.any_eq_true.2 ⟨x, hx, by simpa using hlt⟩)

/-- The engine with the result waiting for write-back, or with the error reported. -/
def Engine.deliver (e : Engine) : Except Err Nat → Engine
  | .ok v => e.writeback v
  | .error x => e.report x

/-- The engine `e1` of `u` reaches the delivery of `r`, with the command word and the counts of `e`. -/
def Reaches (u : State) (e e1 : Engine) (r : Except Err Nat) : Prop :=
  ∃ e', e.KeepsCounts e' ∧ Runs (u.on e1) (u.on (e'.deliver r))

/-- From the run, when the engine it ends in is known. -/
theorem Reaches.of {u : State} {e e1 e' : Engine} {r : Except Err Nat} (hrun : Runs (u.on e1) (u.on (e'.deliver r)))
    (hkeep : e.KeepsCounts e') : Reaches u e e1 r := ⟨e', hkeep, hrun⟩

/-- A computation without draws is followed when the started block reaches its result. -/
theorem follows_result {s : State} {i : Instr} {d : Reg} {r : Except Err Nat} (hw : i.wellFormed = true)
    (hres : ∀ e : Engine, e.results i = .big d e.res0)
    (h : Reaches (s.accepted i) (s.accepted i).engine
      ((s.accepted i).engine.startCommand (s.accepted i).bitlen i) r) :
    Follows (s.accepted i) i ((s.accepted i).result d r) := by
  obtain ⟨e', hkeep, hrun⟩ := h
  have hall := Runs.step (tick_accepted hw) hrun
  cases r with
  | ok v => exact ⟨e'.writeback v, hall, rfl, hkeep.cw, ⟨hkeep.lrng, hkeep.latt⟩, hres _⟩
  | error x => exact ⟨e'.report x, hall, rfl, hkeep.cw, hkeep.lrng, hkeep.latt⟩

/-- A guarded value is delivered when the block started behind the check delivers it (R137, R306). -/
theorem reaches_guarded {u : State} {e e1 : Engine} {check : Option Err} {v : Nat}
    (hfail : ∀ x, check = some x → e1 = e.report x) (hpass : check = none → Reaches u e e1 (.ok v)) :
    Reaches u e e1 (guarded check v) := by
  cases hc : check with
  | none => exact hpass hc
  | some x => exact ⟨e, ⟨rfl, rfl, rfl⟩, hfail x hc ▸ .refl _⟩

/-- The engine `e` when `MPRE(n)` for `c` is done (R138). -/
abbrev Engine.prepared (e : Engine) (n : Nat) (c : PreCaller) : Engine :=
  { e with
    mn := n, preFor := c, np := negInverse n, s := limbs n, r2 := radixSquared n (limbs n), phase := .mpR2 }

/-- `MPRE` and one product for the top level deliver the product (R138). -/
theorem reaches_product {u : State} {e : Engine} {n a b : Nat} {c : PreCaller}
    (hpre : (e.prepared n c).preDone = (e.prepared n c).startMul a b n .command) :
    Reaches u e (e.startPre n c) (.ok (mulLimbwise a b n)) := by
  have hrun : Runs (u.on (e.startPre n c)) (u.on (e.prepared n c).preDone) := pre_block u e n c
  rw [hpre] at hrun
  obtain ⟨T, j, hmul⟩ := mul_block u (e.prepared n c) a b n .command rfl rfl
  exact .of (hrun.trans hmul) ⟨rfl, rfl, rfl⟩

/-- `MEXP` for the top level delivers the power of the reduced operand (R163, R165). -/
theorem reaches_power {u : State} {e : Engine} (h : 2 ≤ e.opm) (ho : e.opm % 2 = 1) :
    Reaches u e (e.startExp .command) (.ok (modExp (e.opa % e.opm) e.opb e.opm)) := by
  obtain ⟨z, hrun⟩ :=
    exp_block u e .command e.opm e.opb (e.opa % e.opm) (fun _ => rfl) (fun _ => rfl) (fun _ => rfl) rfl
  rw [expMontgomery_eq_modExp h ho (Nat.mod_lt _ (by omega))] at hrun
  exact .of hrun ⟨rfl, rfl, rfl⟩

/-! ### The refinement, command by command -/

/-- The command level answers `i` by one `runCommand`, and the sequencer follows its computation (R9). -/
def Refines (i : Instr) (s : State) : Prop :=
  ∃ body : State → Gen Commit, exec i s = runCommand i body s ∧
    (i.wellFormed = true → Follows (s.accepted i) i (body (s.accepted i)))

/-- MONTMUL (R140). -/
theorem refines_montmul (d a b m : Reg) (s : State) : Refines (.montmul d a b m) s := by
  refine ⟨_, execMontmul.eq_def d a b m s, fun hw => follows_result hw (fun _ => rfl) ?_⟩
  generalize s.accepted (.montmul d a b m) = u
  refine reaches_guarded (fun x hx => by simp only [Engine.startCommand, hx]) fun hc => ?_
  simp only [Engine.startCommand, hc]
  obtain ⟨h3, hodd, hlt⟩ := checkOperands_none hc
  rw [← mulLimbwise_eq_montMul (by omega) hodd (hlt _ (by simp)) (hlt _ (by simp))]
  exact reaches_product rfl

/-- TOMONT (R141). -/
theorem refines_tomont (d a m : Reg) (s : State) : Refines (.tomont d a m) s := by
  refine ⟨_, execTomont.eq_def d a m s, fun hw => follows_result hw (fun _ => rfl) ?_⟩
  generalize s.accepted (.tomont d a m) = u
  refine reaches_guarded (fun x hx => by simp only [Engine.startCommand, hx]) fun hc => ?_
  simp only [Engine.startCommand, hc]
  obtain ⟨h3, hodd, hlt⟩ := checkOperands_none hc
  rw [← mulLimbwise_radixSquared (by omega) hodd (hlt _ (by simp))]
  exact reaches_product rfl

/-- FROMMONT (R142). -/
theorem refines_frommont (d a m : Reg) (s : State) : Refines (.frommont d a m) s := by
  refine ⟨_, execFrommont.eq_def d a m s, fun hw => follows_result hw (fun _ => rfl) ?_⟩
  generalize s.accepted (.frommont d a m) = u
  refine reaches_guarded (fun x hx => by simp only [Engine.startCommand, hx]) fun hc => ?_
  simp only [Engine.startCommand, hc]
  obtain ⟨h3, hodd, hlt⟩ := checkOperands_none hc
  rw [← mulLimbwise_eq_montMul (by omega) hodd (hlt _ (by simp)) (by omega)]
  exact reaches_product rfl

/-- MODEXP (R165). -/
theorem refines_modexp (d a b m : Reg) (s : State) : Refines (.modexp d a b m) s := by
  refine ⟨_, execModexp.eq_def d a b m s, fun hw => follows_result hw (fun _ => rfl) ?_⟩
  generalize s.accepted (.modexp d a b m) = u
  refine reaches_guarded (fun x hx => by simp only [Engine.startCommand, hx]) fun hc => ?_
  simp only [Engine.startCommand, hc]
  obtain ⟨h3, hodd, -⟩ := checkOperands_none hc
  exact reaches_power (by omega) hodd

/-- The one datapath of ENCRYPT and DECRYPT delivers its result (R273). -/
theorem reaches_cipher {u : State} {e e1 : Engine}
    (hfail : ∀ x, checkOperands e.opm [e.opa] = some x → e1 = e.report x)
    (hpass : checkOperands e.opm [e.opa] = none → e1 = e.startExp .command) :
    Reaches u e e1 (cipherResult e.opa e.opb e.opm) := by
  refine reaches_guarded hfail fun hc => ?_
  obtain ⟨h3, hodd, hlt⟩ := checkOperands_none hc
  have hpow := reaches_power (u := u) (e := e) (by omega) hodd
  rw [Nat.mod_eq_of_lt (hlt _ (by simp))] at hpow
  rw [hpass hc]
  exact hpow

/-- ENCRYPT (R271). -/
theorem refines_encrypt (d a b m : Reg) (s : State) : Refines (.encrypt d a b m) s := by
  refine ⟨_, execEncrypt.eq_def d a b m s, fun hw => follows_result hw (fun _ => rfl) (reaches_cipher ?_ ?_)⟩
  · exact fun x hx => by simp only [Engine.startCommand, hx]
  · exact fun hc => by simp only [Engine.startCommand, hc]

/-- DECRYPT (R272). -/
theorem refines_decrypt (d a b m : Reg) (s : State) : Refines (.decrypt d a b m) s := by
  refine ⟨_, execDecrypt.eq_def d a b m s, fun hw => follows_result hw (fun _ => rfl) (reaches_cipher ?_ ?_)⟩
  · exact fun x hx => by simp only [Engine.startCommand, hx]
  · exact fun hc => by simp only [Engine.startCommand, hc]

/-- GCD (R186). -/
theorem refines_gcd (d a b : Reg) (s : State) : Refines (.gcd d a b) s := by
  refine ⟨_, execGcd.eq_def d a b s, fun hw => follows_result hw (fun _ => rfl) ?_⟩
  generalize s.accepted (.gcd d a b) = u
  obtain ⟨q, v, hrun⟩ := eu_block_gcd u u.engine .gcdCommand u.engine.opa u.engine.opb (fun _ _ _ _ _ _ => rfl) rfl rfl
  exact .of hrun ⟨rfl, rfl, rfl⟩

/-- MODINV (R187). -/
theorem refines_modinv (d a m : Reg) (s : State) : Refines (.modinv d a m) s := by
  refine ⟨_, execModinv.eq_def d a m s, fun hw => follows_result hw (fun _ => rfl) ?_⟩
  generalize s.accepted (.modinv d a m) = u
  simp only [Engine.startCommand, inverseOrError]
  by_cases h2 : u.engine.opm < 2
  · rw [if_pos h2, if_pos h2]
    exact ⟨u.engine, ⟨rfl, rfl, rfl⟩, .refl _⟩
  · rw [if_neg h2, if_neg h2]
    obtain ⟨r0, q, t0, t1, g, v, hrun, hinv⟩ := eu_block_inv u u.engine .invCommand u.engine.opa u.engine.opm (by omega)
      (fun _ _ _ _ _ _ => rfl) rfl rfl (fun _ _ _ _ _ _ => rfl)
    rw [hinv]
    simp only [Engine.euclidDone] at hrun
    by_cases hg : g = 1
    · simp only [if_pos hg] at hrun ⊢
      exact .of hrun ⟨rfl, rfl, rfl⟩
    · simp only [if_neg hg] at hrun ⊢
      exact .of hrun ⟨rfl, rfl, rfl⟩

/-- ZEROIZE (R281). -/
theorem refines_zeroize (s : State) : Refines .zeroize s :=
  ⟨_, execZeroize.eq_def s, fun hw => ⟨_, .step (tick_accepted hw) (.refl _), rfl, rfl, ⟨rfl, rfl⟩, rfl⟩⟩

end Sys2Proof.Machine

/-! ## The sequencer of the tester follows `MRT` (43_primality.md R201 to R210) -/

namespace Sys2Proof.Machine

/-! ### What the blocks leave alone -/

/-- The registers of the engine that a whole `PGEN` leaves to its caller. -/
structure GenRegs where
  cw : Word
  genFor : GenCaller
  pk : Word
  kp : Nat
  krt : Nat

/-- The registers that a whole `MRT` leaves to its caller. -/
structure TestRegs extends GenRegs where
  testFor : TestCaller
  pc : Nat
  patt : Nat

/-- The registers that the draw of a base leaves to the tester (R204). -/
structure BaseRegs extends TestRegs where
  tn : Nat
  ts : Nat
  td : Nat
  tr : Nat

/-- The registers that the arithmetic of a round leaves to the tester (R205, R206). -/
structure RoundRegs extends BaseRegs where
  lrng : Word
  latt : Word

/-- The registers that one product leaves to the squarings of a round (R206). -/
structure ProductRegs extends RoundRegs where
  np : Word
  s : Nat
  r2 : Nat
  tj : Nat
  tx : Nat

/-- The registers `PGEN` leaves alone, as they are in `e`. -/
def Engine.genRegs (e : Engine) : GenRegs := ⟨e.cw, e.genFor, e.pk, e.kp, e.krt⟩

/-- The registers `MRT` leaves alone, as they are in `e`. -/
def Engine.testRegs (e : Engine) : TestRegs := ⟨e.genRegs, e.testFor, e.pc, e.patt⟩

/-- The registers the draw of a base leaves alone, as they are in `e`. -/
def Engine.baseRegs (e : Engine) : BaseRegs := ⟨e.testRegs, e.tn, e.ts, e.td, e.tr⟩

/-- The registers a round's arithmetic leaves alone, as they are in `e`. -/
def Engine.roundRegs (e : Engine) : RoundRegs := ⟨e.baseRegs, e.lrng, e.latt⟩

/-- The registers a product leaves alone, as they are in `e`. -/
def Engine.productRegs (e : Engine) : ProductRegs := ⟨e.roundRegs, e.np, e.s, e.r2, e.tj, e.tx⟩

/-! ### The transitions of the tester, state by state (R210) -/

section
variable {u : State} {e : Engine}

theorem tick_mrCheck (h : e.phase = .mrCheck) : (u.on e).tick =
    u.on (if e.tn < 2 then e.testDone false else if e.tn % 2 = 0 then e.testDone false
      else if e.tn = 3 then e.testDone true else { e with phase := .mrDecomp }) := by
  simp only [State.tick, Engine.tickTest, h]

theorem tick_mrDecomp (h : e.phase = .mrDecomp) : (u.on e).tick =
    u.on (Engine.startPre { e with ts := decomposeS e.tn, td := decomposeD e.tn, tr := 0 } e.tn .tester) := by
  simp only [State.tick, Engine.tickTest, h]

theorem tick_mrRound (h : e.phase = .mrRound) : (u.on e).tick =
    u.on (if e.tr = u.rounds.toNat then e.testDone true
      else { e with tr := e.tr + 1, trej := 0, ta := 0, dj := 0, phase := .mrDraw }) := by
  simp only [State.tick, Engine.tickTest, h]

theorem tick_mrPow (h : e.phase = .mrPow) : (u.on e).tick = u.on (e.startExp .tester) := by
  simp only [State.tick, Engine.tickTest, h]

theorem tick_mrCmp0 (h : e.phase = .mrCmp0) : (u.on e).tick =
    u.on (if e.tx = 1 ∨ e.tx = e.tn - 1 then { e with phase := .mrRound }
      else { e with tj := 1, phase := .mrSq }) := by
  simp only [State.tick, Engine.tickTest, h]

theorem tick_mrSq (h : e.phase = .mrSq) : (u.on e).tick =
    u.on (if e.tj = e.ts then e.testDone false
      else Engine.startMul { e with tj := e.tj + 1 } e.tx e.r2 e.tn .mrSqFirst) := by
  simp only [State.tick, Engine.tickTest, h]

theorem tick_mrCmp (h : e.phase = .mrCmp) : (u.on e).tick =
    u.on (if e.tx = e.tn - 1 then { e with phase := .mrRound }
      else if e.tx = 1 then e.testDone false else { e with phase := .mrSq }) := by
  simp only [State.tick, Engine.tickTest, h]

end

/-! ### A round (R205, R206) -/

/-- The end of a round: on to the next, or the verdict composite. -/
def Engine.roundEnd (e : Engine) : Bool → Engine
  | true => { e with phase := .mrRound }
  | false => e.testDone false

/-- In state `p` of the tester of an odd `n`, with `MPRE`'s values for `n` at hand and a residue in `TX`. -/
structure Squaring (n : Nat) (p : Phase) (e : Engine) : Prop where
  two_le : 2 ≤ n
  odd : n % 2 = 1
  phase : e.phase = p
  tn : e.tn = n
  tx : e.tx < n
  np : e.np = negInverse n
  s : e.s = limbs n
  r2 : e.r2 = radixSquared n (limbs n)

/-- `MMUL` as a block, with what it leaves alone. -/
theorem product_run (u : State) (e : Engine) (a b n : Nat) (c : MulCaller) (hnp : e.np = negInverse n)
    (hs : e.s = limbs n) : ∃ e' : Engine, e'.mulFor = c ∧ e'.productRegs = e.productRegs ∧
      Runs (u.on (e.startMul a b n c)) (u.on (e'.mulDone (mulLimbwise a b n))) := by
  obtain ⟨T, j, hrun⟩ := mul_block u e a b n c hnp hs
  exact ⟨{ e with ma := a, mb := b, mn := n, mulFor := c, t := T, mi := e.s, mj := j, phase := .mmSub }, rfl, rfl, hrun⟩

/-- The two products of `MR_SQ` square `TX` (R206). -/
theorem square_run (u : State) {n : Nat} {e : Engine} (h : Squaring n .mrSq e) (hj : e.tj ≠ e.ts) :
    ∃ e', Squaring n .mrCmp e' ∧ e'.roundRegs = e.roundRegs ∧ e'.tj = e.tj + 1 ∧ e'.tx = e.tx * e.tx % n ∧
      Runs (u.on e) (u.on e') := by
  have htick : (u.on e).tick = u.on (Engine.startMul { e with tj := e.tj + 1 } e.tx e.r2 n .mrSqFirst) := by
    rw [tick_mrSq h.phase, if_neg hj, ← h.tn]
  obtain ⟨e1, hfor1, hregs1, hrun1⟩ := product_run u { e with tj := e.tj + 1 } e.tx e.r2 n .mrSqFirst h.np h.s
  have htx1 : e1.tx = e.tx := congrArg ProductRegs.tx hregs1
  have htn1 : e1.tn = n := (congrArg (·.tn) hregs1).trans h.tn
  have hdone1 : ∀ v, e1.mulDone v = e1.startMul v e.tx n .mrSqSecond := fun v => by
    simp only [Engine.mulDone, hfor1, htx1, htn1]
  obtain ⟨e2, hfor2, hregs2, hrun2⟩ := product_run u e1 (mulLimbwise e.tx e.r2 n) e.tx n .mrSqSecond
    ((congrArg ProductRegs.np hregs1).trans h.np) ((congrArg ProductRegs.s hregs1).trans h.s)
  have hregs := hregs2.trans hregs1
  have hsquare : mulLimbwise (mulLimbwise e.tx e.r2 n) e.tx n = e.tx * e.tx % n := by
    rw [h.r2]
    exact mulLimbwise_square h.two_le h.odd h.tx
  have hdone2 : e2.mulDone (mulLimbwise (mulLimbwise e.tx e.r2 n) e.tx n) =
      { e2 with tx := e.tx * e.tx % n, phase := .mrCmp } := by
    simp only [Engine.mulDone, hfor2, hsquare]
  rw [hdone1] at hrun1
  rw [hdone2] at hrun2
  exact ⟨{ e2 with tx := e.tx * e.tx % n, phase := .mrCmp },
    { two_le := h.two_le
      odd := h.odd
      phase := rfl
      tn := (congrArg (·.tn) hregs).trans h.tn
      tx := Nat.mod_lt _ (Nat.lt_of_lt_of_le Nat.two_pos h.two_le)
      np := (congrArg ProductRegs.np hregs).trans h.np
      s := (congrArg ProductRegs.s hregs).trans h.s
      r2 := (congrArg ProductRegs.r2 hregs).trans h.r2 },
    congrArg ProductRegs.toRoundRegs hregs, congrArg ProductRegs.tj hregs, rfl, .step htick (hrun1.trans hrun2)⟩

/-- The squarings of a round decide it as R206 says: `k` of them are left. -/
theorem squares_run (u : State) {n : Nat} : ∀ (k : Nat) (e : Engine), Squaring n .mrSq e → e.tj + k = e.ts →
    ∃ e' : Engine, e'.roundRegs = e.roundRegs ∧ Runs (u.on e) (u.on (e'.roundEnd (squaresPass n k e.tx))) := by
  intro k
  induction k with
  | zero =>
    intro e h hj
    exact ⟨e, rfl, .step (by rw [tick_mrSq h.phase, if_pos (by omega)]; rfl) (.refl _)⟩
  | succ k ih =>
    intro e h hj
    obtain ⟨e1, h1, hregs, htj, htx, hrun⟩ := square_run u h (by omega)
    rw [squaresPass, ← htx]
    by_cases hlast : e1.tx = n - 1
    · have hcmp : (u.on e1).tick = u.on (e1.roundEnd true) := by
        rw [tick_mrCmp h1.phase, if_pos (by rw [h1.tn, hlast])]
        rfl
      simp only [if_pos hlast]
      exact ⟨e1, hregs, hrun.trans (.step hcmp (.refl _))⟩
    have hlast' : e1.tx ≠ e1.tn - 1 := by rw [h1.tn]; exact hlast
    by_cases hone : e1.tx = 1
    · have hcmp : (u.on e1).tick = u.on (e1.roundEnd false) := by
        rw [tick_mrCmp h1.phase, if_neg hlast', if_pos hone]
        rfl
      simp only [if_neg hlast, if_pos hone]
      exact ⟨e1, hregs, hrun.trans (.step hcmp (.refl _))⟩
    · have hcmp : (u.on e1).tick = u.on { e1 with phase := .mrSq } := by
        rw [tick_mrCmp h1.phase, if_neg hlast', if_neg hone]
      have hts : e1.ts = e.ts := congrArg (·.ts) hregs
      obtain ⟨e2, hregs2, hrun2⟩ := ih { e1 with phase := .mrSq } { h1 with phase := rfl }
        (show e1.tj + k = e1.ts by omega)
      simp only [if_neg hlast, if_neg hone]
      exact ⟨e2, hregs2.trans hregs, hrun.trans (.step hcmp hrun2)⟩

/-- A round with the base in `TA` ends as R205 says. -/
theorem round_run (u : State) {n a : Nat} {e : Engine} (h3 : 3 ≤ n) (hodd : n % 2 = 1) (hphase : e.phase = .mrPow)
    (htn : e.tn = n) (hts : e.ts = decomposeS n) (htd : e.td = decomposeD n) (hta : e.ta = a) (ha : a < n) :
    ∃ e' : Engine, e'.roundRegs = e.roundRegs ∧ Runs (u.on e) (u.on (e'.roundEnd (roundPasses n a))) := by
  obtain ⟨z, hpow⟩ := exp_block u e .tester n (decomposeD n) a (fun _ => htn) (fun _ => htd) (fun _ => hta) htn
  rw [expMontgomery_eq_modExp (by omega) hodd ha] at hpow
  have hx : modExp a (decomposeD n) n < n := by
    rw [modExp_eq]
    exact Nat.mod_lt _ (by omega)
  unfold roundPasses
  generalize modExp a (decomposeD n) n = x at hpow hx
  obtain ⟨e1, he1⟩ : ∃ e1, e1 = ({ e.putExp n .tester z with tx := x, phase := .mrCmp0 } : Engine) := ⟨_, rfl⟩
  have hregs : e1.roundRegs = e.roundRegs := by rw [he1]; rfl
  have htn1 : e1.tn = n := by rw [he1]; exact htn
  have hts1 : e1.ts = decomposeS n := by rw [he1]; exact hts
  have htx1 : e1.tx = x := by rw [he1]
  have hstart : Runs (u.on e) (u.on e1) := by
    rw [he1]
    exact .step (tick_mrPow hphase) hpow
  have hphase1 : e1.phase = .mrCmp0 := by rw [he1]
  simp only
  by_cases hpass : x = 1 ∨ x = n - 1
  · have hcmp : (u.on e1).tick = u.on (e1.roundEnd true) := by
      rw [tick_mrCmp0 hphase1, if_pos (by rw [htx1, htn1]; exact hpass)]
      rfl
    rw [if_pos hpass]
    exact ⟨e1, hregs, hstart.trans (.step hcmp (.refl _))⟩
  · have hcmp : (u.on e1).tick = u.on { e1 with tj := 1, phase := .mrSq } := by
      rw [tick_mrCmp0 hphase1, if_neg (by rw [htx1, htn1]; exact hpass)]
    have hpos := decomposeS_pos h3 hodd
    have hsq : Squaring n .mrSq { e1 with tj := 1, phase := .mrSq } :=
      { two_le := by omega
        odd := hodd
        phase := rfl
        tn := htn1
        tx := htx1.trans_lt hx
        np := by rw [he1]
        s := by rw [he1]
        r2 := by rw [he1] }
    obtain ⟨e2, hregs2, hrun⟩ := squares_run u (decomposeS n - 1) _ hsq (show 1 + (decomposeS n - 1) = e1.ts by omega)
    rw [if_neg hpass, ← htx1]
    exact ⟨e2, hregs2.trans hregs, hstart.trans (.step hcmp hrun)⟩

/-! ### The rounds (R201, R204) -/

/-- A computation of the command level that the sequencer follows, with what its value is known to satisfy. -/
theorem Sim2.within {α : Type} {u src : State} {cw : Word} {ok ok2 : α → Draws → Prop} {x : Gen α} {d : Draws} {B : Nat}
    {P : α → Prop} {E : Err → Prop} (h : Sim2 u src cw ok x) (hx : x.Within d B P E)
    (himp : ∀ a d', P a → ok a d' → ok2 a d') : Sim2 u src cw ok2 x := by
  cases x with
  | ok a d' => exact himp a d' hx.1 h
  | err e d' => exact h
  | silent => exact h

/-- The sequencer, from `src`, has drawn the base `a` of `n` for the tester of `e`. -/
def HasBase (u src : State) (e : Engine) (n a : Nat) (d : Draws) : Prop :=
  a < n ∧ ∃ e', e'.phase = .mrPow ∧ e'.ta = a ∧ Counts e' d ∧ e'.baseRegs = e.baseRegs ∧ Runs src (u.at d.words e')

/-- The draw of a base (R204, R210). -/
theorem follows_base (u src : State) {cw : Word} {n : Nat} {e : Engine} {d : Draws} (h3 : 3 ≤ n) (hcw : e.cw = cw)
    (htn : e.tn = n) (hcounts : Counts e d)
    (h : Runs src (u.at d.words { e with trej := 0, ta := 0, dj := 0, phase := .mrDraw })) :
    Sim2 u src cw (HasBase u src e n) (drawBase n Config.baseRejectCap d) := by
  subst hcw htn
  have hloop := base_loop u src e h3 (Config.baseRejectCap - 1) 0 d rfl (by
    rw [← hcounts.lrng, ← hcounts.latt]
    exact h)
  refine hloop.within (drawBase_within e.tn _ d) fun a d' ha ⟨r, hrun⟩ => ?_
  exact ⟨by omega, { e with trej := r, ta := a, dj := 0, lrng := d'.lrng, latt := d'.latt, phase := .mrPow },
    rfl, rfl, ⟨rfl, rfl⟩, rfl, hrun⟩

/-- Before a round of the tester of `n`, `r` of them made. -/
structure AtRound (n r : Nat) (d : Draws) (e : Engine) : Prop where
  phase : e.phase = .mrRound
  tn : e.tn = n
  ts : e.ts = decomposeS n
  td : e.td = decomposeD n
  tr : e.tr = r
  counts : Counts e d

/-- The sequencer, from `src`, has the verdict `v` for the caller of the tester that `e` started. -/
def Judges (u src : State) (e : Engine) (v : Bool) (d : Draws) : Prop :=
  ∃ e', e'.testRegs = e.testRegs ∧ Counts e' d ∧ Runs src (u.at d.words (e'.testDone v))

/-- The rounds of the tester, `k` of them left (R201). -/
theorem follows_rounds (u src : State) {n : Nat} (h3 : 3 ≤ n) (hodd : n % 2 = 1) (e0 : Engine) :
    ∀ (k r : Nat) (d : Draws) (e : Engine), r + k = u.rounds.toNat → AtRound n r d e → e.testRegs = e0.testRegs →
      Runs src (u.at d.words e) → Sim2 u src e0.cw (Judges u src e0) (testRounds n k d) := by
  intro k
  induction k with
  | zero =>
    intro r d e hr h hregs hrun
    have htick : (u.at d.words e).tick = u.at d.words (e.testDone true) := by
      rw [tick_mrRound (u := { u with rng := d.words }) h.phase, if_pos (by rw [h.tr]; exact hr)]
    exact ⟨e, hregs, h.counts, hrun.trans (.step htick (.refl _))⟩
  | succ k ih =>
    intro r d e hr h hregs hrun
    have htick : (u.at d.words e).tick =
        u.at d.words { e with tr := e.tr + 1, trej := 0, ta := 0, dj := 0, phase := .mrDraw } := by
      rw [tick_mrRound (u := { u with rng := d.words }) h.phase, if_neg (by rw [h.tr]; show r ≠ u.rounds.toNat; omega)]
    have hdraw := follows_base u src (e := { e with tr := e.tr + 1 }) h3 (congrArg (·.cw) hregs) h.tn
      ⟨h.counts.lrng, h.counts.latt⟩ (hrun.trans (.step htick (.refl _)))
    refine hdraw.bind fun a d1 ⟨ha, e1, hphase1, hta1, hcounts1, hregs1, hrun1⟩ => ?_
    have htr1 : e1.tr = e.tr + 1 := congrArg BaseRegs.tr hregs1
    obtain ⟨e2, hregs2, hrun2⟩ := round_run { u with rng := d1.words } h3 hodd hphase1
      ((congrArg BaseRegs.tn hregs1).trans h.tn) ((congrArg BaseRegs.ts hregs1).trans h.ts)
      ((congrArg BaseRegs.td hregs1).trans h.td) hta1 ha
    have hbase2 := (congrArg RoundRegs.toBaseRegs hregs2).trans hregs1
    have hcounts2 : Counts e2 d1 :=
      ⟨(congrArg RoundRegs.lrng hregs2).trans hcounts1.lrng, (congrArg RoundRegs.latt hregs2).trans hcounts1.latt⟩
    have htest2 : e2.testRegs = e0.testRegs := (congrArg BaseRegs.toTestRegs hbase2).trans hregs
    cases hpass : roundPasses n a with
    | true =>
      rw [hpass] at hrun2
      refine ih (r + 1) d1 { e2 with phase := .mrRound } (by omega) ?_ htest2 (hrun1.trans hrun2)
      exact { phase := rfl
              tn := (congrArg BaseRegs.tn hbase2).trans h.tn
              ts := (congrArg BaseRegs.ts hbase2).trans h.ts
              td := (congrArg BaseRegs.td hbase2).trans h.td
              tr := (congrArg BaseRegs.tr hbase2).trans (congrArg (· + 1) h.tr)
              counts := ⟨hcounts2.lrng, hcounts2.latt⟩ }
    | false =>
      rw [hpass] at hrun2
      exact ⟨e2, htest2, hcounts2, hrun1.trans hrun2⟩

/-- `MRT(n, ROUNDS)` (R201, R202, R203, R210). -/
theorem follows_test (u src : State) {cw : Word} {e : Engine} (n : Nat) (c : TestCaller) {d : Draws} (hcw : e.cw = cw)
    (hcounts : Counts e d) (h : Runs src (u.at d.words (e.startTest n c))) :
    Sim2 u src cw (Judges u src (e.startTest n c)) (millerRabin n u.rounds.toNat d) := by
  subst hcw
  have hcheck := tick_mrCheck (u := { u with rng := d.words }) (e := e.startTest n c) rfl
  have hend : ∀ v, (u.at d.words (e.startTest n c)).tick = u.at d.words ((e.startTest n c).testDone v) →
      Judges u src (e.startTest n c) v d :=
    fun v htick => ⟨e.startTest n c, rfl, ⟨hcounts.lrng, hcounts.latt⟩, h.trans (.step htick (.refl _))⟩
  unfold millerRabin
  by_cases h2 : n < 2
  · rw [if_pos h2]
    exact hend false (hcheck.trans (congrArg _ (if_pos h2)))
  rw [if_neg h2]
  rw [if_neg (show ¬(e.startTest n c).tn < 2 from h2)] at hcheck
  by_cases heven : n % 2 = 0
  · rw [if_pos heven]
    exact hend false (hcheck.trans (congrArg _ (if_pos heven)))
  rw [if_neg heven]
  rw [if_neg (show ¬(e.startTest n c).tn % 2 = 0 from heven)] at hcheck
  by_cases hthree : n = 3
  · rw [if_pos hthree]
    exact hend true (hcheck.trans (congrArg _ (if_pos hthree)))
  rw [if_neg hthree]
  rw [if_neg (show ¬(e.startTest n c).tn = 3 from hthree)] at hcheck
  have hpre := pre_block { u with rng := d.words }
    { e.startTest n c with ts := decomposeS n, td := decomposeD n, tr := 0, phase := .mrDecomp } n .tester
  exact follows_rounds u src (by omega) (by omega) (e.startTest n c) _ 0 d
    { Engine.prepared { e.startTest n c with ts := decomposeS n, td := decomposeD n, tr := 0 } n .tester with
      phase := .mrRound }
    (Nat.zero_add _)
    { phase := rfl, tn := rfl, ts := rfl, td := rfl, tr := rfl, counts := ⟨hcounts.lrng, hcounts.latt⟩ } rfl
    (h.trans (.step hcheck (.step (tick_mrDecomp rfl) hpre)))

/-- MRTEST (R212). -/
theorem refines_mrtest (a : Reg) (s : State) : Refines (.mrtest a) s := by
  refine ⟨_, execMrtest.eq_def a s, fun hw => ?_⟩
  have hstart := tick_accepted (s := s) hw
  generalize hu : s.accepted (.mrtest a) = u at hstart
  have hcw : u.engine.cw = encode (.mrtest a) := by rw [← hu]; rfl
  have htest := follows_test u u (e := u.engine) u.engine.opa .command (d := u.draws) hcw ⟨rfl, rfl⟩
    (.step hstart (.refl _))
  refine htest.bind fun v d ⟨e, hregs, hcounts, hrun⟩ => ?_
  have hfor : e.testFor = .command := congrArg TestRegs.testFor hregs
  have hdone : e.testDone v = e.writeback v.toNat := by simp only [Engine.testDone, hfor]
  rw [hdone] at hrun
  refine ⟨e.writeback v.toNat, hrun, rfl, (congrArg (·.cw) hregs).trans hcw, ⟨hcounts.lrng, hcounts.latt⟩, ?_⟩
  cases v <;> rfl

end Sys2Proof.Machine

/-! ## The sequencer of the generator follows `PGEN` (44_primegen.md R222 to R226) -/

namespace Sys2Proof.Machine

/-! ### The transitions of the generator, state by state (R226) -/

section
variable {u : State} {e : Engine}

theorem tick_pgCheck_error {x : Err} (h : e.phase = .pgCheck) (hc : checkPrimeLength u.build (sext32 e.pk) = some x) :
    (u.on e).tick = u.on (e.report x) := by
  simp only [State.tick, Engine.tickGen, h, hc]

theorem tick_pgCheck_pass (h : e.phase = .pgCheck) (hc : checkPrimeLength u.build (sext32 e.pk) = none) :
    (u.on e).tick = u.on { e with patt := 0, phase := .pgCap } := by
  simp only [State.tick, Engine.tickGen, h, hc]

theorem tick_pgCap (h : e.phase = .pgCap) : (u.on e).tick =
    u.on (if e.patt = u.attemptcap.toNat then e.report .exhausted
      else { e with patt := e.patt + 1, latt := e.latt + 1, pc := 0, dj := 0, phase := .pgDraw }) := by
  simp only [State.tick, Engine.tickGen, h]

theorem tick_pgTest (h : e.phase = .pgTest) : (u.on e).tick = u.on (e.startTest e.pc .generator) := by
  simp only [State.tick, Engine.tickGen, h]

end

/-- A verdict for the generator: its candidate is returned, or it goes to the next (R226). -/
theorem testDone_generator {e : Engine} (h : e.testFor = .generator) (v : Bool) :
    e.testDone v = if v then e.genDone else { e with phase := .pgCap } := by
  simp only [Engine.testDone, h]

/-! ### The search (R223) -/

/-- The sequencer, from `src`, has the candidate `p` for the caller of the generator that `e` started. -/
def Finds (u src : State) (e : Engine) (p : Nat) (d : Draws) : Prop :=
  ∃ e', e'.genRegs = e.genRegs ∧ e'.pc = p ∧ Counts e' d ∧ Runs src (u.at d.words e'.genDone)

/-- Before an attempt of the generator that `e0` started, `c` attempts left. -/
structure AtCap (u : State) (e0 : Engine) (c : Nat) (d : Draws) (e : Engine) : Prop where
  phase : e.phase = .pgCap
  left : e.patt + c = u.attemptcap.toNat
  regs : e.genRegs = e0.genRegs
  counts : Counts e d

/-- The sequencer, from `src`, has a candidate to test. -/
def HasCandidate (u src : State) (e : Engine) (p : Nat) (d : Draws) : Prop :=
  ∃ e', e'.phase = .pgTest ∧ e'.pc = p ∧ e'.patt = e.patt + 1 ∧ e'.genRegs = e.genRegs ∧ Counts e' d ∧
    Runs src (u.at d.words e')

/-- An attempt is counted and its candidate drawn (R222, R224). -/
theorem follows_candidate (u src : State) {k c : Nat} {e0 e : Engine} {d : Draws} (hk : 2 ≤ k)
    (hpk : (sext32 e0.pk).toNat = k) (h : AtCap u e0 (c + 1) d e) (hrun : Runs src (u.at d.words e)) :
    Sim2 u src e0.cw (HasCandidate u src e) (candidate k { d with latt := d.latt + 1 }) := by
  have htick : (u.at d.words e).tick = u.at d.words
      { e with patt := e.patt + 1, latt := e.latt + 1, pc := 0, dj := 0, phase := .pgDraw } := by
    have hleft := h.left
    rw [tick_pgCap (u := { u with rng := d.words }) h.phase,
      if_neg (show e.patt ≠ u.attemptcap.toNat by omega)]
  have hpke : e.pk = e0.pk := congrArg GenRegs.pk h.regs
  have hdraw := gen_draw u src { e with patt := e.patt + 1 } k (by rw [← hpk, ← hpke]) (by omega)
    { d with latt := d.latt + 1 } (by
      rw [← h.counts.lrng, ← h.counts.latt]
      exact hrun.trans (.step htick (.refl _)))
  rw [← show e.cw = e0.cw from congrArg GenRegs.cw h.regs]
  refine hdraw.within (candidate_within hk _ fun _ => True) fun p d' _ hrun' => ?_
  exact ⟨{ e with patt := e.patt + 1, pc := p, dj := 0, lrng := d'.lrng, latt := d'.latt, phase := .pgTest },
    rfl, rfl, rfl, rfl, ⟨rfl, rfl⟩, hrun'⟩

/-- The loop of R223, `c` attempts left. -/
theorem follows_search (u src : State) {k : Nat} (hk : 2 ≤ k) (e0 : Engine) (hpk : (sext32 e0.pk).toNat = k) :
    ∀ (c : Nat) (d : Draws) (e : Engine), AtCap u e0 c d e → Runs src (u.at d.words e) →
      Sim2 u src e0.cw (Finds u src e0) (primeSearch k u.rounds.toNat c d) := by
  intro c
  induction c with
  | zero =>
    intro d e h hrun
    have htick : (u.at d.words e).tick = u.at d.words (e.report .exhausted) := by
      rw [tick_pgCap (u := { u with rng := d.words }) h.phase,
        if_pos (show e.patt = u.attemptcap.toNat from h.left)]
    exact ⟨e.report .exhausted, hrun.trans (.step htick (.refl _)), rfl, congrArg GenRegs.cw h.regs, h.counts.lrng,
      h.counts.latt⟩
  | succ c ih =>
    intro d e h hrun
    refine (follows_candidate u src hk hpk h hrun).bind fun p d1 hcand => ?_
    obtain ⟨e1, hphase1, hpc1, hpatt1, hregs1, hcounts1, hrun1⟩ := hcand
    have htest : (u.at d1.words e1).tick = u.at d1.words (e1.startTest p .generator) := by
      rw [tick_pgTest (u := { u with rng := d1.words }) hphase1, hpc1]
    refine (follows_test u src (e := e1) p .generator (congrArg GenRegs.cw (hregs1.trans h.regs)) hcounts1
      (hrun1.trans (.step htest (.refl _)))).bind fun v d2 ⟨e2, hregs2, hcounts2, hrun2⟩ => ?_
    have hfor2 : e2.testFor = .generator := congrArg TestRegs.testFor hregs2
    have hgen2 : e2.genRegs = e0.genRegs := (congrArg TestRegs.toGenRegs hregs2).trans (hregs1.trans h.regs)
    rw [testDone_generator hfor2] at hrun2
    cases v with
    | true => exact ⟨e2, hgen2, (congrArg TestRegs.pc hregs2).trans hpc1, hcounts2, hrun2⟩
    | false =>
      have hpatt2 : e2.patt = e1.patt := congrArg TestRegs.patt hregs2
      have hleft := h.left
      refine ih d2 { e2 with phase := .pgCap } ⟨rfl, ?_, hgen2, ⟨hcounts2.lrng, hcounts2.latt⟩⟩ hrun2
      show e2.patt + c = u.attemptcap.toNat
      omega

/-- The length checks of the generator, when they pass (R223). -/
theorem checkPrimeLength_none {b : Build} {k : Int} (h : checkPrimeLength b k = none) : 2 ≤ k ∧ k ≤ b.maxBits := by
  unfold checkPrimeLength at h
  split_ifs at h
  omega

/-- `PGEN(k)` (R223, R226). -/
theorem follows_generator (u src : State) {cw w : Word} {e : Engine} {c : GenCaller} {d : Draws} (hcw : e.cw = cw)
    (hcounts : Counts e d) (h : Runs src (u.at d.words (e.startGen w c))) :
    Sim2 u src cw (Finds u src (e.startGen w c)) (generatePrime u (sext32 w) d) := by
  subst hcw
  unfold generatePrime
  cases hc : checkPrimeLength u.build (sext32 w) with
  | some x =>
    have htick := tick_pgCheck_error (u := { u with rng := d.words }) (e := e.startGen w c) rfl hc
    exact ⟨(e.startGen w c).report x, h.trans (.step htick (.refl _)), rfl, rfl, hcounts.lrng, hcounts.latt⟩
  | none =>
    have htick := tick_pgCheck_pass (u := { u with rng := d.words }) (e := e.startGen w c) rfl hc
    have hk : 2 ≤ (sext32 w).toNat := by
      have h2 := (checkPrimeLength_none hc).1
      omega
    exact follows_search u src hk (e.startGen w c) rfl _ d { e.startGen w c with patt := 0, phase := .pgCap }
      ⟨rfl, Nat.zero_add _, rfl, ⟨hcounts.lrng, hcounts.latt⟩⟩ (h.trans (.step htick (.refl _)))

/-- GENPRIME (R228). -/
theorem refines_genprime (r : Reg) (s : State) : Refines (.genprime r) s := by
  refine ⟨_, execGenprime.eq_def r s, fun hw => ?_⟩
  have hstart := tick_accepted (s := s) hw
  generalize hu : s.accepted (.genprime r) = u at hstart
  have hcw : u.engine.cw = encode (.genprime r) := by rw [← hu]; rfl
  have hgen := follows_generator u u (w := u.bitlen) (c := .command) (d := u.draws) hcw ⟨rfl, rfl⟩
    (.step hstart (.refl _))
  refine hgen.bind fun p d ⟨e, hregs, hpc, hcounts, hrun⟩ => ?_
  have hfor : e.genFor = .command := congrArg GenRegs.genFor hregs
  have hdone : e.genDone = e.writeback p := by simp only [Engine.genDone, hfor, hpc]
  rw [hdone] at hrun
  exact ⟨e.writeback p, hrun, rfl, (congrArg GenRegs.cw hregs).trans hcw, ⟨hcounts.lrng, hcounts.latt⟩, rfl⟩

end Sys2Proof.Machine

/-! ## The sequencer of the key builder follows GENKEY (45_keygen.md R241 to R253) -/

namespace Sys2Proof.Machine

/-! ### The transitions of the key builder, state by state (R252) -/

section
variable {u : State} {e : Engine}

theorem tick_kgCheck_error {x : Err} (h : e.phase = .kgCheck)
    (hc : checkKeyLength u.build u.minbits (sext32 u.bitlen) = some x) : (u.on e).tick = u.on (e.report x) := by
  simp only [State.tick, Engine.tickKey, h, hc]

theorem tick_kgCheck_pass (h : e.phase = .kgCheck)
    (hc : checkKeyLength u.build u.minbits (sext32 u.bitlen) = none) :
    (u.on e).tick = u.on { e with krt := 0, phase := .kgP } := by
  simp only [State.tick, Engine.tickKey, h, hc]

theorem tick_kgP (h : e.phase = .kgP) :
    (u.on e).tick = u.on (e.startGen (BitVec.ofInt 32 (sext32 u.bitlen / 2)) .keyP) := by
  simp only [State.tick, Engine.tickKey, h]

theorem tick_kgQ (h : e.phase = .kgQ) :
    (u.on e).tick = u.on (e.startGen (BitVec.ofInt 32 (sext32 u.bitlen / 2)) .keyQ) := by
  simp only [State.tick, Engine.tickKey, h]

theorem tick_kgEq (h : e.phase = .kgEq) :
    (u.on e).tick = u.on (if e.kq = e.kp then e.retry .kgQ else { e with phase := .kgN }) := by
  simp only [State.tick, Engine.tickKey, h]

theorem tick_kgN (h : e.phase = .kgN) :
    (u.on e).tick = u.on (if (e.kp * e.kq).testBit ((sext32 u.bitlen).toNat - 1)
      then { e with kn := e.kp * e.kq, phase := .kgPhi } else Engine.retry { e with kn := e.kp * e.kq } .kgP) := by
  simp only [State.tick, Engine.tickKey, h]

theorem tick_kgPhi (h : e.phase = .kgPhi) : (u.on e).tick =
    u.on { e with kphi := (e.kp - 1) * (e.kq - 1), ke := u.estart.toNat, ert := 0, phase := .kgE } := by
  simp only [State.tick, Engine.tickKey, h]

theorem tick_kgE (h : e.phase = .kgE) :
    (u.on e).tick = u.on (if e.kphi ≤ e.ke then e.report .noE
      else if 1 < e.ke then e.startEuclid .keyE else e.rejectE) := by
  simp only [State.tick, Engine.tickKey, h]

theorem tick_kgD (h : e.phase = .kgD) : (u.on e).tick = u.on (e.startEuclid .keyD) := by
  simp only [State.tick, Engine.tickKey, h]

end

/-! ### The two primes (R243 to R247) -/

/-- Half of a length is a length: it fits the register `PK` (R244). -/
theorem sext32_half (w : Word) : sext32 (BitVec.ofInt 32 (sext32 w / 2)) = sext32 w / 2 := by
  have hlow : -2 ^ (32 - 1) ≤ sext32 w := BitVec.le_toInt w
  have hhigh : sext32 w < 2 ^ (32 - 1) := BitVec.toInt_lt
  exact BitVec.toInt_ofInt_eq_self (by norm_num) (by omega) (by omega)

/-- The state in which the key builder draws next: `p` first, unless one is kept (R244). -/
def primePhase : Option Nat → Phase
  | none => .kgP
  | some _ => .kgQ

/-- The key builder of the command word `cw` with `k` retries left, and the kept prime in `KP`. -/
structure KeyState (u : State) (cw : Word) (kept : Option Nat) (k : Nat) (d : Draws) (e : Engine) : Prop where
  kept : ∀ p, kept = some p → e.kp = p ∧ p < 2 ^ (sext32 u.bitlen / 2).toNat
  left : e.krt + k = Config.keyRetryCap
  cw : e.cw = cw
  counts : Counts e d

/-- What a search of the key builder returns: a prime of half the length (R225). -/
theorem halfPrime_within (u : State) (d : Draws) : (generatePrime u (sext32 u.bitlen / 2) d).Within d
    (searchWords u (sext32 u.bitlen)) (fun p => p < 2 ^ (sext32 u.bitlen / 2).toNat) (fun _ => True) :=
  (generatePrime_within u _ d).weaken (le_refl _) (fun p hp => hp.2.1 ▸ lt_two_pow_bitLength p) fun _ _ => trivial

/-- The sequencer, from `src`, has `p` in `KP` and is to draw `q`. -/
def HasFirst (u src : State) (cw : Word) (k p : Nat) (d : Draws) : Prop :=
  ∃ e, e.phase = .kgQ ∧ KeyState u cw (some p) k d e ∧ Runs src (u.at d.words e)

/-- p: kept, or drawn (R243, R244). -/
theorem follows_keptOrDrawn (u src : State) {cw : Word} {k : Nat} {kept : Option Nat} {d : Draws} {e : Engine}
    (hphase : e.phase = primePhase kept) (h : KeyState u cw kept k d e) (hrun : Runs src (u.at d.words e)) :
    Sim2 u src cw (HasFirst u src cw k) (keptOrDrawn u (sext32 u.bitlen / 2) kept d) := by
  cases kept with
  | some p => exact ⟨e, hphase, h, hrun⟩
  | none =>
    have hgen := follows_generator u src h.cw h.counts
      (hrun.trans (.step (tick_kgP (u := { u with rng := d.words }) hphase) (.refl _)))
    rw [sext32_half] at hgen
    refine hgen.within (halfPrime_within u d) fun p d' hp ⟨e', hregs, hpc, hcounts, hrun'⟩ => ?_
    have hfor : e'.genFor = .keyP := congrArg GenRegs.genFor hregs
    have hdone : e'.genDone = { e' with kp := p, phase := .kgQ } := by simp only [Engine.genDone, hfor, hpc]
    rw [hdone] at hrun'
    have hkrt : e'.krt = e.krt := congrArg GenRegs.krt hregs
    refine ⟨{ e' with kp := p, phase := .kgQ }, rfl, ⟨?_, ?_, ?_, ⟨hcounts.lrng, hcounts.latt⟩⟩, hrun'⟩
    · rintro _ ⟨rfl⟩
      exact ⟨rfl, hp⟩
    · exact hkrt ▸ h.left
    · exact (congrArg GenRegs.cw hregs).trans h.cw

/-- The sequencer, from `src`, has `p` and `q` and is to compare them. -/
def HasBoth (u src : State) (cw : Word) (k p q : Nat) (d : Draws) : Prop :=
  ∃ e, e.phase = .kgEq ∧ e.kq = q ∧ q < 2 ^ (sext32 u.bitlen / 2).toNat ∧ KeyState u cw (some p) k d e ∧
    Runs src (u.at d.words e)

/-- q (R245). -/
theorem follows_second (u src : State) {cw : Word} {k p : Nat} {d : Draws} (h : HasFirst u src cw k p d) :
    Sim2 u src cw (HasBoth u src cw k p) (generatePrime u (sext32 u.bitlen / 2) d) := by
  obtain ⟨e, hphase, h, hrun⟩ := h
  have hgen := follows_generator u src h.cw h.counts
    (hrun.trans (.step (tick_kgQ (u := { u with rng := d.words }) hphase) (.refl _)))
  rw [sext32_half] at hgen
  refine hgen.within (halfPrime_within u d) fun q d' hq ⟨e', hregs, hpc, hcounts, hrun'⟩ => ?_
  have hfor : e'.genFor = .keyQ := congrArg GenRegs.genFor hregs
  have hdone : e'.genDone = { e' with kq := q, phase := .kgEq } := by simp only [Engine.genDone, hfor, hpc]
  rw [hdone] at hrun'
  have hkrt : e'.krt = e.krt := congrArg GenRegs.krt hregs
  have hkp : e'.kp = e.kp := congrArg GenRegs.kp hregs
  refine ⟨{ e' with kq := q, phase := .kgEq }, rfl, rfl, hq, ⟨?_, ?_, ?_, ⟨hcounts.lrng, hcounts.latt⟩⟩, hrun'⟩
  · exact hkp ▸ h.kept
  · exact hkrt ▸ h.left
  · exact (congrArg GenRegs.cw hregs).trans h.cw

/-- The sequencer, from `src`, has the two primes and their product. -/
def HasPrimes (u src : State) (cw : Word) (pq : Nat × Nat) (d : Draws) : Prop :=
  ∃ e, e.phase = .kgPhi ∧ e.kp = pq.1 ∧ e.kq = pq.2 ∧ e.kn = pq.1 * pq.2 ∧ e.cw = cw ∧ Counts e d ∧
    Runs src (u.at d.words e)

/-- The bit `KG_N` tests is the lower end of the window: the product of two halves has no bit above it (R247). -/
theorem window_bit {len : Int} (hlen : len % 2 = 0) {p q : Nat} (hp : p < 2 ^ (len / 2).toNat)
    (hq : q < 2 ^ (len / 2).toNat) : (p * q).testBit (len.toNat - 1) = decide (¬p * q < 2 ^ (len.toNat - 1)) := by
  have hprod : p * q < 2 ^ (len.toNat - 1 + 1) := by
    calc p * q < 2 ^ (len / 2).toNat * 2 ^ (len / 2).toNat := Nat.mul_lt_mul'' hp hq
      _ = 2 ^ ((len / 2).toNat + (len / 2).toNat) := (pow_add _ _ _).symm
      _ ≤ 2 ^ (len.toNat - 1 + 1) := Nat.pow_le_pow_right (by norm_num) (by omega)
  by_cases hlow : p * q < 2 ^ (len.toNat - 1)
  · simp [Nat.testBit_lt_two_pow hlow, hlow]
  · simp [Nat.testBit_of_two_pow_le_and_two_pow_add_one_gt (Nat.le_of_not_lt hlow) hprod, hlow]

/-- After any retry that leaves `k` more attempts, the sequencer follows the rest of the search (R245). -/
def FollowsRetry (u src : State) (cw : Word) (k : Nat) : Prop :=
  ∀ (kept : Option Nat) (d : Draws) (e : Engine), KeyState u cw kept (k + 1) d e →
    Runs src (u.at d.words (e.retry (primePhase kept))) →
    Sim2 u src cw (HasPrimes u src cw) (keyPrimes u (sext32 u.bitlen) k kept d)

/-- One attempt at the two primes, and what follows a retry (R243 to R247). -/
theorem follows_attempt (u src : State) {cw : Word} (hlen : sext32 u.bitlen % 2 = 0) {k : Nat}
    (hretry : FollowsRetry u src cw k) {kept : Option Nat} {d : Draws} {e : Engine}
    (hphase : e.phase = primePhase kept) (h : KeyState u cw kept (k + 1) d e) (hrun : Runs src (u.at d.words e)) :
    Sim2 u src cw (HasPrimes u src cw) (keyPrimes u (sext32 u.bitlen) (k + 1) kept d) := by
  rw [keyPrimes]
  refine (follows_keptOrDrawn u src hphase h hrun).bind fun p d1 hfirst => ?_
  refine (follows_second u src hfirst).bind fun q d2 ⟨e2, hphase2, hkq, hq, h2, hrun2⟩ => ?_
  obtain ⟨hkp, hp⟩ := h2.kept p rfl
  by_cases heq : q = p
  · have htick : (u.at d2.words e2).tick = u.at d2.words (e2.retry .kgQ) := by
      rw [tick_kgEq (u := { u with rng := d2.words }) hphase2, if_pos (by rw [hkq, hkp, heq])]
    rw [if_pos heq]
    exact hretry (some p) d2 e2 h2 (hrun2.trans (.step htick (.refl _)))
  have htick : (u.at d2.words e2).tick = u.at d2.words { e2 with phase := .kgN } := by
    rw [tick_kgEq (u := { u with rng := d2.words }) hphase2, if_neg (by rw [hkq, hkp]; exact heq)]
  have hbit : (e2.kp * e2.kq).testBit ((sext32 u.bitlen).toNat - 1) =
      decide (¬p * q < 2 ^ ((sext32 u.bitlen).toNat - 1)) := by
    rw [hkp, hkq]
    exact window_bit hlen hp hq
  have hproduct := tick_kgN (u := { u with rng := d2.words }) (e := { e2 with phase := .kgN }) rfl
  rw [if_neg heq]
  by_cases hlow : p * q < 2 ^ ((sext32 u.bitlen).toNat - 1)
  · rw [if_pos hlow]
    refine hretry none d2 { e2 with phase := .kgN, kn := e2.kp * e2.kq }
      ⟨by simp, h2.left, h2.cw, h2.counts.lrng, h2.counts.latt⟩
      (hrun2.trans (.step htick (.step (hproduct.trans (congrArg _ (if_neg ?_))) (.refl _))))
    exact fun hb => absurd (hbit.symm.trans hb) (by simp [hlow])
  · rw [if_neg hlow]
    refine ⟨{ e2 with kn := e2.kp * e2.kq, phase := .kgPhi }, rfl, hkp, hkq, by rw [← hkp, ← hkq], h2.cw,
      ⟨h2.counts.lrng, h2.counts.latt⟩,
      hrun2.trans (.step htick (.step (hproduct.trans (congrArg _ (if_pos ?_))) (.refl _)))⟩
    exact hbit.trans (by simp [hlow])

/-- At its bound the retry is the error, before it another attempt (R245). -/
theorem followsRetry (u src : State) {cw : Word} (hlen : sext32 u.bitlen % 2 = 0) : ∀ k, FollowsRetry u src cw k := by
  intro k
  induction k with
  | zero =>
    intro kept d e h hrun
    have hbound : e.retry (primePhase kept) = Engine.report { e with krt := e.krt + 1 } .keyRetry := if_pos h.left
    rw [hbound] at hrun
    exact ⟨_, hrun, rfl, h.cw, h.counts.lrng, h.counts.latt⟩
  | succ k ih =>
    intro kept d e h hrun
    have hleft := h.left
    have hnext : e.retry (primePhase kept) = { e with krt := e.krt + 1, phase := primePhase kept } :=
      if_neg (by omega)
    rw [hnext] at hrun
    exact follows_attempt u src hlen ih (e := { e with krt := e.krt + 1, phase := primePhase kept }) rfl
      ⟨h.kept, by show e.krt + 1 + (k + 1) = Config.keyRetryCap; omega, h.cw, ⟨h.counts.lrng, h.counts.latt⟩⟩ hrun

/-! ### The exponents (R248 to R253) -/

/-- The registers that the search of `e` and the inversion leave alone. -/
structure KeyRegs where
  cw : Word
  lrng : Word
  latt : Word
  kp : Nat
  kq : Nat
  kn : Nat
  kphi : Nat

/-- The registers the search of `e` leaves alone, as they are in `e`. -/
def Engine.keyRegs (e : Engine) : KeyRegs := ⟨e.cw, e.lrng, e.latt, e.kp, e.kq, e.kn, e.kphi⟩

/-- The end of `FindE`: on to the inversion, or NO_E (R249). -/
def Engine.exponentEnd (e : Engine) : Option Nat → Engine
  | some v => { e with ke := v, phase := .kgD }
  | none => e.report .noE

/-- The sequencer, from the engine `e1`, ends `FindE` with the answer `r`, leaving the key registers of `e` alone. -/
def EndsExponent (u : State) (e e1 : Engine) (r : Option Nat) : Prop :=
  ∃ e' : Engine, e'.keyRegs = e.keyRegs ∧ Runs (u.on e1) (u.on (e'.exponentEnd r))

/-- One candidate of `FindE`, and what follows its rejection (R249). -/
theorem exponent_candidate (u : State) {phi k : Nat} {e : Engine} (hphase : e.phase = .kgE) (hphi : e.kphi = phi)
    (hreject : ∀ e' : Engine, e'.keyRegs = e.keyRegs → e'.ke = e.ke → e'.ert = e.ert →
      EndsExponent u e e'.rejectE (findE phi k (e.ke + 2))) :
    EndsExponent u e e (findE phi (k + 1) e.ke) := by
  rw [findE]
  by_cases hbig : phi ≤ e.ke
  · have htick : (u.on e).tick = u.on (e.report .noE) := by
      rw [tick_kgE hphase, if_pos (by rw [hphi]; exact hbig)]
    rw [if_pos hbig]
    exact ⟨e, rfl, .step htick (.refl _)⟩
  have hbig' : ¬e.kphi ≤ e.ke := by rw [hphi]; exact hbig
  rw [if_neg hbig]
  by_cases hone : 1 < e.ke
  · have htick : (u.on e).tick = u.on (e.startEuclid .keyE) := by
      rw [tick_kgE hphase, if_neg hbig', if_pos hone]
    obtain ⟨q, v, hgcd⟩ := eu_block_gcd u e .keyE e.ke phi (fun _ _ _ _ _ _ => rfl) rfl hphi
    have hdone := hgcd
    simp only [Engine.euclidDone] at hdone
    by_cases hcop : Nat.gcd e.ke phi = 1
    · simp only [if_pos hcop] at hdone
      rw [if_pos ⟨hone, hcop⟩]
      exact ⟨e.putEu .keyE (Nat.gcd e.ke phi) 0 q e.t0 e.t1 .kgD, rfl, .step htick hdone⟩
    · simp only [if_neg hcop] at hdone
      rw [if_neg (fun hc => hcop hc.2)]
      obtain ⟨e', hregs, hrun⟩ :=
        hreject (e.putEu .keyE (Nat.gcd e.ke phi) 0 q e.t0 e.t1 .xgFin) rfl rfl rfl
      exact ⟨e', hregs, .step htick (hdone.trans hrun)⟩
  · have htick : (u.on e).tick = u.on e.rejectE := by
      rw [tick_kgE hphase, if_neg hbig', if_neg hone]
    rw [if_neg (fun hc => hone hc.1)]
    obtain ⟨e', hregs, hrun⟩ := hreject e rfl rfl rfl
    exact ⟨e', hregs, .step htick hrun⟩

/-- `FindE(phi)`, `k + 1` candidates left (R249). -/
theorem exponent_search (u : State) {phi : Nat} : ∀ (k : Nat) (e : Engine), e.phase = .kgE → e.kphi = phi →
    e.ert + (k + 1) = Config.eRetryCap → EndsExponent u e e (findE phi (k + 1) e.ke) := by
  intro k
  induction k with
  | zero =>
    intro e hphase hphi hleft
    refine exponent_candidate u hphase hphi fun e' hregs _ hert => ?_
    have hlast : e'.rejectE = Engine.report { e' with ert := e'.ert + 1 } .noE := if_pos (by omega)
    rw [hlast]
    exact ⟨{ e' with ert := e'.ert + 1 }, hregs, .refl _⟩
  | succ k ih =>
    intro e hphase hphi hleft
    refine exponent_candidate u hphase hphi fun e' hregs hke hert => ?_
    have hnext : e'.rejectE = { e' with ert := e'.ert + 1, ke := e'.ke + 2, phase := .kgE } := if_neg (by omega)
    have hphi' : e'.kphi = phi := (congrArg KeyRegs.kphi hregs).trans hphi
    obtain ⟨e2, hregs2, hrun⟩ := ih { e' with ert := e'.ert + 1, ke := e'.ke + 2, phase := .kgE } rfl hphi'
      (show e'.ert + 1 + (k + 1) = Config.eRetryCap by omega)
    rw [hnext, ← hke]
    exact ⟨e2, hregs2.trans hregs, hrun⟩

/-- The end of the key builder: the key waits for write-back, or there is no inverse (R251, R253). -/
def Engine.inversionEnd (e : Engine) : Option Nat → Engine
  | some x => Engine.keyDone { e with kd := x }
  | none => e.report .noInverse

/-- The inversion of `e` modulo φ (R251). -/
theorem inversion_run (u : State) {e : Engine} (hphase : e.phase = .kgD) (h2 : 2 ≤ e.kphi) :
    ∃ e' : Engine, e'.keyRegs = e.keyRegs ∧ e'.ke = e.ke ∧
      Runs (u.on e) (u.on (e'.inversionEnd (modInv e.ke e.kphi))) := by
  obtain ⟨r0, q, t0, t1, g, v, hrun, hinv⟩ := eu_block_inv u e .keyD e.ke e.kphi h2 (fun _ _ _ _ _ _ => rfl) rfl rfl
    (fun _ _ _ _ _ _ => rfl)
  refine ⟨e.putEu .keyD r0 0 q t0 t1 .xgFin, rfl, rfl, .step (tick_kgD hphase) ?_⟩
  simp only [Engine.euclidDone] at hrun
  rw [hinv]
  by_cases hg : g = 1
  · simp only [if_pos hg] at hrun ⊢
    exact hrun
  · simp only [if_neg hg] at hrun ⊢
    exact hrun

/-! Steps 3 to 6 of GENKEY at the command level, by how they end (R249, R251, R253). -/

section
variable {rd rb rm : Reg} {estart p q v x : Nat} {d : Draws}

theorem keyFromPrimes_noE (h : findE ((p - 1) * (q - 1)) Config.eRetryCap estart = none) :
    keyFromPrimes rd rb rm estart p q d = .err .noE d := by
  simp only [keyFromPrimes, h]

theorem keyFromPrimes_noInverse (h : findE ((p - 1) * (q - 1)) Config.eRetryCap estart = some v)
    (hinv : modInv v ((p - 1) * (q - 1)) = none) : keyFromPrimes rd rb rm estart p q d = .err .noInverse d := by
  simp only [keyFromPrimes, h, hinv]

theorem keyFromPrimes_key (h : findE ((p - 1) * (q - 1)) Config.eRetryCap estart = some v)
    (hinv : modInv v ((p - 1) * (q - 1)) = some x) :
    keyFromPrimes rd rb rm estart p q d = .ok (.key rd rb rm (p * q) v x p q) d := by
  simp only [keyFromPrimes, h, hinv]

end

/-- Steps 3 to 6 of GENKEY in the sequencer (R248 to R253). -/
theorem follows_exponents {u : State} {rd rb rm : Reg} {p q : Nat} {d : Draws}
    (h : HasPrimes u u (encode (.genkey rd rb rm)) (p, q) d) :
    Sim2 u u (encode (.genkey rd rb rm)) (Commits u (.genkey rd rb rm))
      (keyFromPrimes rd rb rm u.estart.toNat p q d) := by
  obtain ⟨e, hphase, hkp, hkq, hkn, hcw, hcounts, hrun⟩ := h
  have htick := tick_kgPhi (u := { u with rng := d.words }) hphase
  have hphi : (e.kp - 1) * (e.kq - 1) = (p - 1) * (q - 1) := by rw [hkp, hkq]
  obtain ⟨e1, hregs1, hrun1⟩ := exponent_search { u with rng := d.words } (Config.eRetryCap - 1)
    { e with kphi := (e.kp - 1) * (e.kq - 1), ke := u.estart.toNat, ert := 0, phase := .kgE } rfl hphi rfl
  have hstart : Runs u (u.at d.words (e1.exponentEnd (findE ((p - 1) * (q - 1)) Config.eRetryCap u.estart.toNat))) :=
    hrun.trans (.step htick hrun1)
  have hcw1 : e1.cw = encode (.genkey rd rb rm) := (congrArg KeyRegs.cw hregs1).trans hcw
  have hcounts1 : Counts e1 d :=
    ⟨(congrArg KeyRegs.lrng hregs1).trans hcounts.lrng, (congrArg KeyRegs.latt hregs1).trans hcounts.latt⟩
  have hphi1 : e1.kphi = (p - 1) * (q - 1) := (congrArg KeyRegs.kphi hregs1).trans hphi
  cases hfind : findE ((p - 1) * (q - 1)) Config.eRetryCap u.estart.toNat with
  | none =>
    rw [keyFromPrimes_noE hfind]
    rw [hfind] at hstart
    exact ⟨e1.report .noE, hstart, rfl, hcw1, hcounts1.lrng, hcounts1.latt⟩
  | some v =>
    rw [hfind] at hstart
    obtain ⟨hv1, hv2, -⟩ := findE_spec _ _ _ hfind
    obtain ⟨e2, hregs2, hke2, hrun2⟩ := inversion_run { u with rng := d.words }
      (e := { e1 with ke := v, phase := .kgD }) rfl (show 2 ≤ e1.kphi by omega)
    have hregs := hregs2.trans hregs1
    have hend : Runs u (u.at d.words (e2.inversionEnd (modInv v ((p - 1) * (q - 1))))) := by
      rw [← hphi1]
      exact hstart.trans hrun2
    have hcw2 : e2.cw = encode (.genkey rd rb rm) := (congrArg KeyRegs.cw hregs).trans hcw
    have hcounts2 : Counts e2 d :=
      ⟨(congrArg KeyRegs.lrng hregs).trans hcounts.lrng, (congrArg KeyRegs.latt hregs).trans hcounts.latt⟩
    cases hinv : modInv v ((p - 1) * (q - 1)) with
    | none =>
      rw [keyFromPrimes_noInverse hfind hinv]
      rw [hinv] at hend
      exact ⟨e2.report .noInverse, hend, rfl, hcw2, hcounts2.lrng, hcounts2.latt⟩
    | some x =>
      rw [keyFromPrimes_key hfind hinv]
      rw [hinv] at hend
      have hkp2 : e2.kp = p := (congrArg KeyRegs.kp hregs).trans hkp
      have hkq2 : e2.kq = q := (congrArg KeyRegs.kq hregs).trans hkq
      have hkn2 : e2.kn = p * q := (congrArg KeyRegs.kn hregs).trans hkn
      refine ⟨Engine.keyDone { e2 with kd := x }, hend, rfl, hcw2, ⟨hcounts2.lrng, hcounts2.latt⟩, ?_⟩
      simp only [Engine.results, Engine.keyDone, hkn2, hke2, hkp2, hkq2]

/-- The length checks of GENKEY, when they pass (R242). -/
theorem checkKeyLength_none {b : Build} {m : BitVec 16} {len : Int} (h : checkKeyLength b m len = none) :
    len % 2 = 0 := by
  unfold checkKeyLength at h
  split_ifs at h
  omega

/-- GENKEY (R241). -/
theorem refines_genkey (rd rb rm : Reg) (s : State) : Refines (.genkey rd rb rm) s := by
  refine ⟨_, execGenkey.eq_def rd rb rm s, fun hw => ?_⟩
  have hstart := tick_accepted (s := s) hw
  generalize hu : s.accepted (.genkey rd rb rm) = u at hstart
  have hcw : u.engine.cw = encode (.genkey rd rb rm) := by rw [← hu]; rfl
  simp only [Engine.startCommand] at hstart
  cases hc : checkKeyLength u.build u.minbits (sext32 u.bitlen) with
  | some x =>
    have hcheck := tick_kgCheck_error (u := u) (e := { u.engine with phase := .kgCheck }) rfl hc
    dsimp only
    exact ⟨_, .step hstart (.step hcheck (.refl _)), rfl, hcw, rfl, rfl⟩
  | none =>
    have hcheck := tick_kgCheck_pass (u := u) (e := { u.engine with phase := .kgCheck }) rfl hc
    have hlen := checkKeyLength_none hc
    dsimp only
    refine Sim2.bind (follows_attempt u u hlen (followsRetry u u hlen (Config.keyRetryCap - 1)) (kept := none)
      (e := { u.engine with krt := 0, phase := .kgP }) rfl ⟨by simp, rfl, hcw, ⟨rfl, rfl⟩⟩
      (.step hstart (.step hcheck (.refl _)))) fun pq d h => follows_exponents h

/-! ## The two levels agree (00_scope.md R9) -/

/-- The sequencer follows every command. -/
theorem refines (i : Instr) (s : State) : Refines i s := by
  cases i with
  | montmul d a b m => exact refines_montmul d a b m s
  | tomont d a m => exact refines_tomont d a m s
  | frommont d a m => exact refines_frommont d a m s
  | modexp d a b m => exact refines_modexp d a b m s
  | gcd d a b => exact refines_gcd d a b s
  | modinv d a m => exact refines_modinv d a m s
  | mrtest a => exact refines_mrtest a s
  | genprime d => exact refines_genprime d s
  | genkey d b m => exact refines_genkey d b m s
  | encrypt d a b m => exact refines_encrypt d a b m s
  | decrypt d a b m => exact refines_decrypt d a b m s
  | zeroize => exact refines_zeroize s

/-- A completed command: the sequencer, started by the `CMD` write, reaches the same state. -/
theorem sequencer_completes {i : Instr} {s t : State} (hs : s.busy = false) (ht : exec i s = .next t)
    (hdone : t.busy = false) : Runs (s.issue (encode i)) t := by
  obtain ⟨body, hrun, hfollows⟩ := refines i s
  rw [hrun] at ht
  cases hw : i.wellFormed with
  | false =>
    rw [runCommand_overlap hs hw] at ht
    rw [← Host.Outcome.next.inj ht]
    exact .step (issue_error_tick (by rw [decodeChecks_encode, hw]; rfl)) (.refl _)
  | true =>
    rw [runCommand_idle hs hw] at ht
    obtain rfl := Host.Outcome.next.inj ht
    rw [issue_encode hw]
    refine (hfollows hw).completes hw fun hsilent => ?_
    rw [hsilent] at hdone
    exact absurd hdone (by simp [State.finish, State.accepted_busy])

/-- A command that waits on a silent port: the sequencer is busy for ever. -/
theorem sequencer_waits {i : Instr} {s t : State} (hs : s.busy = false) (ht : exec i s = .next t)
    (hbusy : t.busy = true) (k : Nat) : (State.ticks k (s.issue (encode i))).busy = true := by
  obtain ⟨body, hrun, hfollows⟩ := refines i s
  rw [hrun] at ht
  cases hw : i.wellFormed with
  | false =>
    rw [runCommand_overlap hs hw] at ht
    rw [← Host.Outcome.next.inj ht] at hbusy
    cases hbusy
  | true =>
    rw [runCommand_idle hs hw] at ht
    rw [← Host.Outcome.next.inj ht] at hbusy
    have hf := hfollows hw
    rw [issue_encode hw]
    generalize body (s.accepted i) = x at hf hbusy
    cases x with
    | silent => exact hf.waits k
    | ok c d => cases hbusy
    | err e d => cases hbusy

/-- A command that draws nothing does not wait (R355). -/
theorem idle_of_not_drawing {i : Instr} {s t : State} (hs : s.busy = false) (hd : ¬Drawing i)
    (ht : exec i s = .next t) : t.busy = false := by
  rcases exec_inversion hs ht with ⟨-, rfl⟩ | ⟨-, c, d, n, -, -, -, rfl⟩ | ⟨-, e, d, n, -, -, -, rfl⟩ | ⟨-, hdraw, -⟩
  · rfl
  · rfl
  · rfl
  · exact absurd hdraw hd

/-- Settles O58: a command that draws nothing completes, and the sequencer reaches its completion. -/
theorem sequencerRefinesNonDrawing : Obligations.SequencerRefinesNonDrawing := by
  unfold Obligations.SequencerRefinesNonDrawing
  intro i s t hs hd ht
  exact sequencer_completes hs.idle ht (idle_of_not_drawing hs.idle hd ht)

/-- Settles O59: block by block, the sequencer draws the words the command level draws, and ends or waits where it
does. -/
theorem sequencerRefinesDrawing : Obligations.SequencerRefinesDrawing := by
  unfold Obligations.SequencerRefinesDrawing
  intro i s t hs _ ht
  exact ⟨sequencer_completes hs.idle ht, sequencer_waits hs.idle ht⟩

end Sys2Proof.Machine

/-! ## The words of the randomness port (10_state.md R38, R47) -/

namespace Sys2Proof.Machine

/-- A completed command leaves the engine idle (R27, R305). -/
theorem Completed.idle {s t : State} {code subcode : BitVec 4} {c : Nat} (h : Completed s t code subcode c) :
    t.busy = false := by
  rw [State.busy, h.engine]
  rfl

/-- What `DrawsCounted` says of a command that has ended. -/
theorem Completed.counted {i : Instr} {s t : State} {code subcode : BitVec 4} {c : Nat}
    (h : Completed s t code subcode c) (hc : ¬Drawing i → c = 0) :
    (t.busy = false → ∃ c, c ≤ s.rng.length ∧ t.rng = s.rng.drop c ∧
      t.rngcnt = s.rngcnt + BitVec.ofNat 32 c ∧ (¬Drawing i → c = 0)) ∧
    (t.busy = true → Drawing i ∧ t.rng = s.rng ∧ t.rngcnt = s.rngcnt ∧ t.done = false) :=
  ⟨fun _ => ⟨c, h.drawn, h.rng, h.rngcnt, hc⟩, fun hb => absurd (h.idle.symm.trans hb) (by simp)⟩

/-- A word that fails its decode checks completes after no draw (R104, R106). -/
theorem State.reject_completed (s : State) (w : Word) (e : Err) :
    Completed s ((s.accept w).completeErr none e) e.code e.subcode 0 where
  done := rfl
  errcode := rfl
  sub := rfl
  engine := rfl
  drawn := Nat.zero_le _
  rng := rfl
  rngcnt := rfl
  settings := by constructor <;> rfl

/-- Settles O38, by the ends a command can have: three completions, and the wait on a silent port. -/
theorem drawsCounted : Obligations.DrawsCounted := by
  unfold Obligations.DrawsCounted
  intro i s t hs ht
  rcases exec_inversion hs.idle ht with
    ⟨-, rfl⟩ | ⟨-, c, d, n, -, hd, hn, rfl⟩ | ⟨-, e, d, n, -, hd, hn, rfl⟩ | ⟨-, hdraw, rfl⟩
  · exact (s.reject_completed (encode i) .destOverlap).counted fun _ => rfl
  · exact (State.completeOk_completed c hd.within hd.words hd.lrng).counted hn
  · exact (State.completeErr_completed e hd.within hd.words hd.lrng).counted hn
  · exact ⟨fun hb => absurd ((s.accepted_busy i).symm.trans hb) (by simp), fun _ => ⟨hdraw, rfl, rfl, rfl⟩⟩

/-- The drawing states (R47, R210, R226). -/
theorem rngReq_iff (s : State) : s.rngReq = true ↔ s.engine.phase = .mrDraw ∨ s.engine.phase = .pgDraw := by
  simp [State.rngReq]

/-- Outside the drawing states no word is taken, and a command that still runs has counted none (R47). -/
theorem tick_no_draw {s : State} (h : s.Inv) (hr : s.rngReq = false) :
    s.tick.rng = s.rng ∧ (s.tick.busy = true → s.tick.engine.lrng = s.engine.lrng) := by
  cases hb : s.busy with
  | false =>
    have hidle : s.tick = s := ticks_idle 1 s hb
    rw [hidle]
    exact ⟨rfl, fun _ => rfl⟩
  | true =>
    obtain ⟨htick, hrng⟩ := tick_cases h hb
    refine ⟨hrng hr, fun hb' => ?_⟩
    generalize s.tick = t at htick hb'
    cases htick with
    | inside e on => exact on.lrng
    | waits => rfl
    | draws w ws e hreq => exact absurd (hreq.symm.trans hr) (by simp)
    | succeeds i => cases hb'
    | fails x =>
      cases hc : commandOf s.engine.cw <;> rw [hc] at hb' <;> cases hb'

/-- In a drawing state with a silent port the engine waits (R47). -/
theorem tick_silent {s : State} (hr : s.rngReq = true) (hw : s.rng = []) : s.tick = s := by
  have hs : { s with rng := [], engine := s.engine } = s := by rw [← hw]
  have hstuck := stuck 1 s s.engine ((rngReq_iff s).1 hr)
  rwa [hs] at hstuck

/-- `t` is `s` after one word was taken and counted: `ws` are the words left, and the command still runs (R47). -/
structure TookWord (s t : State) (ws : List Word) : Prop where
  rng : t.rng = ws
  busy : t.busy = true
  lrng : t.engine.lrng = s.engine.lrng + 1

/-- A word of the tester's base (R210). -/
theorem tickTestDraw_cons {s : State} {w : Word} {ws : List Word} (hp : s.engine.phase = .mrDraw)
    (hw : s.rng = w :: ws) : TookWord s s.tickTestDraw ws := by
  simp only [State.tickTestDraw, takeWord, hw]
  split
  · next h => cases h
  · exact ⟨rfl, rfl, rfl⟩
  · exact ⟨rfl, by simp [State.busy, hp], rfl⟩

/-- A word of the generator's candidate (R226). -/
theorem tickGenDraw_cons {s : State} {w : Word} {ws : List Word} (hp : s.engine.phase = .pgDraw)
    (hw : s.rng = w :: ws) : TookWord s s.tickGenDraw ws := by
  simp only [State.tickGenDraw, takeWord, hw]
  split
  · next h => cases h
  · exact ⟨rfl, rfl, rfl⟩
  · exact ⟨rfl, by simp [State.busy, hp], rfl⟩

/-- In a drawing state the engine takes the word the port presents (R47). -/
theorem tick_draws {s : State} {w : Word} {ws : List Word} (hr : s.rngReq = true) (hw : s.rng = w :: ws) :
    TookWord s s.tick ws := by
  rcases (rngReq_iff s).1 hr with hp | hp
  · rw [show s.tick = s.tickTestDraw by simp only [State.tick, hp]]
    exact tickTestDraw_cons hp hw
  · rw [show s.tick = s.tickGenDraw by simp only [State.tick, hp]]
    exact tickGenDraw_cons hp hw

/-- Settles O54: outside a drawing state nothing is taken, in one the next word is, or the engine waits. -/
theorem oneWordPerDraw : Obligations.OneWordPerDraw := by
  unfold Obligations.OneWordPerDraw
  intro s h
  refine ⟨tick_no_draw h, tick_silent, fun w ws hr hw => ?_⟩
  obtain ⟨hrng, hbusy, hlrng⟩ := tick_draws hr hw
  exact ⟨hrng, hbusy, hlrng⟩

end Sys2Proof.Machine

/-! ## Who writes `PRIME` (10_state.md R28) -/

namespace Sys2Proof.Machine

/-- The commands that write `PRIME` (R28). -/
def WritesPrime (i : Instr) : Prop := i = .zeroize ∨ ∃ a, i = .mrtest a

/-- If `PRIME` changes from `s` to `t`, a command that writes it is among `P`. -/
def PrimeOnlyBy (P : Instr → Prop) (s t : State) : Prop := t.prime ≠ s.prime → ∃ i, P i ∧ WritesPrime i

/-- Where `PRIME` stays there is nothing to account for. -/
theorem PrimeOnlyBy.of_eq {P : Instr → Prop} {s t : State} (h : t.prime = s.prime) : PrimeOnlyBy P s t :=
  fun hne => absurd h hne

theorem PrimeOnlyBy.mono {P Q : Instr → Prop} {s t : State} (h : PrimeOnlyBy P s t) (hPQ : ∀ i, P i → Q i) :
    PrimeOnlyBy Q s t := fun hne =>
  let ⟨i, hi, hw⟩ := h hne
  ⟨i, hPQ i hi, hw⟩

/-- An effect of the command `i` that leaves `PRIME` unless `i` writes it. -/
theorem PrimeOnlyBy.of_command {s t : State} {i : Instr} (h : ¬WritesPrime i → t.prime = s.prime) :
    PrimeOnlyBy (· = i) s t := fun hne => ⟨i, rfl, not_not.1 fun hi => hne (h hi)⟩

/-- The latch touches `PRIME` for MRTEST only (R107). -/
theorem latch_prime {s : State} {i : Instr} (h : ¬WritesPrime i) : (s.latch i).prime = s.prime := by
  cases i with
  | mrtest a => exact absurd (.inr ⟨a, rfl⟩) h
  | _ => rfl

theorem accepted_prime {s : State} {i : Instr} (h : ¬WritesPrime i) : (s.accepted i).prime = s.prime :=
  latch_prime h

/-- A commit touches `PRIME` for MRTEST and ZEROIZE only (R103, R303). -/
theorem commit_prime {s : State} {i : Instr} {c : Commit} (hc : CommitOf i c) (h : ¬WritesPrime i) :
    (s.commit c).prime = s.prime := by
  cases c with
  | big d v => rfl
  | key d b m n e x p q => simp [State.commit]
  | verdict p => cases i <;> simp_all [CommitOf, WritesPrime]
  | clear => cases i <;> simp_all [CommitOf, WritesPrime]

theorem completeOk_prime {s : State} {i : Instr} {c : Commit} (hc : CommitOf i c) (h : ¬WritesPrime i) :
    (s.completeOk i c).prime = s.prime := by
  simp [State.completeOk, commit_prime hc h]

/-- A completion with an error touches `PRIME` for MRTEST only (R304). -/
theorem completeErr_prime {s : State} {i : Instr} {e : Err} (h : ¬WritesPrime i) :
    (s.completeErr (some i) e).prime = s.prime := by
  cases i with
  | mrtest a => exact absurd (.inr ⟨a, rfl⟩) h
  | _ => rfl

/-- What `WRITEBACK` commits is a commit of the command (R103, R303). -/
theorem results_commitOf (e : Engine) (i : Instr) : CommitOf i (e.results i) := by
  cases i with
  | mrtest a => exact ⟨_, rfl⟩
  | genkey d b m => exact ⟨_, _, _, _, _, rfl⟩
  | zeroize => rfl
  | _ => exact ⟨_, rfl⟩

/-! ### The engine -/

/-- `i` is the command in flight. -/
def InFlight (s : State) (i : Instr) : Prop := s.busy = true ∧ commandOf s.engine.cw = some i

/-- The completion with an error of the command in flight (R304). -/
theorem completeErr_primeOnlyBy {s : State} (hb : s.busy = true) (e : Err) :
    PrimeOnlyBy (InFlight s) s (s.completeErr (commandOf s.engine.cw) e) := by
  cases hc : commandOf s.engine.cw with
  | none => exact .of_eq rfl
  | some i =>
    refine (PrimeOnlyBy.of_command completeErr_prime).mono ?_
    rintro _ rfl
    exact ⟨hb, hc⟩

theorem tickDecode_prime (s : State) : s.tickDecode.prime = s.prime := by
  unfold State.tickDecode
  split <;> rfl

theorem tickExec_prime (s : State) : s.tickExec.prime = s.prime := by
  unfold State.tickExec
  split <;> rfl

theorem tickTestDraw_prime (s : State) : s.tickTestDraw.prime = s.prime := by
  simp only [State.tickTestDraw]
  split <;> rfl

theorem tickGenDraw_prime (s : State) : s.tickGenDraw.prime = s.prime := by
  simp only [State.tickGenDraw]
  split <;> rfl

/-- `LATCH` for the command in `CW` (R107). -/
theorem tickLatch_primeOnlyBy {s : State} (hb : s.busy = true) : PrimeOnlyBy (InFlight s) s s.tickLatch := by
  unfold State.tickLatch
  split
  · next i hc =>
    refine (PrimeOnlyBy.of_command latch_prime).mono ?_
    rintro _ rfl
    exact ⟨hb, hc⟩
  · exact .of_eq rfl

/-- `WRITEBACK` for the command in `CW` (R303). -/
theorem tickWriteback_primeOnlyBy {s : State} (hb : s.busy = true) :
    PrimeOnlyBy (InFlight s) s s.tickWriteback := by
  unfold State.tickWriteback
  split
  · next i hc =>
    refine (PrimeOnlyBy.of_command (completeOk_prime (results_commitOf _ i))).mono ?_
    rintro _ rfl
    exact ⟨hb, hc⟩
  · exact .of_eq rfl

/-- A transition of the engine writes `PRIME` only for the command in flight. -/
theorem tick_primeOnlyBy (s : State) : PrimeOnlyBy (InFlight s) s s.tick := by
  have hbusy : s.engine.phase ≠ .idle → s.busy = true := by simp [State.busy]
  unfold State.tick
  cases hp : s.engine.phase with
  | decode => exact .of_eq (tickDecode_prime s)
  | latch => exact tickLatch_primeOnlyBy (hbusy (by simp [hp]))
  | exec => exact .of_eq (tickExec_prime s)
  | writeback => exact tickWriteback_primeOnlyBy (hbusy (by simp [hp]))
  | fail x => exact completeErr_primeOnlyBy (hbusy (by simp [hp])) x
  | mrDraw => exact .of_eq (tickTestDraw_prime s)
  | pgDraw => exact .of_eq (tickGenDraw_prime s)
  | _ => exact .of_eq rfl

/-- An abort ends the command in flight (R316). -/
theorem abort_primeOnlyBy (s : State) : PrimeOnlyBy (InFlight s) s s.abort := by
  unfold State.abort
  split
  · next hb => exact completeErr_primeOnlyBy hb .aborted
  · exact .of_eq rfl

/-! ### The host's events -/

/-- `i` is the command of the word `w` (R106). -/
def InWord (w : Word) (i : Instr) : Prop := commandOf w = some i

/-- A `CMD` write that is taken (R105, R107). -/
theorem issue_primeOnlyBy (s : State) (w : Word) : PrimeOnlyBy (InWord w) s (s.issue w) := by
  cases hd : decodeChecks w with
  | error e => rw [issue_error hd]; exact .of_eq rfl
  | ok i =>
    rw [issue_ok hd]
    refine (PrimeOnlyBy.of_command (s := s.accept w) latch_prime).mono ?_
    rintro _ rfl
    exact commandOf_eq_some hd

/-- A command at the command level writes `PRIME` only if it is MRTEST or ZEROIZE (R103). -/
theorem exec_prime {i : Instr} {s t : State} (ht : exec i s = .next t) (h : ¬WritesPrime i) : t.prime = s.prime := by
  cases hb : s.busy with
  | true =>
    obtain ⟨body, hrun, -⟩ := exec_cases i s
    rw [hrun, runCommand_busy hb] at ht
    rw [← Host.Outcome.next.inj ht]
    rfl
  | false =>
    rcases exec_inversion hb ht with
      ⟨-, rfl⟩ | ⟨-, c, d, n, hc, -, -, rfl⟩ | ⟨-, e, d, n, -, -, -, rfl⟩ | ⟨-, -, rfl⟩
    · rfl
    · rw [completeOk_prime hc h]; exact accepted_prime h
    · rw [completeErr_prime h]; exact accepted_prime h
    · exact accepted_prime h

/-- A command that writes `PRIME` passes its decode checks (R106). -/
theorem commandOf_of_writesPrime {w : Word} {i : Instr} (hd : decode w = .ok i) (h : WritesPrime i) :
    commandOf w = some i := by
  have hw : i.wellFormed = true := by rcases h with rfl | ⟨a, rfl⟩ <;> rfl
  simp [commandOf, decodeChecks, hd, hw]

theorem rejectWord_prime (w : Word) (e : Err) (s : State) : (rejectWord w e s).prime = s.prime := by
  unfold rejectWord
  split <;> rfl

/-- The command event (R9). -/
theorem runWord_primeOnlyBy {w : Word} {s t : State} (ht : runWord w s = .next t) : PrimeOnlyBy (InWord w) s t := by
  unfold runWord at ht
  split at ht
  · next i hd =>
    intro hne
    obtain ⟨_, rfl, hw⟩ := PrimeOnlyBy.of_command (exec_prime ht) hne
    exact ⟨_, commandOf_of_writesPrime hd hw, hw⟩
  · rw [← Host.Outcome.next.inj ht]; exact .of_eq (rejectWord_prime w _ s)
  · rw [← Host.Outcome.next.inj ht]; exact .of_eq (rejectWord_prime w _ s)

theorem writeConfig_prime (s : State) (addr : Nat) (v : Word) : (s.writeConfig addr v).prime = s.prime := by
  unfold State.writeConfig
  split_ifs <;> rfl

theorem writeWindow_prime (s : State) (i j : Nat) (v : Word) : (s.writeWindow i j v).prime = s.prime := by
  unfold State.writeWindow
  split <;> rfl

/-- A write to `CTRL` that is no reset (R30, R316). -/
theorem writeCtrl_primeOnlyBy {s : State} {v : Word} (hv : v.getLsbD 2 = false) :
    PrimeOnlyBy (InFlight s) s (s.writeCtrl v) := by
  unfold State.writeCtrl
  rw [hv, if_neg Bool.false_ne_true]
  split
  · exact abort_primeOnlyBy { s with ie := v.getLsbD 0 }
  · exact .of_eq rfl

/-- A write on the bus writes `PRIME` only by a reset, by ending the command in flight, or by issuing a command
(R73). -/
theorem memWrite_primeOnlyBy {s : State} {addr : Nat} {v : Word} (hr : ¬(addr = offCTRL ∧ v.getLsbD 2 = true)) :
    PrimeOnlyBy (fun i => InFlight s i ∨ addr = offCMD ∧ InWord v i) s (s.memWrite addr v) := by
  unfold State.memWrite
  split
  · exact .of_eq rfl
  split
  · next hctrl =>
    exact (writeCtrl_primeOnlyBy (by simpa [hctrl] using hr)).mono fun _ => .inl
  split
  · next hcmd =>
    split
    · exact .of_eq rfl
    · exact (issue_primeOnlyBy s v).mono fun _ hi => .inr ⟨hcmd, hi⟩
  split
  · split
    · exact .of_eq rfl
    · exact .of_eq (writeConfig_prime s addr v)
  split
  · split
    · exact .of_eq rfl
    · exact .of_eq (writeWindow_prime s _ _ v)
  · exact .of_eq rfl

theorem memRead_prime (s : State) (addr : Nat) : (s.memRead addr).prime = s.prime := by
  have heff : (s.readEffect addr).prime = s.prime := by
    unfold State.readEffect
    split
    · rfl
    split
    · split <;> rfl
    · rfl
  exact heff

/-- A poll of `WAIT` (R112). -/
theorem poll_primeOnlyBy (s : State) : PrimeOnlyBy (InFlight s) s s.poll := by
  unfold State.poll
  split
  · exact tick_primeOnlyBy { s with host := .wait :: s.host, rdata := some s.statusWord }
  · exact .of_eq rfl

/-- A host event that is no reset writes `PRIME` only for the command in flight or the one it issues. -/
theorem hostEvent_primeOnlyBy {ev : HostEvent} {s t : State} (ht : hostEvent ev s = .next t) (hhard : ev ≠ .hardReset)
    (hsoft : ∀ v : Word, v.getLsbD 2 = true → ev ≠ .write offCTRL v) :
    PrimeOnlyBy (fun i => InFlight s i ∨ ∃ w, InWord w i ∧ (ev = .command w ∨ ev = .write offCMD w)) s t := by
  cases ev with
  | command w => exact (runWord_primeOnlyBy ht).mono fun i hi => .inr ⟨w, hi, .inl rfl⟩
  | write addr v =>
    rw [access_next ht]
    refine (memWrite_primeOnlyBy ?_).mono ?_
    · rintro ⟨rfl, hv⟩
      exact hsoft v hv rfl
    · rintro i (hi | ⟨rfl, hi⟩)
      · exact .inl hi
      · exact .inr ⟨v, hi, .inr rfl⟩
  | read addr => rw [access_next ht]; exact .of_eq (memRead_prime s addr)
  | wait => rw [← Host.Outcome.next.inj ht]; exact (poll_primeOnlyBy s).mono fun _ => .inl
  | engine => rw [← Host.Outcome.next.inj ht]; exact (tick_primeOnlyBy s).mono fun _ => .inl
  | hardReset => exact absurd rfl hhard
  | supply w => rw [← Host.Outcome.next.inj ht]; exact .of_eq rfl

/-- Settles O39, by the event: outside a reset, each operation writes `PRIME` only for the command it runs. -/
theorem primeWrittenBy : Obligations.PrimeWrittenBy := by
  unfold Obligations.PrimeWrittenBy
  intro s t ht hne
  by_cases hr : Resetting s
  · exact .inl hr
  refine .inr ?_
  unfold step at ht
  split at ht
  · rw [← Host.Outcome.next.inj ht] at hne
    obtain ⟨i, hi, hw⟩ := tick_primeOnlyBy s hne
    exact ⟨i, .inl hi, hw⟩
  · next ev rest hh =>
    have hhard : ev ≠ .hardReset := by rintro rfl; exact hr ⟨rest, .inl hh⟩
    have hsoft : ∀ v : Word, v.getLsbD 2 = true → ev ≠ .write offCTRL v := by
      rintro v hv rfl
      exact hr ⟨rest, .inr ⟨v, hv, hh⟩⟩
    obtain ⟨i, hi | ⟨w, hw, hev⟩, hp⟩ := hostEvent_primeOnlyBy ht hhard hsoft hne
    · exact ⟨i, .inl hi, hp⟩
    · refine ⟨i, .inr ⟨w, rest, hw, hev.imp ?_ ?_⟩, hp⟩
      · rintro rfl; exact hh
      · rintro rfl; exact hh

end Sys2Proof.Machine

/-! ## The control registers on the bus (10_state.md R25, R30 to R40, 20_memory.md R72 to R76) -/

namespace Sys2Proof.Machine

/-! ### Fields of a word -/

/-- A bit of a word given as a natural. -/
theorem getLsbD_ofNat_of {n k : Nat} {b : Bool} (hk : k < 32) (h : n / 2 ^ k % 2 = b.toNat) :
    (BitVec.ofNat 32 n).getLsbD k = b := by
  rw [BitVec.getLsbD_ofNat, decide_eq_true hk, Bool.true_and, Nat.testBit_eq_decide_div_mod_eq, h]
  cases b <;> rfl

/-- A field of a word given as a natural. -/
theorem extractLsb'_ofNat_of {n k w : Nat} {x : BitVec w} (hk : k + w ≤ 32) (h : n / 2 ^ k % 2 ^ w = x.toNat) :
    (BitVec.ofNat 32 n).extractLsb' k w = x := by
  apply BitVec.eq_of_toNat_eq
  have hsplit : 2 ^ 32 = 2 ^ k * (2 ^ w * 2 ^ (32 - k - w)) := by
    rw [← pow_add, ← pow_add]
    congr 1
    omega
  rw [BitVec.extractLsb'_toNat, BitVec.toNat_ofNat, Nat.shiftRight_eq_div_pow, hsplit, Nat.mod_mul_right_div_self,
    Nat.mod_mul_right_mod, h]

/-- Reserved bits of a word given as a natural. -/
theorem extractLsb'_ofNat_zero {n k w : Nat} (hk : k + w ≤ 32) (h : n / 2 ^ k % 2 ^ w = 0) :
    (BitVec.ofNat 32 n).extractLsb' k w = 0 :=
  extractLsb'_ofNat_of hk (by simpa using h)

/-- `STATUS` as it reads: its fields in their places, the reserved bits 0 (R25). -/
structure StatusFields (s : State) (w : Word) : Prop where
  busy : w.getLsbD 0 = s.busy
  done : w.getLsbD 1 = s.done
  err : w.getLsbD 2 = decide (s.errcode ≠ 0)
  prime : w.getLsbD 3 = s.prime
  buserr : w.getLsbD 4 = s.buserr
  reserved5 : w.extractLsb' 5 3 = 0
  errcode : w.extractLsb' 8 4 = s.errcode
  reserved12 : w.extractLsb' 12 4 = 0
  sub : w.extractLsb' 16 4 = s.sub
  reserved20 : w.extractLsb' 20 12 = 0

theorem statusWord_fields (s : State) : StatusFields s s.statusWord := by
  have hbusy := Bool.toNat_le s.busy
  have hdone := Bool.toNat_le s.done
  have herr := Bool.toNat_le s.err
  have hprime := Bool.toNat_le s.prime
  have hbuserr := Bool.toNat_le s.buserr
  have hcode := s.errcode.isLt
  have hsub := s.sub.isLt
  constructor
  case err =>
    rw [show decide (s.errcode ≠ 0) = s.err by simp [State.err, bne, Bool.beq_eq_decide_eq]]
    exact getLsbD_ofNat_of (by omega) (by omega)
  case busy | done | prime | buserr => exact getLsbD_ofNat_of (by omega) (by omega)
  case errcode | sub => exact extractLsb'_ofNat_of (by omega) (by omega)
  case reserved5 | reserved12 | reserved20 => exact extractLsb'_ofNat_zero (by omega) (by omega)

/-- `CAP` as it reads in a build of R5 (R40). -/
structure CapFields (b : Build) (w : Word) : Prop where
  maxBits : (w.extractLsb' 0 16).toNat = b.maxBits
  limbBits : w.extractLsb' 16 8 = 32
  registers : w.extractLsb' 24 4 = 8
  dbgPrimes : w.getLsbD 28 = b.dbgPrimes
  reserved29 : w.extractLsb' 29 3 = 0

theorem capWord_fields {b : Build} (h : b.Legal) : CapFields b (capWord b) := by
  have hmax : b.maxBits ≤ 65504 := h.2.2
  have hdbg := Bool.toNat_le b.dbgPrimes
  constructor
  case maxBits =>
    have hfield : (capWord b).extractLsb' 0 16 = BitVec.ofNat 16 b.maxBits :=
      extractLsb'_ofNat_of (by omega) (by rw [BitVec.toNat_ofNat]; omega)
    rw [hfield, BitVec.toNat_ofNat]
    omega
  case dbgPrimes => exact getLsbD_ofNat_of (by omega) (by omega)
  case limbBits => exact extractLsb'_ofNat_of (by omega) (show _ = 32 by omega)
  case registers => exact extractLsb'_ofNat_of (by omega) (show _ = 8 by omega)
  case reserved29 => exact extractLsb'_ofNat_zero (by omega) (by omega)

/-! ### Reads -/

/-- A read of a control register answers it and has no effect (R72). -/
theorem memRead_csr {s : State} {addr : Nat} {w : Word} (h : s.csr addr = some w) :
    s.memRead addr = { s with rdata := some w } := by
  simp only [State.memRead, State.readEffect, State.readValue, h]

/-- A read outside the control registers and the window answers 0 and has no effect (R76). -/
theorem memRead_reserved {s : State} {addr : Nat} (hc : s.csr addr = none) (hw : windowAt s.build addr = none) :
    s.memRead addr = { s with rdata := some 0 } := by
  simp only [State.memRead, State.readEffect, State.readValue, hc, hw]

/-- The step that reads a control register, whether or not a command runs (R72, R78). -/
theorem step_read_csr {s : State} {addr : Nat} {w : Word} {rest : List HostEvent} (hh : s.host = .read addr :: rest)
    (ha : addr < 0x1000) (h4 : addr % 4 = 0) (hw : s.csr addr = some w) :
    step s = .next { s with host := rest, rdata := some w } := by
  rw [step_read hh (by omega) h4, memRead_csr (s := s.taken rest) hw]
  rfl

/-! ### Writes -/

/-- A write elsewhere than to a register the host writes or to the window does nothing (R73, R76). -/
theorem memWrite_ignored {s : State} {addr : Nat} (v : Word) (hc : addr ∉ offSTATUS :: offCTRL :: offCMD :: configOffsets)
    (hw : windowAt s.build addr = none) : s.memWrite addr v = s := by
  simp only [List.mem_cons, not_or] at hc
  obtain ⟨hstatus, hctrl, hcmd, hconfig⟩ := hc
  simp only [State.memWrite, if_neg hstatus, if_neg hctrl, if_neg hcmd, if_neg hconfig, hw]

/-- The step that carries a write which does nothing. -/
theorem step_write_ignored {s : State} {addr : Nat} {v : Word} {rest : List HostEvent}
    (hh : s.host = .write addr v :: rest) (ha : addr < 2 ^ addressWidth s.build) (h4 : addr % 4 = 0)
    (hc : addr ∉ offSTATUS :: offCTRL :: offCMD :: configOffsets) (hw : windowAt s.build addr = none) :
    step s = .next { s with host := rest, rdata := none } := by
  rw [step_write_space hh ha h4, memWrite_ignored (s := s.taken rest) v hc hw]
  rfl

/-- The step that writes a configuration register of an idle engine (R32 to R36, R73). -/
theorem step_write_config {s : State} {addr : Nat} {v : Word} {rest : List HostEvent} (hb : s.busy = false)
    (hh : s.host = .write addr v :: rest) (ha : addr ∈ configOffsets) :
    step s = .next ((s.taken rest).writeConfig addr v) := by
  have hrange : ∀ a ∈ configOffsets, a < 0x1000 ∧ a % 4 = 0 ∧ a ≠ offSTATUS ∧ a ≠ offCTRL ∧ a ≠ offCMD := by decide
  obtain ⟨hlt, h4, hstatus, hctrl, hcmd⟩ := hrange addr ha
  have hb' : (s.taken rest).busy = false := hb
  rw [step_write hh (by omega) h4]
  simp only [State.memWrite, if_neg hstatus, if_neg hctrl, if_neg hcmd, if_pos ha, hb', Bool.false_eq_true, if_false]

/-- A write to `CTRL` with neither ABORT nor SRST sets `IE` (R30). -/
theorem writeCtrl_ie {s : State} {v : Word} (h1 : v.getLsbD 1 = false) (h2 : v.getLsbD 2 = false) :
    s.writeCtrl v = { s with ie := v.getLsbD 0 } := by
  simp only [State.writeCtrl, h1, h2, Bool.false_eq_true, if_false]

/-- The step that writes `CTRL` (R30). -/
theorem step_write_ctrl {s : State} {v : Word} {rest : List HostEvent} (hh : s.host = .write 0x008 v :: rest) :
    step s = .next ((s.taken rest).writeCtrl v) :=
  step_write hh (by omega) rfl

/-- Settles O46: the two registers as they read, and what a write to them does. -/
theorem statusAndControlAccess : Obligations.StatusAndControlAccess := by
  unfold Obligations.StatusAndControlAccess
  intro s v rest
  refine ⟨fun hh => ?_, fun hh => step_write hh (by omega) rfl, fun hh => ?_, fun hh h1 h2 => ?_⟩
  · obtain ⟨hbusy, hdone, herr, hprime, hbuserr, h5, hcode, h12, hsub, h20⟩ := statusWord_fields s
    exact ⟨s.statusWord, step_read_csr hh (by omega) rfl rfl, hbusy, hdone, herr, hprime, hbuserr, h5, hcode, h12,
      hsub, h20⟩
  · have hie := Bool.toNat_le s.ie
    refine ⟨s.ctrlWord, step_read_csr hh (by omega) rfl rfl, ?_, ?_⟩
    · exact getLsbD_ofNat_of (by omega) (by omega)
    · exact extractLsb'_ofNat_zero (by omega) (by omega)
  · rw [step_write_ctrl hh, writeCtrl_ie h1 h2]
    rfl

/-- Settles O47, register by register. -/
theorem configurationAccess : Obligations.ConfigurationAccess := by
  unfold Obligations.ConfigurationAccess
  intro s v rest
  refine ⟨fun hb => ?_, fun hh => ?_, fun hh => ?_, fun hh => ?_, fun hh => ?_, fun hh => ?_⟩
  · refine ⟨fun hh => ?_, fun hh => ?_, fun hh => ?_, fun hh => ?_, fun hh => ?_⟩ <;>
      exact step_write_config hb hh (by decide)
  · exact step_read_csr hh (by omega) rfl rfl
  · rw [BitVec.ofNat_toNat]
    exact step_read_csr hh (by omega) rfl rfl
  · rw [BitVec.ofNat_toNat]
    exact step_read_csr hh (by omega) rfl rfl
  · exact step_read_csr hh (by omega) rfl rfl
  · exact step_read_csr hh (by omega) rfl rfl

/-- A write to a read-only control register does nothing (R37 to R40, R73). -/
theorem step_write_readOnly {s : State} {addr : Nat} {v : Word} {rest : List HostEvent}
    (ha : addr ∈ [0x00C, 0x010, 0x028, 0x02C]) (hh : s.host = .write addr v :: rest) :
    step s = .next { s with host := rest, rdata := none } := by
  have hrange : ∀ a ∈ [0x00C, 0x010, 0x028, 0x02C],
      a < 0x1000 ∧ a % 4 = 0 ∧ a ∉ offSTATUS :: offCTRL :: offCMD :: configOffsets := by decide
  obtain ⟨hlt, h4, hc⟩ := hrange addr ha
  exact step_write_ignored hh (lt_space (by omega)) h4 hc (windowAt_outside (.inl hlt))

/-- A write of a limb of `DBGP` or `DBGQ` does nothing on an idle engine (R41, R73). -/
theorem step_write_debug {s : State} {i j : Nat} {v : Word} {rest : List HostEvent} (hb : s.busy = false)
    (hlo : 8 ≤ i) (hhi : i ≤ 9) (hj : j < s.build.limbCount) (hh : s.host = .write (windowOffset s.build i j) v :: rest) :
    step s = .next { s with host := rest, rdata := none } := by
  obtain ⟨hstart, hend, h4⟩ := windowOffset_range (b := s.build) (show i < 10 by omega) hj
  have hw : windowAt (s.taken rest).build (windowOffset s.build i j) = some (i, j) := windowAt_limb (by omega) hj
  have hb' : (s.taken rest).busy = false := hb
  rw [step_write hh hend h4, memWrite_high _ v (by omega), hw]
  simp only [hb', Bool.false_eq_true, if_false, State.writeWindow, dif_neg (show ¬i < 8 by omega)]
  rfl

/-- The reserved offsets, below and above the register window (R75, R76). -/
structure ReservedOffset (b : Build) (addr : Nat) : Prop where
  aligned : addr % 4 = 0
  high : 0x30 ≤ addr
  inSpace : addr < 2 ^ addressWidth b
  outside : windowAt b addr = none

theorem reservedOffset_of {b : Build} {addr : Nat} (h4 : addr % 4 = 0)
    (h : (0x030 ≤ addr ∧ addr < 0x1000) ∨ (0x1000 + 40 * b.limbCount ≤ addr ∧ addr < 2 ^ addressWidth b)) :
    ReservedOffset b addr := by
  rcases h with ⟨hlo, hhi⟩ | ⟨hlo, hhi⟩
  · exact ⟨h4, hlo, lt_space (by omega), windowAt_outside (.inl hhi)⟩
  · exact ⟨h4, by omega, hhi, windowAt_outside (.inr hlo)⟩

/-- A write to a reserved offset does nothing (R76). -/
theorem step_write_reserved {s : State} {addr : Nat} {v : Word} {rest : List HostEvent}
    (h : ReservedOffset s.build addr) (hh : s.host = .write addr v :: rest) :
    step s = .next { s with host := rest, rdata := none } := by
  have hlow : ∀ a ∈ offSTATUS :: offCTRL :: offCMD :: configOffsets, a < 0x30 := by decide
  exact step_write_ignored hh h.inSpace h.aligned (fun hm => absurd (hlow addr hm) (by have := h.high; omega)) h.outside

/-- A read of a reserved offset answers 0 (R76). -/
theorem step_read_reserved {s : State} {addr : Nat} {rest : List HostEvent}
    (h : ReservedOffset s.build addr) (hh : s.host = .read addr :: rest) :
    step s = .next { s with host := rest, rdata := some 0 } := by
  rw [step_read_space hh h.inSpace h.aligned, memRead_reserved (s := s.taken rest) (csr_high _ h.high) h.outside]
  rfl

/-- Settles O48: the kinds of offsets that ignore writes, and the constants. -/
theorem reservedAndReadOnly : Obligations.ReservedAndReadOnly := by
  unfold Obligations.ReservedAndReadOnly
  intro s addr v rest hlegal
  refine ⟨step_write_readOnly, fun h4 ha => ?_, fun i j hb hlo hhi hj hh => step_write_debug hb hlo hhi hj hh,
    fun hh => step_read_csr hh (by omega) rfl rfl, fun hh => step_read_csr hh (by omega) rfl rfl,
    fun hh => step_read_csr hh (by omega) rfl rfl, fun hh => step_read_csr hh (by omega) rfl rfl, fun hh => ?_⟩
  · have hr : ReservedOffset s.build addr := reservedOffset_of h4 ha
    exact ⟨step_write_reserved hr, step_read_reserved hr⟩
  · obtain ⟨hmax, hlimb, hregs, hdbg, h29⟩ := capWord_fields hlegal
    exact ⟨capWord s.build, step_read_csr hh (by omega) rfl rfl, hmax, hlimb, hregs, hdbg, h29⟩

/-! ## Reset (10_state.md R49) -/

@[simp] theorem State.resetAll_readG (s : State) (r : Reg) : s.resetAll.readG r = 0 := by
  simp [State.readG, State.resetAll, State.reset]

/-- A reset, hard or soft, is the whole step (R340, R341). -/
theorem step_reset {s : State} {v : Word} {rest : List HostEvent}
    (h : s.host = .hardReset :: rest ∨ (v.getLsbD 2 = true ∧ s.host = .write 0x008 v :: rest)) :
    step s = .next (s.taken rest).resetAll := by
  rcases h with hh | ⟨hv, hh⟩
  · rw [step, hh]
    rfl
  · rw [step_write_ctrl hh, State.writeCtrl, if_pos hv]

/-- Settles O50: either reset leaves the reset state, in which every field is that of the table. -/
theorem resetState : Obligations.ResetState := by
  unfold Obligations.ResetState
  intro s v rest h
  refine ⟨_, step_reset h, State.resetAll_readG _, ?_⟩
  and_intros <;> rfl

/-- An idle, zeroised engine makes the invariant a matter of the registers and the error record (R45). -/
theorem State.Data.inv_of_cleared {s : State} (h : s.Data) (hp : (s.errcode, s.sub) ∈ statusPairs)
    (he : s.engine = Engine.cleared) : s.Inv := by
  have hb : s.busy = false := by rw [State.busy, he]; rfl
  have hnot : s.busy ≠ true := by simp [hb]
  exact {
    build := h.build
    big := h.big
    dbg := h.dbg
    dbgOff := h.dbgOff
    pair := hp
    idle := fun _ => he
    running := fun h => absurd h hnot
    settled := by simp [he, Engine.cleared]
    decoded := fun h => absurd h hnot
    tester := fun h => absurd h hnot }

/-- The registers of the reset state of a build of R5 (R21, R49). -/
theorem State.resetAll_data {s : State} (h : s.build.Legal) : s.resetAll.Data where
  build := h
  big r := by rw [State.resetAll_readG]; exact Nat.two_pow_pos _
  dbg := ⟨Nat.two_pow_pos _, Nat.two_pow_pos _⟩
  dbgOff _ := ⟨rfl, rfl⟩

/-- Settles O51: `State.reset` is the reset state of the default build, which R5 allows. -/
theorem resetInv : Obligations.ResetInv := by
  unfold Obligations.ResetInv
  have hdata : State.reset.Data := State.resetAll_data (s := State.reset) (by decide)
  exact hdata.inv_of_cleared (by decide) rfl

end Sys2Proof.Machine

/-! ## Accesses the port carries, locked accesses, limbs (20_memory.md R71 to R79, R82) -/

namespace Sys2Proof.Machine

/-! ### The stops of the machine -/

/-- An unaligned access is refused (R79). -/
theorem access_unaligned {b : Build} {addr : Nat} (h4 : addr % 4 ≠ 0) (u : State) :
    access b addr u = .refused (.unalignedAccess addr) := if_pos h4

/-- An aligned access beyond the address space of the port faults (R71, R75). -/
theorem access_outside {b : Build} {addr : Nat} (h4 : addr % 4 = 0) (ha : 2 ^ addressWidth b ≤ addr) (u : State) :
    access b addr u = .fault (.offsetOutsideSpace addr) := by
  unfold access
  rw [if_neg (not_not.2 h4), if_pos ha]

/-- The port carries the aligned accesses inside its address space and no others (R71, R75, R79). -/
theorem access_next_iff {b : Build} {addr : Nat} (u : State) :
    (∃ t, access b addr u = .next t) ↔ addr % 4 = 0 ∧ addr < 2 ^ addressWidth b := by
  refine ⟨fun ⟨t, ht⟩ => ?_, fun ⟨h4, ha⟩ => ⟨u, access_space ha h4 u⟩⟩
  have h4 : addr % 4 = 0 := by
    by_contra h4
    rw [access_unaligned h4] at ht
    cases ht
  refine ⟨h4, ?_⟩
  by_contra ha
  rw [access_outside h4 (not_lt.1 ha)] at ht
  cases ht

/-- Every word of the command event has a next state (R104). -/
theorem runWord_next (w : Word) (s : State) : ∃ t, runWord w s = .next t := by
  unfold runWord
  split
  · exact exec_next _ s
  · exact ⟨_, rfl⟩
  · exact ⟨_, rfl⟩

/-- A host event stops the machine only by an access the port cannot carry. -/
theorem hostEvent_next_iff (ev : HostEvent) (s : State) :
    (∃ t, hostEvent ev s = .next t) ↔ ev.Expressible s.build := by
  cases ev with
  | command w => exact iff_of_true (runWord_next w s) trivial
  | write addr v => exact access_next_iff _
  | read addr => exact access_next_iff _
  | wait | engine | hardReset | supply w => exact iff_of_true ⟨_, rfl⟩ trivial

/-- With an event to come, the step is that event. -/
theorem step_event {s : State} {ev : HostEvent} {rest : List HostEvent} (hh : s.host = ev :: rest) :
    step s = hostEvent ev (s.taken rest) := by
  rw [step, hh]

/-- A step for a bus access is whatever the port makes of its address (R71). -/
theorem step_access {s : State} {addr : Nat} {v : Word} {rest : List HostEvent}
    (hh : s.host = .write addr v :: rest ∨ s.host = .read addr :: rest) : ∃ u, step s = access s.build addr u := by
  rcases hh with hh | hh <;> exact ⟨_, step_event hh⟩

/-- Settles O9, by the next event: only an access can stop, and its address says how. -/
theorem stepStops : Obligations.StepStops := by
  unfold Obligations.StepStops
  intro s
  refine ⟨?_, fun addr v rest hh => ?_⟩
  · cases hh : s.host with
    | nil => exact iff_of_true ⟨s.tick, by rw [step, hh]⟩ (by simp)
    | cons ev rest =>
      rw [step_event hh, hostEvent_next_iff]
      refine ⟨fun h ev' rest' he => ?_, fun h => h ev rest rfl⟩
      obtain ⟨rfl, -⟩ := List.cons.inj he
      exact h
  · obtain ⟨u, hu⟩ := step_access hh
    rw [hu]
    exact ⟨fun h4 => access_unaligned h4 u, fun h4 ha => access_outside h4 ha u⟩

/-! ### Locked accesses -/

/-- Every offset of the register window is a limb of a big register (R74, R75). -/
theorem windowAt_inside {b : Build} {addr : Nat} (hlo : 0x1000 ≤ addr) (hhi : addr < 0x1000 + 40 * b.limbCount) :
    ∃ i j, windowAt b addr = some (i, j) := ⟨_, _, if_pos ⟨hlo, hhi⟩⟩

/-- A command issued while another runs is a locked access (R31, R78). -/
theorem exec_busy {s : State} (hb : s.busy = true) (i : Instr) : exec i s = .next s.locked := by
  obtain ⟨body, hrun, -⟩ := exec_cases i s
  rw [hrun, runCommand_busy hb]

/-- So is any other word (R78, R104). -/
theorem runWord_busy {s : State} (hb : s.busy = true) (w : Word) : runWord w s = .next s.locked := by
  unfold runWord
  split
  · exact exec_busy hb _
  · rw [rejectWord, if_pos hb]
  · rw [rejectWord, if_pos hb]

/-- A write of `CMD` or of a configuration register while a command runs (R73, R78). -/
theorem memWrite_locked_csr {s : State} {addr : Nat} (hb : s.busy = true) (ha : addr ∈ offCMD :: configOffsets)
    (v : Word) : s.memWrite addr v = s.locked := by
  have hother : ∀ a ∈ offCMD :: configOffsets, a ≠ offSTATUS ∧ a ≠ offCTRL := by decide
  obtain ⟨hstatus, hctrl⟩ := hother addr ha
  unfold State.memWrite
  rw [if_neg hstatus, if_neg hctrl]
  by_cases hcmd : addr = offCMD
  · rw [if_pos hcmd, if_pos hb]
  · rw [if_neg hcmd, if_pos (List.mem_of_ne_of_mem hcmd ha), if_pos hb]

/-- A write of the register window while a command runs (R73, R78). -/
theorem memWrite_locked_window {s : State} {addr : Nat} (hb : s.busy = true) (hlo : 0x1000 ≤ addr)
    (hhi : addr < 0x1000 + 40 * s.build.limbCount) (v : Word) : s.memWrite addr v = s.locked := by
  obtain ⟨i, j, hw⟩ := windowAt_inside hlo hhi
  rw [memWrite_high s v (by omega), hw]
  exact if_pos hb

/-- A read of the register window while a command runs (R72, R78). -/
theorem memRead_locked {s : State} {addr : Nat} (hb : s.busy = true) (hlo : 0x1000 ≤ addr)
    (hhi : addr < 0x1000 + 40 * s.build.limbCount) : s.memRead addr = { s.locked with rdata := some 0 } := by
  obtain ⟨i, j, hw⟩ := windowAt_inside hlo hhi
  have hc : s.csr addr = none := csr_high s (by omega)
  simp only [State.memRead, State.readEffect, State.readValue, hc, hw, if_pos hb]

/-- The step that carries a locked write (R78). -/
theorem step_write_locked {s : State} {addr : Nat} {v : Word} {rest : List HostEvent} (hb : s.busy = true)
    (hh : s.host = .write addr v :: rest)
    (ha : addr ∈ offCMD :: configOffsets ∨
      (addr % 4 = 0 ∧ 0x1000 ≤ addr ∧ addr < 0x1000 + 40 * s.build.limbCount)) :
    step s = .next (s.taken rest).locked := by
  rcases ha with ha | ⟨h4, hlo, hhi⟩
  · have hrange : ∀ a ∈ offCMD :: configOffsets, a < 0x1000 ∧ a % 4 = 0 := by decide
    obtain ⟨hlt, h4⟩ := hrange addr ha
    rw [step_write hh (by omega) h4, memWrite_locked_csr (s := s.taken rest) hb ha]
  · rw [step_write hh hhi h4, memWrite_locked_window (s := s.taken rest) hb hlo hhi]

/-- Settles O42: a locked write, a locked read and a command word each come to `State.locked`. -/
theorem lockedAccess : Obligations.LockedAccess := by
  unfold Obligations.LockedAccess
  intro s addr v rest _ hb
  refine ⟨fun hh ha => step_write_locked hb hh ha, fun hh h4 hlo hhi => ?_, fun hh => ?_⟩
  · rw [step_read hh hhi h4, memRead_locked (s := s.taken rest) hb hlo hhi]
    rfl
  · rw [step_event hh]
    exact runWord_busy (s := s.taken rest) hb v

/-! ### One limb of a big register -/

/-- A big register is as wide as its limbs (R5). -/
theorem maxBits_of_legal {b : Build} (h : b.Legal) : b.maxBits = 32 * b.limbCount := by
  obtain ⟨h32, -, -⟩ := h
  unfold Build.limbCount
  omega

/-- A write of a limb of `G[r]` on an idle engine (R73, R74). -/
theorem memWrite_limb {s : State} {r : Reg} {j : Nat} (hb : s.busy = false) (hj : j < s.build.limbCount) (v : Word) :
    s.memWrite (windowOffset s.build r.val j) v = s.writeG r (setLimb (s.readG r) j v.toNat) := by
  have hr : r.val < 10 := by omega
  obtain ⟨hlo, -, -⟩ := windowOffset_range (b := s.build) hr hj
  rw [memWrite_high s v (by omega), windowAt_limb hr hj]
  simp only [hb, Bool.false_eq_true, if_false, State.writeWindow, dif_pos r.isLt]

/-- A limb written to a register of the invariant is kept whole (R21, R73). -/
theorem readG_writeLimb {s : State} (h : s.Inv) (r : Reg) {j : Nat} (hj : j < s.build.limbCount) (v : Word) :
    (s.writeG r (setLimb (s.readG r) j v.toNat)).readG r = setLimb (s.readG r) j v.toNat := by
  have hbig := h.big r
  apply State.readG_writeG_fits
  rw [maxBits_of_legal h.build] at hbig ⊢
  exact setLimb_lt hbig hj v.isLt

/-- Settles O43: the step is one register write, of the old value with the one limb replaced. -/
theorem limbWrite : Obligations.LimbWrite := by
  unfold Obligations.LimbWrite
  intro s r j v rest ⟨hinv, hb⟩ hj hh
  have hr : r.val < 10 := by omega
  obtain ⟨-, hhi, h4⟩ := windowOffset_range (b := s.build) hr hj
  have hvalue : ((s.taken rest).writeG r (setLimb (s.readG r) j v.toNat)).readG r = setLimb (s.readG r) j v.toNat :=
    readG_writeLimb hinv r hj v
  refine ⟨(s.taken rest).writeG r (setLimb (s.readG r) j v.toNat), ?_, ?_, fun k hk => ?_, fun q hq => ?_, rfl⟩
  · exact (step_write hh hhi h4).trans (congrArg _ (memWrite_limb (s := s.taken rest) hb hj v))
  · rw [hvalue, limb_setLimb_same _ _ v.isLt]
  · rw [hvalue, limb_setLimb_other _ v.isLt hk]
  · exact State.readG_writeG_other _ _ hq

/-- A read of a limb of a big register on an idle engine (R72, R74). -/
theorem memRead_limb {s : State} {i j : Nat} (hb : s.busy = false) (hi : i < 10) (hj : j < s.build.limbCount) :
    s.memRead (windowOffset s.build i j) = { s with rdata := some (BitVec.ofNat 32 (limb (s.big i) j)) } := by
  obtain ⟨hlo, -, -⟩ := windowOffset_range (b := s.build) hi hj
  have hc : s.csr (windowOffset s.build i j) = none := csr_high s (by omega)
  simp only [State.memRead, State.readEffect, State.readValue, hc, windowAt_limb hi hj, hb,
    Bool.false_eq_true, if_false]

/-- The debug registers of the invariant read as they are stored (R41). -/
theorem State.Inv.readDbgP {s : State} (h : s.Inv) : s.readDbgP = s.dbgp := by
  unfold State.readDbgP
  split
  · rfl
  · next hoff => exact (h.dbgOff (by simpa using hoff)).1.symm

theorem State.Inv.readDbgQ {s : State} (h : s.Inv) : s.readDbgQ = s.dbgq := by
  unfold State.readDbgQ
  split
  · rfl
  · next hoff => exact (h.dbgOff (by simpa using hoff)).2.symm

/-- `BIG[i]` of R72 in a state of the invariant. -/
theorem State.Inv.big_eq {s : State} (h : s.Inv) (i : Nat) :
    s.big i = if h : i < 8 then s.readG ⟨i, h⟩ else if i = 8 then s.dbgp else s.dbgq := by
  unfold State.big
  rw [h.readDbgP, h.readDbgQ]

/-- A limb, as a word (R7). -/
theorem ofNat_limb (v j : Nat) : BitVec.ofNat 32 (limb v j) = BitVec.ofNat 32 (v / 2 ^ (32 * j)) := by
  apply BitVec.eq_of_toNat_eq
  simp only [BitVec.toNat_ofNat, limb, Nat.mod_mod]

/-- Settles O44: the step is one read of the window, and the limb is the quotient cut to a word. -/
theorem limbRead : Obligations.LimbRead := by
  unfold Obligations.LimbRead
  intro s i j rest ⟨hinv, hb⟩ hi hj hh
  obtain ⟨-, hhi, h4⟩ := windowOffset_range (b := s.build) hi hj
  rw [← hinv.big_eq, ← ofNat_limb]
  exact (step_read hh hhi h4).trans (congrArg _ (memRead_limb (s := s.taken rest) hb hi hj))

/-! ### Between acceptance and completion -/

/-- A completion leaves the engine idle (R303, R304). -/
@[simp] theorem State.completeOk_busy (s : State) (i : Instr) (c : Commit) : (s.completeOk i c).busy = false := rfl

@[simp] theorem State.completeErr_busy (s : State) (i : Option Instr) (e : Err) :
    (s.completeErr i e).busy = false := by
  cases i <;> rfl

/-- The engine's own registers and the source's words are hidden from the host (R45, R72). -/
theorem SameToHost.of_hidden {s : State} {ws : List Word} {e : Engine}
    (h : ({ s with rng := ws, engine := e } : State).busy = s.busy) :
    SameToHost s { s with rng := ws, engine := e } := by
  constructor
  case busy => exact h
  all_goals rfl

/-- A transition of a running engine that does not end the command is hidden (R45, R82). -/
theorem Tick.hidden {s t : State} (h : Tick s t) (hs : s.busy = true) (ht : t.busy = true) : SameToHost s t := by
  have hbusy : t.busy = s.busy := ht.trans hs.symm
  cases h with
  | inside e on => exact .of_hidden hbusy
  | waits => exact .of_hidden hbusy
  | draws w ws e => exact .of_hidden hbusy
  | succeeds i => exact absurd ht (by simp)
  | fails x => exact absurd ht (by simp)

/-- Settles O53: an idle engine stays as it is, and a running one either completes or keeps to itself. -/
theorem busyTicksHidden : Obligations.BusyTicksHidden := by
  unfold Obligations.BusyTicksHidden
  intro s h
  have hidle : s.busy = false → s.tick = s := ticks_idle 1 s
  refine ⟨fun ht => ?_, hidle⟩
  have hs : s.busy = true := by
    by_contra hb
    rw [hidle (by simpa using hb)] at ht
    exact hb ht
  exact (tick_cases h hs).1.hidden hs ht

end Sys2Proof.Machine

/-! ## Decoding and encoding are inverse (30_encoding.md R101, R102, R113) -/

namespace Sys2Proof

/-! ### The row of a word -/

/-- The row of a word is the one whose code is in its field `OPC` (R102, R113). -/
theorem opcodeOf_eq_some_iff {w : Word} {o : Opcode} : opcodeOf w = some o ↔ fieldOPC w = o.code := by
  constructor
  · intro h
    have hcode : (o.code == fieldOPC w) = true := List.find?_some (p := fun o : Opcode => o.code == fieldOPC w) h
    exact (beq_iff_eq.1 hcode).symm
  · intro h
    rw [opcodeOf, h]
    cases o <;> rfl

/-- No row has the word's `OPC` (R106, check 1). -/
theorem opcodeOf_eq_none_iff {w : Word} :
    opcodeOf w = none ↔
      w.toNat % 256 ∉ [0x01, 0x02, 0x03, 0x10, 0x20, 0x21, 0x30, 0x40, 0x50, 0x60, 0x61, 0x7F] := by
  have hcodes : opcodeOf w = none ↔ fieldOPC w ∉ Opcode.all.map Opcode.code := by
    simp only [opcodeOf, List.find?_eq_none, beq_iff_eq, List.mem_map, not_exists, not_and]
  exact hcodes

@[simp] theorem opcode_instr (o : Opcode) (w : Word) : (o.instr w).opcode = o := by cases o <;> rfl

/-- A word that agrees with `match` under `mask` has the row's opcode: every mask keeps `OPC` whole (R102). -/
theorem fieldOPC_of_match {w : Word} {o : Opcode} (h : w &&& o.mask = o.pattern) : fieldOPC w = o.code := by
  have hmask : o.mask &&& 0xFF = 0xFF := by cases o <;> rfl
  have hcode : o.pattern.toNat % 2 ^ 8 = o.code := by cases o <;> rfl
  have hlow : w &&& 0xFF = o.pattern &&& 0xFF := by rw [← h, BitVec.and_assoc, hmask]
  have hnat := congrArg BitVec.toNat hlow
  simp only [BitVec.toNat_and] at hnat
  have h255 : (0xFF : Word).toNat = 2 ^ 8 - 1 := rfl
  rw [h255, Nat.and_two_pow_sub_one_eq_mod, Nat.and_two_pow_sub_one_eq_mod, hcode] at hnat
  exact hnat

/-- A word is a command exactly when it agrees with `match` of the command's row under `mask`, and its fields are
the command's registers (R102). -/
theorem decode_eq_ok_iff {w : Word} {i : Instr} :
    decode w = .ok i ↔ w &&& i.opcode.mask = i.opcode.pattern ∧ i.opcode.instr w = i := by
  constructor
  · intro h
    unfold decode at h
    split at h
    · cases h
    · next o _ =>
      split at h
      · next hmatch =>
        cases h
        simpa using hmatch
      · cases h
  · rintro ⟨hmatch, hinstr⟩
    have hrow := opcodeOf_eq_some_iff.2 (fieldOPC_of_match hmatch)
    simp [decode, hrow, hmatch, hinstr]

/-- A register field, as R101 places it. -/
theorem fieldReg_eq_iff {w : Word} {lo : Nat} {r : Reg} : fieldReg w lo = r ↔ w.toNat / 2 ^ lo % 8 = r.val := by
  simp [fieldReg, Fin.ext_iff, Fin.ofNat]

/-! ### A word is the word of its command -/

/-- The bits of a register field, alone (R101). -/
theorem field_word (w : Word) (lo : Nat) :
    BitVec.ofNat 32 (2 ^ lo * (fieldReg w lo).val) = w &&& BitVec.ofNat 32 (2 ^ lo * 7) := by
  apply BitVec.eq_of_getLsbD_eq
  intro i hi
  simp only [BitVec.getLsbD_and, BitVec.getLsbD_ofNat, hi, decide_true, Bool.true_and, Nat.testBit_two_pow_mul]
  by_cases hle : lo ≤ i
  · have h7 : Nat.testBit 7 (i - lo) = decide (i - lo < 3) := Nat.testBit_two_pow_sub_one 3 _
    have hfield : (fieldReg w lo).val = w.toNat / 2 ^ lo % 2 ^ 3 := rfl
    rw [h7, hfield, Nat.testBit_mod_two_pow, Nat.testBit_div_two_pow, Nat.sub_add_cancel hle, BitVec.testBit_toNat]
    simp [hle, Bool.and_comm]
  · simp [hle]

/-- A word of a row whose fields are those of another is the word itself: mask and fields cover all bits (R101,
R102). -/
theorem encodeFields_eq_of_match {w : Word} {o : Opcode} {d a b m : Reg} (h : w &&& o.mask = o.pattern)
    (hd : BitVec.ofNat 32 (2 ^ 8 * d.val) = w &&& 0x700) (ha : BitVec.ofNat 32 (2 ^ 12 * a.val) = w &&& 0x7000)
    (hb : BitVec.ofNat 32 (2 ^ 16 * b.val) = w &&& 0x70000) (hm : BitVec.ofNat 32 (2 ^ 20 * m.val) = w &&& 0x700000) :
    encodeFields o d a b m = w := by
  have hcover : o.mask ||| 0x700 ||| 0x7000 ||| 0x70000 ||| 0x700000 = BitVec.allOnes 32 := by cases o <;> rfl
  rw [encodeFields_or, ← h, hd, ha, hb, hm]
  simp only [← BitVec.and_or_distrib_left, hcover, BitVec.and_allOnes]

/-- A field that the row's mask covers is 0 (R101). -/
theorem unused_field {w f : Word} {o : Opcode} (h : w &&& o.mask = o.pattern) (hf : o.mask &&& f = f)
    (hp : o.pattern &&& f = 0) : 0 = w &&& f := by
  rw [← hf, ← BitVec.and_assoc, h, hp]

/-- Encoding the command of a word that agrees with its row gives the word back (R101, R102). -/
theorem encode_instr {w : Word} {o : Opcode} (h : w &&& o.mask = o.pattern) : encode (o.instr w) = w := by
  have rd := field_word w 8
  have ra := field_word w 12
  have rb := field_word w 16
  have rm := field_word w 20
  cases o with
  | montmul => exact encodeFields_eq_of_match h rd ra rb rm
  | tomont => exact encodeFields_eq_of_match h rd ra (unused_field h rfl rfl) rm
  | frommont => exact encodeFields_eq_of_match h rd ra (unused_field h rfl rfl) rm
  | modexp => exact encodeFields_eq_of_match h rd ra rb rm
  | gcd => exact encodeFields_eq_of_match h rd ra rb (unused_field h rfl rfl)
  | modinv => exact encodeFields_eq_of_match h rd ra (unused_field h rfl rfl) rm
  | mrtest =>
    exact encodeFields_eq_of_match h (unused_field h rfl rfl) ra (unused_field h rfl rfl) (unused_field h rfl rfl)
  | genprime =>
    exact encodeFields_eq_of_match h rd (unused_field h rfl rfl) (unused_field h rfl rfl) (unused_field h rfl rfl)
  | genkey => exact encodeFields_eq_of_match h rd (unused_field h rfl rfl) rb rm
  | encrypt => exact encodeFields_eq_of_match h rd ra rb rm
  | decrypt => exact encodeFields_eq_of_match h rd ra rb rm
  | zeroize =>
    exact encodeFields_eq_of_match h (unused_field h rfl rfl) (unused_field h rfl rfl) (unused_field h rfl rfl)
      (unused_field h rfl rfl)

/-- Only the word of a command decodes to it (R101, R102, R113). -/
theorem decode_eq_ok_iff_encode {w : Word} {i : Instr} : decode w = .ok i ↔ encode i = w := by
  constructor
  · intro h
    obtain ⟨hmatch, hinstr⟩ := decode_eq_ok_iff.1 h
    rw [← hinstr]
    exact encode_instr hmatch
  · rintro rfl
    exact decode_encode i

/-- The words of two commands differ. -/
theorem encode_injective : Function.Injective encode := fun i _ h =>
  Except.ok.inj ((decode_encode i).symm.trans (decode_eq_ok_iff_encode.2 h.symm))

end Sys2Proof

namespace Sys2Proof.Machine

/-- Settles O2: the word of a command is in the command's own row, and each field reads back. -/
theorem decodeEncode : Obligations.DecodeEncode := decode_encode

/-- Settles O3, row by row: `decode_eq_ok_iff` with the row's mask, match and fields. -/
theorem maskAndMatch : Obligations.MaskAndMatch := by
  unfold Obligations.MaskAndMatch
  intro w d a b m
  have hall : w &&& 4294967295#32 = w := BitVec.and_allOnes -- ZEROIZE has no field: its mask is every bit
  refine ⟨?_, ?_, ?_, ?_, ?_, ?_, ?_, ?_, ?_, ?_, ?_, ?_⟩ <;> rw [decode_eq_ok_iff]
  all_goals
    simp [Instr.opcode, Opcode.instr, Opcode.mask, Opcode.pattern, Opcode.code, fieldRD,
      fieldRA, fieldRB, fieldRM, fieldReg_eq_iff, hall]

/-- Settles O1: each of the words is the word of its command. -/
theorem sampleWordsDecode : Obligations.SampleWordsDecode :=
  ⟨decode_encode (.montmul 3 1 2 0), decode_encode (.tomont 1 1 0), decode_encode (.modexp 3 1 2 0),
    decode_encode (.gcd 4 1 3), decode_encode (.modinv 4 1 3), decode_encode (.mrtest 1), decode_encode (.genprime 2),
    decode_encode (.genkey 2 1 0), decode_encode (.encrypt 3 4 1 0), decode_encode (.decrypt 5 3 2 0),
    decode_encode .zeroize⟩

/-! ### The decode checks, by what the decoder answers (R106) -/

/-- A word passes the checks exactly when it decodes to a well-formed command. -/
theorem decodeChecks_eq_ok_iff {w : Word} {i : Instr} :
    decodeChecks w = .ok i ↔ decode w = .ok i ∧ i.wellFormed = true := by
  cases hd : decode w with
  | error x => cases x <;> simp [decodeChecks, hd]
  | ok j =>
    by_cases hji : j = i
    · subst hji
      cases hw : j.wellFormed <;> simp [decodeChecks, hd, hw]
    · cases hw : j.wellFormed <;> simp [decodeChecks, hd, hw, hji]

/-- Which check a word fails. -/
theorem decodeChecks_eq_error_iff {w : Word} {e : Err} : decodeChecks w = .error e ↔
    (decode w = .error .unknownOpcode ∧ .unknownOpcode = e) ∨ (decode w = .error .reservedBits ∧ .reservedBits = e) ∨
      ((∃ i, decode w = .ok i ∧ i.wellFormed = false) ∧ .destOverlap = e) := by
  cases hd : decode w with
  | error x => cases x <;> simp [decodeChecks, hd]
  | ok i => cases hw : i.wellFormed <;> simp [decodeChecks, hd, hw]

/-- The decoder answers `UNKNOWN_OPCODE` exactly when no row has the word's `OPC` (R106, check 1). -/
theorem decode_eq_unknown_iff {w : Word} : decode w = .error .unknownOpcode ↔ opcodeOf w = none := by
  unfold decode
  split
  · next h => simp [h]
  · next o h => split <;> simp [h]

/-- Only a GENKEY with coinciding destinations fails the third check (R106). -/
theorem wellFormed_eq_false_iff {i : Instr} :
    i.wellFormed = false ↔ ∃ d b m, i = .genkey d b m ∧ ¬(d ≠ b ∧ d ≠ m ∧ b ≠ m) := by
  rw [← Bool.not_eq_true, wellFormed_iff]
  cases i <;> simp [Instr.WellFormed]

/-- Settles O5: each error of the checks by what the decoder answers, and that by the row of the word. -/
theorem decodeErrorsExact : Obligations.DecodeErrorsExact := by
  unfold Obligations.DecodeErrorsExact
  intro w
  have hcode := (decode_eq_unknown_iff (w := w)).trans opcodeOf_eq_none_iff
  simp only [decodeChecks_eq_error_iff]
  refine ⟨?_, ?_, ?_⟩
  · rw [← hcode]
    simp
  · rw [← hcode.not_left]
    rcases hd : decode w with (_ | _) | i <;> simp
  · constructor
    · intro h
      obtain ⟨i, hd, hw⟩ : ∃ i, decode w = .ok i ∧ i.wellFormed = false := by simpa using h
      obtain ⟨d, b, m, rfl, hne⟩ := wellFormed_eq_false_iff.1 hw
      exact ⟨d, b, m, hd, hne⟩
    · rintro ⟨d, b, m, hd, hne⟩
      have hi := wellFormed_eq_false_iff.2 ⟨d, b, m, rfl, hne⟩
      simpa using ⟨_, hd, hi⟩

/-! ### How many commands there are -/

/-- Three and four register fields of a word. -/
abbrev Reg3 := Reg × Reg × Reg
abbrev Reg4 := Reg × Reg × Reg × Reg

/-- The choices of destinations that GENKEY allows (R106, check 3). -/
abbrev Distinct3 := { k : Reg3 // k.1 ≠ k.2.1 ∧ k.1 ≠ k.2.2 ∧ k.2.1 ≠ k.2.2 }

/-- The well-formed commands, row by row of R102, as choices of their register fields: four rows of four fields, four
of three, GENKEY, two of one, and ZEROIZE. -/
def fieldChoices : { i : Instr // i.wellFormed = true } ≃
    (Reg4 ⊕ Reg4 ⊕ Reg4 ⊕ Reg4) ⊕ (Reg3 ⊕ Reg3 ⊕ Reg3 ⊕ Reg3) ⊕ Distinct3 ⊕ (Reg ⊕ Reg) ⊕ Unit where
  toFun
    | ⟨.montmul d a b m, _⟩ => .inl (.inl (d, a, b, m))
    | ⟨.modexp d a b m, _⟩ => .inl (.inr (.inl (d, a, b, m)))
    | ⟨.encrypt d a b m, _⟩ => .inl (.inr (.inr (.inl (d, a, b, m))))
    | ⟨.decrypt d a b m, _⟩ => .inl (.inr (.inr (.inr (d, a, b, m))))
    | ⟨.tomont d a m, _⟩ => .inr (.inl (.inl (d, a, m)))
    | ⟨.frommont d a m, _⟩ => .inr (.inl (.inr (.inl (d, a, m))))
    | ⟨.gcd d a b, _⟩ => .inr (.inl (.inr (.inr (.inl (d, a, b)))))
    | ⟨.modinv d a m, _⟩ => .inr (.inl (.inr (.inr (.inr (d, a, m)))))
    | ⟨.genkey d b m, hw⟩ => .inr (.inr (.inl ⟨(d, b, m), (wellFormed_iff (.genkey d b m)).1 hw⟩))
    | ⟨.mrtest a, _⟩ => .inr (.inr (.inr (.inl (.inl a))))
    | ⟨.genprime d, _⟩ => .inr (.inr (.inr (.inl (.inr d))))
    | ⟨.zeroize, _⟩ => .inr (.inr (.inr (.inr ())))
  invFun
    | .inl (.inl (d, a, b, m)) => ⟨.montmul d a b m, rfl⟩
    | .inl (.inr (.inl (d, a, b, m))) => ⟨.modexp d a b m, rfl⟩
    | .inl (.inr (.inr (.inl (d, a, b, m)))) => ⟨.encrypt d a b m, rfl⟩
    | .inl (.inr (.inr (.inr (d, a, b, m)))) => ⟨.decrypt d a b m, rfl⟩
    | .inr (.inl (.inl (d, a, m))) => ⟨.tomont d a m, rfl⟩
    | .inr (.inl (.inr (.inl (d, a, m)))) => ⟨.frommont d a m, rfl⟩
    | .inr (.inl (.inr (.inr (.inl (d, a, b))))) => ⟨.gcd d a b, rfl⟩
    | .inr (.inl (.inr (.inr (.inr (d, a, m))))) => ⟨.modinv d a m, rfl⟩
    | .inr (.inr (.inl ⟨(d, b, m), hne⟩)) => ⟨.genkey d b m, (wellFormed_iff (.genkey d b m)).2 hne⟩
    | .inr (.inr (.inr (.inl (.inl a)))) => ⟨.mrtest a, rfl⟩
    | .inr (.inr (.inr (.inl (.inr d)))) => ⟨.genprime d, rfl⟩
    | .inr (.inr (.inr (.inr ()))) => ⟨.zeroize, rfl⟩
  left_inv := by rintro ⟨i, hw⟩; cases i <;> rfl
  right_inv := by
    rintro ((k | k | k | k) | (k | k | k | k) | k | (r | r) | _) <;> rfl

/-- GENKEY has `8 * 7 * 6` choices of pairwise different destinations: whatever `RD` is, 42 are left for the others. -/
theorem card_distinct3 : Fintype.card Distinct3 = 336 := by
  have hrest : ∀ d : Reg, (Finset.univ.filter fun k : Reg × Reg => d ≠ k.1 ∧ d ≠ k.2 ∧ k.1 ≠ k.2).card = 42 := by
    decide
  simp only [Finset.card_filter] at hrest
  simp only [Fintype.card_subtype, Finset.card_filter, Fintype.sum_prod_type (α₁ := Reg) (α₂ := Reg × Reg), hrest,
    Finset.sum_const, Finset.card_univ, Fintype.card_fin, smul_eq_mul]

/-- The number of well-formed commands. -/
theorem ncard_wellFormed : {i : Instr | i.wellFormed = true}.ncard = 18785 := by
  have hcard : Nat.card { i : Instr // i.wellFormed = true } = 18785 := by
    rw [Nat.card_congr fieldChoices, Nat.card_eq_fintype_card]
    simp only [Fintype.card_sum, Fintype.card_prod, Fintype.card_fin, Fintype.card_unit, card_distinct3]
  exact hcard

/-- The words that pass the decode checks are the words of the well-formed commands (R106). -/
theorem commandOf_eq_some_iff {w : Word} {i : Instr} : commandOf w = some i ↔ i.wellFormed = true ∧ encode i = w := by
  have hchecks : commandOf w = some i ↔ decodeChecks w = .ok i := by
    unfold commandOf
    split
    · next hd => simp [hd]
    · next hd => simp [hd]
  rw [hchecks, decodeChecks_eq_ok_iff, decode_eq_ok_iff_encode, and_comm]

/-- Settles O4: the words counted are those of the well-formed commands, each of one command only. -/
theorem countOfCommands : Obligations.CountOfCommands := by
  unfold Obligations.CountOfCommands
  have hset : {w : Word | ∃ i, commandOf w = some i} = encode '' {i : Instr | i.wellFormed = true} := by
    ext w
    exact exists_congr fun i => commandOf_eq_some_iff
  rw [hset, Set.ncard_image_of_injective _ encode_injective, ncard_wellFormed]

/-! ### Words that are no command -/

/-- Nothing but `STATUS` changes when a word fails its decode checks (R104, R106, R304). -/
theorem State.reject_failed (s : State) (w : Word) (e : Err) : Failed s ((s.accept w).completeErr none e) e where
  completed := s.reject_completed w e
  big := rfl
  specials := ⟨rfl, rfl, rfl, rfl⟩

/-- A command that fails its overlap check completes with `DEST_OVERLAP` (R106). -/
theorem exec_overlap {i : Instr} {s : State} (hb : s.busy = false) (hw : i.wellFormed = false) :
    exec i s = .next ((s.accept (encode i)).completeErr none .destOverlap) := by
  obtain ⟨body, hrun, -⟩ := exec_cases i s
  exact hrun.trans (runCommand_overlap hb hw)

/-- The command level completes a word that fails a decode check at once (R104, R106). -/
theorem runWord_of_decodeChecks_error {s : State} {w : Word} {e : Err} (hb : s.busy = false)
    (h : decodeChecks w = .error e) : runWord w s = .next ((s.accept w).completeErr none e) := by
  rcases decodeChecks_eq_error_iff.1 h with ⟨hd, rfl⟩ | ⟨hd, rfl⟩ | ⟨⟨i, hd, hw⟩, rfl⟩
  · simp [runWord, rejectWord, hd, hb]
  · simp [runWord, rejectWord, hd, hb]
  · rw [runWord_of_decode hd, ← decode_eq_ok_iff_encode.1 hd]
    exact exec_overlap hb hw

/-- Settles O6: the command level completes the word at once, and the sequencer out of `FAIL` with the same state. -/
theorem illegalWordCompletes : Obligations.IllegalWordCompletes := by
  unfold Obligations.IllegalWordCompletes
  intro s w rest e hb hd
  have hrun : runWord w (s.taken rest) = .next (((s.taken rest).accept w).completeErr none e) :=
    runWord_of_decodeChecks_error (s := s.taken rest) hb hd
  have hfail := (s.taken rest).reject_failed w e
  refine ⟨fun hh => ⟨_, (step_event hh).trans hrun, hfail⟩, fun hh => ?_⟩
  have hissue : step s = .next ((s.taken rest).issue w) := by
    rw [step_write hh (by omega) rfl, memWrite_cmd (s := s.taken rest) hb]
  refine ⟨_, hissue, ?_⟩
  rw [issue_error_tick hd, issue_error hd]
  exact ⟨rfl, rfl, rfl, rfl, rfl, hfail, hrun⟩

/-! ### The errors of GENKEY before any draw -/

/-- A GENKEY whose computation reports an error before its first draw leaves no key. -/
theorem runCommand_noKey {d b m : Reg} {body : State → Gen Commit} {s : State} {e : Err} (hb : s.busy = false)
    (hw : (Instr.genkey d b m).wellFormed = true)
    (hbody : body (s.accepted (.genkey d b m)) = .err e (s.accepted (.genkey d b m)).draws) :
    ∃ t, runCommand (.genkey d b m) body s = .next t ∧ NoKey s t e 0 0 := by
  refine ⟨_, runCommand_idle hb hw, ?_⟩
  rw [hbody]
  exact ⟨State.completeErr_completed e (Nat.zero_le _) rfl rfl, rfl, rfl, rfl, rfl, rfl⟩

theorem exec_genkey (d b m : Reg) (s : State) : exec (.genkey d b m) s = execGenkey d b m s := rfl

/-- GENKEY reports what its length check reports (R242). -/
theorem genkey_checkFails {d b m : Reg} {s : State} {e : Err} (hb : s.busy = false)
    (hw : (Instr.genkey d b m).wellFormed = true) (hc : checkKeyLength s.build s.minbits s.bitlen.toInt = some e) :
    ∃ t, exec (.genkey d b m) s = .next t ∧ NoKey s t e 0 0 := by
  rw [exec_genkey, execGenkey]
  refine runCommand_noKey hb hw ?_
  simp only [State.accepted_build, State.accepted_minbits, State.accepted_bitlen, hc]

/-- GENKEY reports what its first prime search reports without a draw (R223, R243). -/
theorem genkey_searchFails {d b m : Reg} {s : State} {e : Err} (hb : s.busy = false)
    (hw : (Instr.genkey d b m).wellFormed = true) (hc : checkKeyLength s.build s.minbits s.bitlen.toInt = none)
    (hs : ∀ dr, generatePrime (s.accepted (.genkey d b m)) (s.bitlen.toInt / 2) dr = .err e dr) :
    ∃ t, exec (.genkey d b m) s = .next t ∧ NoKey s t e 0 0 := by
  rw [exec_genkey, execGenkey]
  refine runCommand_noKey hb hw ?_
  simp only [State.accepted_build, State.accepted_minbits, State.accepted_bitlen, hc]
  simp only [Config.keyRetryCap, keyPrimes, keptOrDrawn, hs, Gen.andThen]

/-- Settles O30: the overlap check, the length check of GENKEY, then the checks of its first prime search. -/
theorem genkeyEarlyErrors : Obligations.GenkeyEarlyErrors := by
  unfold Obligations.GenkeyEarlyErrors
  rintro d b m s ⟨-, hb⟩
  refine ⟨fun hd => ?_, fun hdb hdm hbm => ?_⟩
  · have hw : (Instr.genkey d b m).wellFormed = false :=
      wellFormed_eq_false_iff.2 ⟨d, b, m, rfl, by tauto⟩
    exact ⟨_, exec_overlap hb hw, s.reject_failed _ _⟩
  have hw : (Instr.genkey d b m).wellFormed = true := (wellFormed_iff _).2 ⟨hdb, hdm, hbm⟩
  refine ⟨fun hmin => ?_, fun hmin => ⟨fun hmax => ?_, fun hmax => ⟨fun hodd => ?_, fun heven => ?_⟩⟩⟩
  · exact genkey_checkFails hb hw (by rw [checkKeyLength, if_pos hmin])
  · exact genkey_checkFails hb hw (by rw [checkKeyLength, if_neg (by omega), if_pos hmax])
  · exact genkey_checkFails hb hw (by rw [checkKeyLength, if_neg (by omega), if_neg (by omega), if_pos hodd])
  have hc : checkKeyLength s.build s.minbits s.bitlen.toInt = none := by
    rw [checkKeyLength, if_neg (by omega), if_neg (by omega), if_neg (by omega)]
  refine ⟨fun hlow => ?_, fun hlow hcap => ?_⟩
  · refine genkey_searchFails hb hw hc fun dr => ?_
    simp only [generatePrime, checkPrimeLength, if_pos hlow]
  · refine genkey_searchFails hb hw hc fun dr => ?_
    have hp : checkPrimeLength s.build (s.bitlen.toInt / 2) = none := by
      rw [checkPrimeLength, if_neg (by omega), if_neg (by omega)]
    simp only [generatePrime, State.accepted_build, State.accepted_attemptcap, hp, hcap]
    rfl

/-! ### Destinations -/

/-- A command's commit writes no big register but the command's destinations (R103, R303). -/
theorem readG_commit_other {i : Instr} {c : Commit} {r : Reg} (s : State) (hc : CommitOf i c) (hr : ¬MayWrite r i) :
    (s.commit c).readG r = s.readG r := by
  cases i with
  | mrtest a =>
    obtain ⟨p, rfl⟩ := hc
    rfl
  | zeroize => exact absurd trivial hr
  | genkey d b m =>
    obtain ⟨n, e, x, p, q, rfl⟩ := hc
    obtain ⟨hd, hb, hm⟩ : r ≠ d ∧ r ≠ b ∧ r ≠ m := by simpa [MayWrite] using hr
    rw [State.commit, State.readG_congr (State.writeDbg_g _ p q), State.readG_writeG_other _ _ hd,
      State.readG_writeG_other _ _ hb, State.readG_writeG_other _ _ hm]
  | _ =>
    obtain ⟨v, rfl⟩ := hc
    exact State.readG_writeG_other s v hr

/-- Settles O37, by the ends a command can have: only a successful completion writes a big register. -/
theorem onlyDestinationsWritten : Obligations.OnlyDestinationsWritten := by
  unfold Obligations.OnlyDestinationsWritten
  intro i s t r ht hr
  cases hb : s.busy with
  | true =>
    obtain ⟨body, hrun, -⟩ := exec_cases i s
    rw [hrun, runCommand_busy hb] at ht
    obtain rfl := Host.Outcome.next.inj ht
    rfl
  | false =>
    rcases exec_inversion hb ht with
      ⟨-, rfl⟩ | ⟨-, c, d, n, hc, -, -, rfl⟩ | ⟨-, e, d, n, -, -, -, rfl⟩ | ⟨-, -, rfl⟩
    · rfl
    · have hg : ∀ u : State, (u.completeOk i c).readG r = (u.commit c).readG r := fun u =>
        State.readG_congr (by simp [State.completeOk]) r
      rw [hg, readG_commit_other _ hc hr]
      rfl
    · exact State.readG_congr (by simp) r
    · rfl

/-! ### LDG -/

/-- A step with a host event does not read the bus data of the last one (R71). -/
theorem steps_ignore_rdata {s : State} {ev : HostEvent} {evs : List HostEvent} (h : s.host = ev :: evs) (n : Nat) :
    steps (n + 1) s = steps (n + 1) { s with rdata := none } := by
  have hstep : step s = step { s with rdata := none } := by rw [step_event h, step_event (by exact h)]; rfl
  simp only [steps, hstep]

/-- The events of `LDG Gr, v` that are left after its first `j` limbs: `c` of them (R112). -/
def limbWrites (b : Build) (r : Reg) (v j c : Nat) : List HostEvent :=
  (List.range' j c).map fun k => .write (windowOffset b r.val k) (BitVec.ofNat 32 (limb v k))

theorem hostLDG_eq (b : Build) (r : Reg) (v : Nat) : hostLDG b r v = limbWrites b r v 0 b.limbCount := by
  rw [hostLDG, limbWrites, List.range_eq_range']

/-- The first event of them is the write of limb `j`. -/
theorem limbWrites_succ (b : Build) (r : Reg) (v j c : Nat) : limbWrites b r v j (c + 1) =
    .write (windowOffset b r.val j) (BitVec.ofNat 32 (limb v j)) :: limbWrites b r v (j + 1) c := rfl

/-- A natural is its limbs (R7). -/
theorem eq_of_limbs {x v c : Nat} (hx : x < 2 ^ (32 * c)) (hv : v < 2 ^ (32 * c))
    (h : ∀ k, k < c → limb x k = limb v k) : x = v := by
  rw [← sum_limbs x c hx, ← sum_limbs v c hv]
  congr 1
  exact List.map_congr_left fun k hk => by rw [h k (List.mem_range.1 hk)]

/-- The writes of an LDG from limb `j` on, the limbs below it loaded, load the rest and change nothing else. -/
theorem steps_limbWrites {r : Reg} {v : Nat} {rest : List HostEvent} : ∀ (c j : Nat) (s : State), Ready s →
    s.rdata = none → j + c = s.build.limbCount → (∀ k, k < j → limb (s.readG r) k = limb v k) →
    s.host = limbWrites s.build r v j c ++ rest →
    ∃ t, steps c s = some t ∧ t.Inv ∧ (∀ k, k < j + c → limb (t.readG r) k = limb v k) ∧ OthersSame s t r ∧
      t = { s with host := rest, g := t.g } := by
  intro c
  induction c with
  | zero =>
    intro j s hs _ _ hlow hh
    exact ⟨s, rfl, hs.inv, hlow, fun _ _ => rfl, by rw [← show s.host = rest from hh]⟩
  | succ c ih =>
    intro j s hs hdata hj hlow hh
    rw [limbWrites_succ, List.cons_append] at hh
    obtain ⟨u, hstep, hsame, hother, hregs, hu⟩ :=
      limbWrite s r j (BitVec.ofNat 32 (limb v j)) _ hs (by unfold Build.limbCount at hj; omega) hh
    have hlimb : (BitVec.ofNat 32 (limb v j)).toNat = limb v j := by
      rw [BitVec.toNat_ofNat, Nat.mod_eq_of_lt (limb_lt v j)]
    have hready : Ready u := ⟨stepKeepsInv s u hs.inv hstep, by rw [hu]; exact hs.idle⟩
    have hbuild : u.build = s.build := by rw [hu]
    have hlow' : ∀ k, k < j + 1 → limb (u.readG r) k = limb v k := by
      intro k hk
      by_cases hkj : k = j
      · rw [hkj, hsame, hlimb]
      · rw [hother k hkj]
        exact hlow k (by omega)
    obtain ⟨t, hsteps, hinv, hall, hregs', ht⟩ := ih (j + 1) u hready (by rw [hu]) (by rw [hbuild]; omega) hlow'
      (by rw [hbuild, hu])
    refine ⟨t, ?_, hinv, fun k hk => hall k (by omega), fun q hq => (hregs' q hq).trans (hregs q hq), ?_⟩
    · rw [steps, hstep]
      exact hsteps
    · rw [ht, hu, hdata]

/-- Settles O45: the limbs are written one by one, and a natural is its limbs. -/
theorem ldgLoads : Obligations.LdgLoads := by
  unfold Obligations.LdgLoads
  intro s r v rest hs hv hh
  have hwidth := maxBits_of_legal hs.inv.build
  obtain ⟨c, hc⟩ : ∃ c, s.build.limbCount = c + 1 := by
    obtain ⟨-, h64, -⟩ := hs.inv.build
    exact ⟨s.build.limbCount - 1, by omega⟩
  rw [hostLDG_eq] at hh
  have hready : Ready { s with rdata := none } := ⟨hs.inv.of_same rfl rfl rfl rfl rfl id rfl rfl rfl, hs.idle⟩
  obtain ⟨t, hsteps, hinv, hall, hregs, ht⟩ := steps_limbWrites (r := r) (v := v) (rest := rest) s.build.limbCount 0
    { s with rdata := none } hready rfl (Nat.zero_add _) (fun k hk => absurd hk (Nat.not_lt_zero k)) hh
  have hbig := hinv.big r
  have hbuild : t.build = s.build := by rw [ht]
  rw [hbuild, hwidth] at hbig
  rw [hwidth] at hv
  refine ⟨t, ?_, eq_of_limbs hbig hv fun k hk => hall k (by omega), hregs, ht⟩
  rw [hc, limbWrites_succ] at hh
  change steps s.build.limbCount s = _
  rw [hc, steps_ignore_rdata hh, ← hc]
  exact hsteps

end Sys2Proof.Machine

/-! ## The Montgomery commands and their operand checks (40_montgomery.md R130 to R142) -/

namespace Sys2Proof.Machine

/-! ### The blocks -/

/-- Settles O55: both are the residue below `n` that the radix takes to `a * b`. -/
theorem mulLimbwiseAgrees : Obligations.MulLimbwiseAgrees := by
  unfold Obligations.MulLimbwiseAgrees
  intro a b n h3 hodd ha hb
  obtain ⟨hlt, hmod⟩ := mulLimbwise_spec hodd ha hb
  exact ⟨mulLimbwise_eq_montMul (by omega) hodd ha hb, hlt, hmod⟩

/-- Settles O56: the Newton passes invert `n` modulo `2^32`, and each doubling doubles modulo `n`. -/
theorem precomputedValues : Obligations.PrecomputedValues := by
  unfold Obligations.PrecomputedValues
  intro n h3 hodd
  refine ⟨negInverse_mul hodd, ?_⟩
  rw [radixSquared_eq (by omega), radix, pow_two]

/-! ### The operand checks of R137 -/

theorem badModulus_iff {n : Nat} : badModulus n = true ↔ n < 3 ∨ n % 2 = 0 := by
  simp [badModulus]

theorem checkOperands_badModulus {n : Nat} (h : n < 3 ∨ n % 2 = 0) (xs : List Nat) :
    checkOperands n xs = some .badModulus := by
  rw [checkOperands, if_pos (badModulus_iff.2 h)]

/-- Behind the modulus check the outcome is that of the range check (R306). -/
theorem checkOperands_range {n : Nat} (h3 : 3 ≤ n) (hodd : n % 2 = 1) (xs : List Nat) :
    checkOperands n xs = if ∃ x ∈ xs, n ≤ x then some .operandGeModulus else none := by
  have hgood : ¬badModulus n = true := fun h => by have := badModulus_iff.1 h; omega
  simp [checkOperands, hgood]

theorem checkOperands_pass {n : Nat} (h3 : 3 ≤ n) (hodd : n % 2 = 1) {xs : List Nat} (hxs : ∀ x ∈ xs, x < n) :
    checkOperands n xs = none := by
  rw [checkOperands_range h3 hodd, if_neg]
  rintro ⟨x, hx, hge⟩
  exact absurd (hxs x hx) (Nat.not_lt.2 hge)

theorem checkOperands_operandGeModulus {n x : Nat} (h3 : 3 ≤ n) (hodd : n % 2 = 1) {xs : List Nat} (hx : x ∈ xs)
    (hge : n ≤ x) : checkOperands n xs = some .operandGeModulus := by
  rw [checkOperands_range h3 hodd, if_pos ⟨x, hx, hge⟩]

/-! ### The commands that check their operands -/

/-- In `s` the command `i` checks the modulus in `G[m]` and the operands `xs`, and answers `v` in `G[d]` when all
pass (R137, R306). -/
structure KernelCommand (i : Instr) (s : State) (d m : Reg) (xs : List Nat) (v : Nat) : Prop where
  plain : Plain i
  run : ∃ body, exec i s = runCommand i body s ∧
    body (s.accepted i) = (s.accepted i).result d (guarded (checkOperands (s.readG m) xs) v)

section
variable (d a b m : Reg) (s : State)

theorem kernel_montmul : KernelCommand (.montmul d a b m) s d m [s.readG a, s.readG b]
    (montMul (s.readG a) (s.readG b) (s.readG m)) :=
  ⟨plain_montmul d a b m, _, execMontmul.eq_def d a b m s, rfl⟩

theorem kernel_tomont : KernelCommand (.tomont d a m) s d m [s.readG a]
    (s.readG a * radix (s.readG m) % s.readG m) :=
  ⟨plain_tomont d a m, _, execTomont.eq_def d a m s, rfl⟩

theorem kernel_frommont : KernelCommand (.frommont d a m) s d m [s.readG a] (montMul (s.readG a) 1 (s.readG m)) :=
  ⟨plain_frommont d a m, _, execFrommont.eq_def d a m s, rfl⟩

theorem kernel_modexp : KernelCommand (.modexp d a b m) s d m []
    (modExp (s.readG a % s.readG m) (s.readG b) (s.readG m)) :=
  ⟨plain_modexp d a b m, _, execModexp.eq_def d a b m s, rfl⟩

theorem kernel_encrypt : KernelCommand (.encrypt d a b m) s d m [s.readG a]
    (modExp (s.readG a) (s.readG b) (s.readG m)) :=
  ⟨plain_encrypt d a b m, _, execEncrypt.eq_def d a b m s, rfl⟩

theorem kernel_decrypt : KernelCommand (.decrypt d a b m) s d m [s.readG a]
    (modExp (s.readG a) (s.readG b) (s.readG m)) :=
  ⟨plain_decrypt d a b m, _, execDecrypt.eq_def d a b m s, rfl⟩

end

section
variable {i : Instr} {s : State} {d m : Reg} {xs : List Nat} {v : Nat}

/-- With a good modulus and operands below it, a residue is delivered: it fits the register the modulus fits (R22). -/
theorem KernelCommand.delivers (h : KernelCommand i s d m xs v) (hs : Ready s) (h3 : 3 ≤ s.readG m)
    (hodd : s.readG m % 2 = 1) (hxs : ∀ x ∈ xs, x < s.readG m) (hv : v < s.readG m) :
    ∃ t, exec i s = .next t ∧ Delivered s t d v := by
  obtain ⟨body, hrun, hbody⟩ := h.run
  rw [hrun]
  rw [checkOperands_pass h3 hodd hxs] at hbody
  exact runCommand_delivers h.plain hs.idle (hv.trans (hs.inv.big m)) hbody

/-- What the checks report is what the command fails with (R46, R304). -/
theorem KernelCommand.fails {e : Err} (h : KernelCommand i s d m xs v) (hs : Ready s)
    (hc : checkOperands (s.readG m) xs = some e) : ∃ t, exec i s = .next t ∧ Failed s t e := by
  obtain ⟨body, hrun, hbody⟩ := h.run
  rw [hrun]
  rw [hc] at hbody
  exact runCommand_fails h.plain hs.idle hbody

end

/-- Settles O14, by the outcome of the checks: a bad modulus first, whatever the operands, then an operand that is
not below it. -/
theorem operandChecks : Obligations.OperandChecks := by
  unfold Obligations.OperandChecks
  intro d a b m s hs
  refine ⟨fun hbad => ?_, fun h3 hodd hge => ?_⟩
  · have hcheck := checkOperands_badModulus hbad
    simp only [List.forall_mem_cons]
    exact ⟨(kernel_montmul d a b m s).fails hs (hcheck _), (kernel_tomont d a m s).fails hs (hcheck _),
      (kernel_frommont d a m s).fails hs (hcheck _), (kernel_modexp d a b m s).fails hs (hcheck _),
      (kernel_encrypt d a b m s).fails hs (hcheck _), (kernel_decrypt d a b m s).fails hs (hcheck _),
      List.forall_mem_nil _⟩
  · have hcheck : ∀ xs, s.readG a ∈ xs → checkOperands (s.readG m) xs = some .operandGeModulus :=
      fun _ hmem => checkOperands_operandGeModulus h3 hodd hmem hge
    simp only [List.forall_mem_cons]
    exact ⟨(kernel_montmul d a b m s).fails hs (hcheck _ (by simp)),
      (kernel_montmul d b a m s).fails hs (hcheck _ (by simp)), (kernel_tomont d a m s).fails hs (hcheck _ (by simp)),
      (kernel_frommont d a m s).fails hs (hcheck _ (by simp)), (kernel_encrypt d a b m s).fails hs (hcheck _ (by simp)),
      (kernel_decrypt d a b m s).fails hs (hcheck _ (by simp)), List.forall_mem_nil _⟩

/-! ### Results -/

/-- Settles O10, by the characterisation of the Montgomery product (R131). -/
theorem montmulResult : Obligations.MontmulResult := by
  unfold Obligations.MontmulResult
  intro d a b m s hs h3 hodd ha hb
  obtain ⟨hlt, hmod⟩ := montMul_spec (a := s.readG a) (b := s.readG b) (by omega) hodd
  obtain ⟨t, ht, hdel⟩ := (kernel_montmul d a b m s).delivers hs h3 hodd (by simp [ha, hb]) hlt
  exact ⟨t, _, ht, hdel, hlt, hmod⟩

/-- Settles O11: TOMONT delivers the residue of `x * R`. -/
theorem tomontResult : Obligations.TomontResult := by
  unfold Obligations.TomontResult
  intro d a m s hs h3 hodd ha
  exact (kernel_tomont d a m s).delivers hs h3 hodd (by simp [ha]) (Nat.mod_lt _ (by omega))

/-- Settles O12: FROMMONT delivers the Montgomery product with 1. -/
theorem frommontResult : Obligations.FrommontResult := by
  unfold Obligations.FrommontResult
  intro d a m s hs h3 hodd ha
  obtain ⟨hlt, hmod⟩ := montMul_spec (a := s.readG a) (b := 1) (by omega) hodd
  obtain ⟨t, ht, hdel⟩ := (kernel_frommont d a m s).delivers hs h3 hodd (by simp [ha]) hlt
  refine ⟨t, _, ht, hdel, hlt, ?_⟩
  rw [mul_one, Nat.ModEq, Nat.mod_eq_of_lt ha] at hmod
  exact hmod

/-- A command that has delivered its result leaves the engine ready for the next one (R305). -/
theorem Delivered.ready {i : Instr} {s t : State} {d : Reg} {v : Nat} (h : Delivered s t d v) (hs : Ready s)
    (ht : exec i s = .next t) : Ready t :=
  ⟨hs.inv.exec ht, h.completed.idle⟩

/-- Settles O13: the radix takes the result of FROMMONT to `x * R mod n`, as it takes `x`, and it is a unit. -/
theorem frommontUndoesTomont : Obligations.FrommontUndoesTomont := by
  unfold Obligations.FrommontUndoesTomont
  intro d a m c s hs hdm h3 hodd ha
  obtain ⟨t, ht, hto⟩ := tomontResult d a m s hs h3 hodd ha
  have hm : t.readG m = s.readG m := hto.others m hdm.symm
  have hd : t.readG d < t.readG m := by
    rw [hto.result, hm]
    exact Nat.mod_lt _ (by omega)
  obtain ⟨u, x, hu, hfrom, hlt, hmod⟩ :=
    frommontResult c d m t (hto.ready hs ht) (by rwa [hm]) (by rwa [hm]) hd
  rw [hm, hto.result] at hmod
  rw [hm] at hlt
  have hx : x ≡ s.readG a [MOD s.readG m] := modEq_of_mul_radix hodd hmod
  exact ⟨t, u, ht, hu, hfrom.result.trans (hx.eq_of_lt_of_lt hlt ha), hfrom.completed.errcode⟩

end Sys2Proof.Machine

/-! ## MODEXP and the exponentiation block (41_modexp.md R160 to R165) -/

namespace Sys2Proof.Machine

/-- Settles O57: the Montgomery scan carries the form of the plain scan, and the plain scan is the power. -/
theorem expMontgomeryAgrees : Obligations.ExpMontgomeryAgrees := by
  unfold Obligations.ExpMontgomeryAgrees
  intro b e n h3 hodd hb
  rw [expMontgomery_eq_modExp (by omega) hodd hb, modExp_eq]

theorem modExp_lt {n : Nat} (h : 0 < n) (b e : Nat) : modExp b e n < n := by
  rw [modExp_eq]
  exact Nat.mod_lt _ h

/-- The base may be reduced before the power is taken (R165). -/
theorem modExp_mod_base (x e n : Nat) : modExp (x % n) e n = x ^ e % n := by
  rw [modExp_eq, ← Nat.pow_mod]

/-- Settles O15: MODEXP checks no operand range and delivers the power of the reduced base. -/
theorem modexpResult : Obligations.ModexpResult := by
  unfold Obligations.ModexpResult
  intro d a b m s hs h3 hodd
  rw [← modExp_mod_base]
  exact (kernel_modexp d a b m s).delivers hs h3 hodd (List.forall_mem_nil _) (modExp_lt (by omega) _ _)

end Sys2Proof.Machine

/-! ## GCD and MODINV (42_modinv.md R180, R186, R187) -/

namespace Sys2Proof.Machine

/-! ### The result of MODINV (R187) -/

theorem inverseOrError_badModulus {x m : Nat} (h : m < 2) : inverseOrError x m = .error .badModulus := by
  rw [inverseOrError, if_pos h]

theorem inverseOrError_noInverse {x m : Nat} (h2 : 2 ≤ m) (hg : Nat.gcd x m ≠ 1) :
    inverseOrError x m = .error .noInverse := by
  rw [inverseOrError, if_neg (Nat.not_lt.2 h2), modInv_eq_none_iff.2 hg]

theorem inverseOrError_inverse {x m : Nat} (h2 : 2 ≤ m) (hg : Nat.gcd x m = 1) :
    ∃ v, inverseOrError x m = .ok v ∧ v < m ∧ x * v % m = 1 := by
  obtain ⟨v, hv⟩ := modInv_isSome hg
  refine ⟨v, ?_, modInv_spec h2 hv⟩
  rw [inverseOrError, if_neg (Nat.not_lt.2 h2), hv]

/-- An inverse modulo `m` is not 0, as `x * 0` is not 1. -/
theorem pos_of_mul_mod_eq_one {x v m : Nat} (h : x * v % m = 1) : 1 ≤ v := by
  refine Nat.pos_of_ne_zero ?_
  rintro rfl
  simp at h

/-! ### The two commands -/

theorem exec_gcd (d a b : Reg) (s : State) : exec (.gcd d a b) s =
    runCommand (.gcd d a b) (fun u => u.result d (.ok (gcdOf u.engine.opa u.engine.opb))) s :=
  execGcd.eq_def d a b s

theorem exec_modinv (d a m : Reg) (s : State) : exec (.modinv d a m) s =
    runCommand (.modinv d a m) (fun u => u.result d (inverseOrError u.engine.opa u.engine.opm)) s :=
  execModinv.eq_def d a m s

section
variable {s : State} {d a m : Reg}

/-- MODINV computes on the latched registers, so `d` may be one of them (R107). -/
theorem modinv_delivers {v : Nat} (hs : Ready s) (hr : inverseOrError (s.readG a) (s.readG m) = .ok v)
    (hv : v < s.readG m) : ∃ t, exec (.modinv d a m) s = .next t ∧ Delivered s t d v := by
  rw [exec_modinv]
  exact runCommand_delivers (plain_modinv d a m) hs.idle (hv.trans (hs.inv.big m)) (congrArg (State.result _ d) hr)

theorem modinv_fails {e : Err} (hs : Ready s) (hr : inverseOrError (s.readG a) (s.readG m) = .error e) :
    ∃ t, exec (.modinv d a m) s = .next t ∧ Failed s t e := by
  rw [exec_modinv]
  exact runCommand_fails (plain_modinv d a m) hs.idle (congrArg (State.result _ d) hr)

end

/-- A divisor of two naturals that fit a register fits it, 0 and 0 included. -/
theorem gcd_lt_of_lt {x y N : Nat} (hx : x < N) (hy : y < N) : Nat.gcd x y < N := by
  rcases Nat.eq_zero_or_pos x with rfl | hpos
  · rwa [Nat.gcd_zero_left]
  · exact (Nat.gcd_le_left y hpos).trans_lt hx

/-- Settles O20: the divisor is no larger than an operand that is not 0, so the register holds it. -/
theorem gcdResult : Obligations.GcdResult := by
  unfold Obligations.GcdResult
  intro d a b s hs
  rw [exec_gcd]
  exact runCommand_delivers (plain_gcd d a b) hs.idle (gcd_lt_of_lt (hs.inv.big a) (hs.inv.big b)) rfl

/-- Settles O21: extended Euclid finds an inverse below the modulus, and 0 is no inverse. -/
theorem modinvResult : Obligations.ModinvResult := by
  unfold Obligations.ModinvResult
  intro d a m s hs h2 hg
  rw [← Nat.gcd_rec, Nat.gcd_comm] at hg
  obtain ⟨v, hr, hlt, hinv⟩ := inverseOrError_inverse h2 hg
  obtain ⟨t, ht, hdel⟩ := modinv_delivers (d := d) hs hr hlt
  exact ⟨t, v, ht, hdel, pos_of_mul_mod_eq_one hinv, Nat.le_sub_one_of_lt hlt, hinv⟩

/-- Settles O22, by the outcome of the two checks: the modulus first, then whether there is an inverse. -/
theorem modinvErrors : Obligations.ModinvErrors := by
  unfold Obligations.ModinvErrors
  intro d a m s hs
  refine ⟨fun hbad => modinv_fails hs (inverseOrError_badModulus hbad), fun h2 hg => ?_⟩
  rw [← Nat.gcd_rec, Nat.gcd_comm] at hg
  exact modinv_fails hs (inverseOrError_noInverse h2 hg)

end Sys2Proof.Machine

/-! ## MRTEST and the strong test (43_primality.md R201 to R212) -/

namespace Sys2Proof.Machine

/-! ### The command, by the end of its test (R212) -/

section
variable {a : Reg} {s : State}

/-- The test MRTEST runs from `s`: on the latched register, with the rounds of the configuration (R107, R212). -/
def State.mrtest (s : State) (a : Reg) : Gen Bool :=
  millerRabin (s.readG a) s.rounds.toNat (s.accepted (.mrtest a)).draws

theorem exec_mrtest (hidle : s.busy = false) : exec (.mrtest a) s =
    .next ((s.accepted (.mrtest a)).finish (.mrtest a) ((s.mrtest a).andThen fun v d => .ok (.verdict v) d)) :=
  (execMrtest.eq_def a s).trans (runCommand_idle hidle rfl)

/-- A verdict is what MRTEST completes with. -/
theorem mrtest_judges {v : Bool} {d : Draws} {c : Nat} (hidle : s.busy = false) (htest : s.mrtest a = .ok v d)
    (hspent : Spent s d c) : ∃ t, exec (.mrtest a) s = .next t ∧ Judged s t v c := by
  refine ⟨_, exec_mrtest hidle, ?_⟩
  rw [htest]
  exact ⟨State.completeOk_completed (.verdict v) hspent.within hspent.words hspent.lrng, rfl, rfl, rfl, rfl, rfl⟩

/-- An error of the test is what MRTEST completes with; `PRIME` is left 0 (R304). -/
theorem mrtest_fails {e : Err} {d : Draws} {c : Nat} (hidle : s.busy = false) (htest : s.mrtest a = .err e d)
    (hspent : Spent s d c) : ∃ t, exec (.mrtest a) s = .next t ∧ Completed s t e.code e.subcode c ∧
      t.prime = false ∧ AllButPrimeSame s t := by
  refine ⟨_, exec_mrtest hidle, ?_⟩
  rw [htest]
  exact ⟨State.completeErr_completed e hspent.within hspent.words hspent.lrng, rfl, rfl, rfl, rfl, rfl⟩

end

/-- Settles O23: the test on the words of a verdict ends with it and has taken exactly them. -/
theorem mrtestVerdict : Obligations.MrtestVerdict := by
  unfold Obligations.MrtestVerdict
  intro a s ws rest v hs hverdict hrng
  have htest : s.mrtest a = .ok v ((s.accepted (.mrtest a)).draws.after ws.length) := millerRabin_of hverdict hrng
  exact mrtest_judges hs.idle htest (spent_after hrng 0)

/-! ### The bound on rejected draws (R204) -/

/-- Rounds that pass, then 128 rejected draws in a row. -/
theorem millerRabin_rejects {n rounds : Nat} {rs : List BaseDraws} {bad : List (List Word)} {d : Draws}
    {rest : List Word} (h5 : 5 ≤ n) (hodd : n % 2 = 1) (hpass : AllPass n rs) (hlt : rs.length < rounds)
    (hlen : bad.length = Config.baseRejectCap) (hbad : ∀ ws ∈ bad, RejectedDraw n ws)
    (hw : d.words = rs.flatMap BaseDraws.words ++ (bad.flatten ++ rest)) :
    millerRabin n rounds d = .err .rngReject (d.after (rs.flatMap BaseDraws.words ++ bad.flatten).length) := by
  obtain ⟨j, rfl⟩ : ∃ j, rounds = rs.length + (j + 1) := ⟨rounds - rs.length - 1, by omega⟩
  rw [millerRabin, if_neg (by omega), if_neg (by omega), if_neg (by omega),
    testRounds_pass (by omega) hodd rs (j + 1) d _ hpass hw, testRounds, ← hlen,
    drawBase_fails hbad (Draws.after_words hw), Gen.andThen, Draws.after_after, List.length_append]

/-- Settles O24: the rounds that pass and the 128 rejections are taken, and the test ends with the error. -/
theorem mrtestRngReject : Obligations.MrtestRngReject := by
  unfold Obligations.MrtestRngReject
  intro a s rs bad rest hs h5 hodd hpass hlt hlen hbad hrng
  exact mrtest_fails hs.idle
    (millerRabin_rejects h5 hodd hpass hlt hlen hbad (hrng.trans (List.append_assoc ..))) (spent_after hrng 0)

/-! ### Odd primes (R207) -/

/-- Where 1 has no square roots but 1 and -1, the repeated squares of `x` reach 1 only through -1. -/
theorem eq_one_or_exists_eq_neg_one {R : Type*} [Ring R] [NoZeroDivisors R] {x : R} :
    ∀ {S : Nat}, x ^ 2 ^ S = 1 → x = 1 ∨ ∃ j, j < S ∧ x ^ 2 ^ j = -1
  | 0, h => .inl (by simpa using h)
  | S + 1, h => by
    rw [pow_succ, pow_mul, sq_eq_one_iff] at h
    rcases h with hone | hneg
    · exact (eq_one_or_exists_eq_neg_one hone).imp_right fun ⟨j, hj, hx⟩ => ⟨j, by omega, hx⟩
    · exact .inr ⟨S, by omega, hneg⟩

/-- Every base that a prime does not divide passes: by Fermat `a^(2^S * D)` is 1. -/
theorem strongPasses_of_prime {p a : Nat} (hp : p.Prime) (ha : ¬p ∣ a) : StrongPasses p a := by
  have : Fact p.Prime := ⟨hp⟩
  obtain ⟨hsplit, hD⟩ := decompose_spec hp.two_le
  have hne : (a : ZMod p) ≠ 0 := by rwa [Ne, ZMod.natCast_eq_zero_iff]
  have hfermat : ((a : ZMod p) ^ decomposeD p) ^ 2 ^ decomposeS p = 1 := by
    rw [← pow_mul, mul_comm, ← hsplit, ZMod.pow_card_sub_one_eq_one hne]
  refine ⟨_, _, hsplit, hD, ?_⟩
  refine (eq_one_or_exists_eq_neg_one hfermat).imp (fun hone => ?_) fun ⟨j, hj, hneg⟩ => ⟨j, hj, ?_⟩
  · rw [← Nat.mod_eq_of_lt hp.one_lt, ← ZMod.natCast_eq_natCast_iff']
    simpa using hone
  · rw [← Nat.mod_eq_of_lt (Nat.sub_lt hp.pos one_pos), ← ZMod.natCast_eq_natCast_iff', Nat.cast_pred hp.pos,
      ZMod.natCast_self, zero_sub, mul_comm, pow_mul]
    exact_mod_cast hneg

section
variable {p : Nat}

/-- Every base the tester may draw for a prime is one the prime does not divide, so no round fails. -/
theorem testRounds_of_prime (hp : p.Prime) (hodd : p % 2 = 1) : ∀ (r : Nat) (d : Draws),
    (testRounds p r d).Within d (r * roundWords p) (fun v => v = true) (fun e => e = .rngReject)
  | 0, d => .pure rfl
  | r + 1, d => by
    rw [testRounds, Nat.succ_mul, Nat.add_comm]
    refine (drawBase_within p _ d).andThen fun a d' ⟨h2, hle⟩ => ?_
    have hpass : StrongPasses p a := strongPasses_of_prime hp (Nat.not_dvd_of_pos_of_lt (by omega) (by omega))
    rw [if_pos ((roundPasses_iff (by omega) hodd).2 hpass)]
    exact testRounds_of_prime hp hodd r d'

/-- For an odd prime the tester's only verdict is "prime" and its only error RNG_REJECT. -/
theorem millerRabin_of_prime (hp : p.Prime) (h2 : p ≠ 2) (r : Nat) (d : Draws) :
    (millerRabin p r d).Within d (r * roundWords p) (fun v => v = true) (fun e => e = .rngReject) := by
  have hodd : p % 2 = 1 := hp.eq_two_or_odd.resolve_left h2
  rw [millerRabin, if_neg (Nat.not_lt.2 hp.two_le), if_neg (by omega)]
  split
  · exact .pure rfl
  · exact testRounds_of_prime hp hodd r d

end

/-- Settles O25, by the three ends of the test: the verdict "prime", the error RNG_REJECT, or a silent port, on
which MRTEST has not completed. -/
theorem mrtestNoFalseNegative : Obligations.MrtestNoFalseNegative := by
  unfold Obligations.MrtestNoFalseNegative
  intro a s t hs hp h2 ht hdone
  have hend : (s.mrtest a).Within _ _ _ _ := millerRabin_of_prime hp h2 _ _
  rw [exec_mrtest hs.idle] at ht
  cases htest : s.mrtest a with
  | ok v d =>
    rw [htest] at ht hend
    cases ht
    exact .inl ⟨rfl, hend.1⟩
  | err e d =>
    rw [htest] at ht hend
    cases ht
    obtain rfl : e = .rngReject := hend.1
    exact .inr ⟨rfl, rfl⟩
  | silent =>
    rw [htest] at ht
    cases ht
    exact absurd ((State.accepted_busy s (.mrtest a)).symm.trans hdone) (by decide)

end Sys2Proof.Machine

/-! ## GENPRIME and the prime generator (44_primegen.md R222 to R228) -/

namespace Sys2Proof.Machine

/-! ### The command, by the end of its search (R228) -/

section
variable {r : Reg} {s : State}

/-- The search GENPRIME runs from `s`: of `BITLEN` bits, with the cap and the rounds of the configuration (R228). -/
def State.genprime (s : State) (r : Reg) : Gen Nat :=
  generatePrime (s.accepted (.genprime r)) s.bitlen.toInt (s.accepted (.genprime r)).draws

theorem exec_genprime (hidle : s.busy = false) : exec (.genprime r) s =
    .next ((s.accepted (.genprime r)).finish (.genprime r) ((s.genprime r).andThen fun p d => .ok (.big r p) d)) :=
  (execGenprime.eq_def r s).trans (runCommand_idle hidle rfl)

/-- A prime that fits the register is what GENPRIME completes with. -/
theorem genprime_generates {v att c : Nat} {d : Draws} (hidle : s.busy = false) (hsearch : s.genprime r = .ok v d)
    (hfits : v < 2 ^ s.build.maxBits) (hatt : d.latt = BitVec.ofNat 32 att) (hspent : Spent s d c) :
    ∃ t, exec (.genprime r) s = .next t ∧ Generated s t r v att c := by
  refine ⟨_, exec_genprime hidle, ?_⟩
  rw [hsearch]
  exact ⟨State.completeOk_completed (.big r v) hspent.within hspent.words hspent.lrng,
    State.readG_writeG_fits _ r v hfits, fun _ hq => State.readG_writeG_other _ v hq, hatt, rfl, rfl, rfl⟩

/-- An error of the search is what GENPRIME completes with; no register is written but `ATTEMPTS` (R304). -/
theorem genprime_fails {e : Err} {att c : Nat} {d : Draws} (hidle : s.busy = false) (hsearch : s.genprime r = .err e d)
    (hatt : d.latt = BitVec.ofNat 32 att) (hspent : Spent s d c) :
    ∃ t, exec (.genprime r) s = .next t ∧ NotGenerated s t e att c := by
  refine ⟨_, exec_genprime hidle, ?_⟩
  rw [hsearch]
  exact ⟨State.completeErr_completed e hspent.within hspent.words hspent.lrng, rfl, hatt, rfl, rfl, rfl⟩

end

/-! ### The ends of the search (R223, R224) -/

/-- A length that fails its check ends the search before any draw (R223). -/
theorem generatePrime_checkFails {u : State} {k : Int} {e : Err} (h : checkPrimeLength u.build k = some e) (d : Draws) :
    generatePrime u k d = .err e d := by
  rw [generatePrime, h]

/-- A length that passes its check leaves the search to its loop (R223). -/
theorem generatePrime_eq_primeSearch {u : State} {k : Nat} (h2 : 2 ≤ k) (hk : k ≤ u.build.maxBits) (d : Draws) :
    generatePrime u k d = primeSearch k u.rounds.toNat u.attemptcap.toNat d := by
  have hpass : checkPrimeLength u.build k = none := by
    rw [checkPrimeLength, if_neg (by omega), if_neg (by omega)]
  rw [generatePrime, hpass, Int.toNat_natCast]

/-- As many rejected candidates as the cap allows end the search; it draws nothing after them (R224). -/
theorem generatePrime_exhausted {u : State} {k : Nat} {fails : List Attempt} {d : Draws} {rest : List Word}
    (h2 : 2 ≤ k) (hk : k ≤ u.build.maxBits) (hcap : fails.length = u.attemptcap.toNat)
    (hfails : ∀ a ∈ fails, a.Ends k u.rounds.toNat false) (hw : d.words = fails.flatMap Attempt.words ++ rest) :
    generatePrime u k d = .err .exhausted
      { d.after (fails.flatMap Attempt.words).length with latt := d.latt + BitVec.ofNat 32 fails.length } := by
  rw [generatePrime_eq_primeSearch h2 hk, ← hcap]
  exact search_fails fails 0 d rest hfails hw

/-! ### The ends of the command -/

/-- Settles O26: the search returns the candidate, whose bit length is that of the draw, so a register holds it. -/
theorem genprimeFinds : Obligations.GenprimeFinds := by
  unfold Obligations.GenprimeFinds
  intro d s k fails found rest hs hlen h2 hk hfound hrng
  obtain ⟨hodd, hge, hlt⟩ := value_spec h2 found
  refine ⟨?_, hodd, hge, hlt⟩
  have hsearch := generatePrime_finds (u := s.accepted (.genprime d)) (d := (s.accepted (.genprime d)).draws)
    h2 hk hfound hrng
  rw [← hlen] at hsearch
  exact genprime_generates hs.idle hsearch (hlt.trans_le (Nat.pow_le_pow_right two_pos hk)) (BitVec.zero_add _)
    (spent_after hrng _)

/-- Settles O27: the search ends with the error once the failed attempts have used up the cap. -/
theorem genprimeExhausted : Obligations.GenprimeExhausted := by
  unfold Obligations.GenprimeExhausted
  intro d s k fails rest hs hlen h2 hk hcap hfails hrng
  have hsearch := generatePrime_exhausted (u := s.accepted (.genprime d)) (d := (s.accepted (.genprime d)).draws)
    h2 hk hcap hfails hrng
  rw [← hlen] at hsearch
  exact genprime_fails hs.idle hsearch (BitVec.zero_add _) (spent_after hrng _)

/-- A length that fails its check ends GENPRIME with nothing counted and nothing drawn. -/
theorem genprime_checkFails {r : Reg} {s : State} {e : Err} (hidle : s.busy = false)
    (hcheck : checkPrimeLength s.build s.bitlen.toInt = some e) :
    ∃ t, exec (.genprime r) s = .next t ∧ NotGenerated s t e 0 0 :=
  genprime_fails hidle (generatePrime_checkFails hcheck _) rfl ⟨Nat.zero_le _, rfl, rfl⟩

/-- Settles O28, by the two checks in their order: a length above `MAXBITS`, at least 64, passes the first. -/
theorem genprimeLengthErrors : Obligations.GenprimeLengthErrors := by
  unfold Obligations.GenprimeLengthErrors
  intro d s hs
  refine ⟨fun hlow => genprime_checkFails hs.idle ?_, fun hhigh => genprime_checkFails hs.idle ?_⟩
  · rw [checkPrimeLength, if_pos hlow]
  · obtain ⟨-, h64, -⟩ := hs.inv.build
    rw [checkPrimeLength, if_neg (by omega), if_pos hhigh]

end Sys2Proof.Machine

/-! ## GENKEY and the key builder (45_keygen.md R241 to R256) -/

namespace Sys2Proof.Machine

/-! ### The two primes, on given words of the port (R243 to R247) -/

/-- The draws after `c` words, with `att` candidates counted among them (R37, R47). -/
def Draws.searched (d : Draws) (c att : Nat) : Draws := { d.after c with latt := d.latt + BitVec.ofNat 32 att }

theorem Draws.searched_searched (d : Draws) (c att c' att' : Nat) :
    (d.searched c att).searched c' att' = d.searched (c + c') (att + att') := by
  simp [Draws.searched, Draws.after, BitVec.ofNat_add, add_assoc]

theorem Draws.searched_words {d : Draws} {ws rest : List Word} (hw : d.words = ws ++ rest) (att : Nat) :
    (d.searched ws.length att).words = rest :=
  Draws.after_words hw

/-- What one pass does with the two primes it has (R244, R246). -/
theorem keyPrimes_succ {u : State} {len : Int} {j p q : Nat} {kept : Option Nat} {d d1 d2 : Draws}
    (hp : keptOrDrawn u (len / 2) kept d = .ok p d1) (hq : generatePrime u (len / 2) d1 = .ok q d2) :
    keyPrimes u len (j + 1) kept d =
      if q = p then keyPrimes u len j (some p) d2
      else if p * q < 2 ^ (len.toNat - 1) then keyPrimes u len j none d2 else .ok (p, q) d2 := by
  rw [keyPrimes, hp, Gen.andThen, hq, Gen.andThen]

/-- The words of the port make two searches of half of `BITLEN` bits, which end in primes GENKEY goes on with:
different, with a product in the window (R242 to R247). -/
structure KeySearches (s : State) (k : Nat) (fp fq : List Attempt) (p q : Attempt) (rest : List Word) : Prop where
  len : s.bitlen.toInt = 2 * k
  two_le : 2 ≤ k
  min : s.minbits.toNat ≤ 2 * k
  max : 2 * k ≤ s.build.maxBits
  first : Search k s.rounds.toNat s.attemptcap.toNat fp p
  second : Search k s.rounds.toNat s.attemptcap.toNat fq q
  ne : p.value k ≠ q.value k
  window : 2 ^ (2 * k - 1) ≤ p.value k * q.value k
  words : s.rng = searchDraws fp p ++ searchDraws fq q ++ rest

/-- GENKEY's length check passes exactly the even lengths from `MINBITS` to `MAXBITS` (R242). -/
theorem checkKeyLength_eq_none_iff {b : Build} {min : BitVec 16} {len : Int} :
    checkKeyLength b min len = none ↔ (min.toNat : Int) ≤ len ∧ len ≤ b.maxBits ∧ len % 2 = 0 := by
  unfold checkKeyLength
  split_ifs <;> simp <;> omega

/-! ### The computation of a GENKEY whose length passes -/

/-- Steps 1 to 6 of the GENKEY issued in `s`, on the configuration of `s` (R243 to R253). -/
def State.keyPair (s : State) (d b m : Reg) : Gen Commit :=
  (keyPrimes (s.accepted (.genkey d b m)) s.bitlen.toInt Config.keyRetryCap none
    (s.accepted (.genkey d b m)).draws).andThen fun pq dr => keyFromPrimes d b m s.estart.toNat pq.1 pq.2 dr

/-- Such searches are all that steps 1 and 2 draw: each ends in its prime, and no retry follows. -/
theorem KeySearches.keyPair {s : State} {k : Nat} {fp fq : List Attempt} {p q : Attempt} {rest : List Word}
    (h : KeySearches s k fp fq p q rest) (d b m : Reg) :
    s.keyPair d b m = keyFromPrimes d b m s.estart.toNat (p.value k) (q.value k)
      ((s.accepted (.genkey d b m)).draws.searched (searchDraws fp p ++ searchDraws fq q).length
        (fp.length + 1 + (fq.length + 1))) := by
  have hhalf : s.bitlen.toInt / 2 = k := by rw [h.len]; omega
  have hbits : s.bitlen.toInt.toNat = 2 * k := by rw [h.len]; omega
  have hmax : k ≤ s.build.maxBits := by have := h.max; omega
  have hwords := h.words.trans (List.append_assoc ..)
  have hfirst := generatePrime_finds (u := s.accepted (.genkey d b m))
    (d := (s.accepted (.genkey d b m)).draws) h.two_le hmax h.first hwords
  have hsecond := generatePrime_finds (u := s.accepted (.genkey d b m)) h.two_le hmax h.second
    (Draws.searched_words (d := (s.accepted (.genkey d b m)).draws) hwords (fp.length + 1))
  rw [← hhalf] at hfirst hsecond
  rw [State.keyPair, Config.keyRetryCap, keyPrimes_succ (kept := none) hfirst hsecond, if_neg h.ne.symm, hbits,
    if_neg (Nat.not_lt.2 h.window), Gen.andThen, List.length_append, ← Draws.searched_searched]
  rfl

section
variable {d b m : Reg} {s : State}

/-- An idle engine whose lengths pass runs the computation (R241, R242). -/
theorem exec_genkey_of_length (hidle : s.busy = false) (hw : (Instr.genkey d b m).WellFormed)
    (hlen : checkKeyLength s.build s.minbits s.bitlen.toInt = none) : exec (.genkey d b m) s =
      .next ((s.accepted (.genkey d b m)).finish (.genkey d b m) (s.keyPair d b m)) := by
  rw [exec_genkey, execGenkey, runCommand_idle hidle ((wellFormed_iff _).2 hw)]
  simp only [State.accepted_build, State.accepted_minbits, State.accepted_bitlen, hlen]
  rfl

/-- An error of the computation is what GENKEY completes with (R304). -/
theorem genkey_fails {e : Err} {dr : Draws} {att c : Nat} (hidle : s.busy = false)
    (hw : (Instr.genkey d b m).WellFormed) (hlen : checkKeyLength s.build s.minbits s.bitlen.toInt = none)
    (hpair : s.keyPair d b m = .err e dr) (hatt : dr.latt = BitVec.ofNat 32 att) (hspent : Spent s dr c) :
    ∃ t, exec (.genkey d b m) s = .next t ∧ NoKey s t e att c := by
  refine ⟨_, exec_genkey_of_length hidle hw hlen, ?_⟩
  rw [hpair]
  exact ⟨State.completeErr_completed e hspent.within hspent.words hspent.lrng, rfl, hatt, rfl, rfl, rfl⟩

end

/-! ### The exponents (R248 to R251) -/

/-- `e` is the public exponent of `p` and `q`, the `i`-th from `start`, and `x` its inverse (R249, R251). -/
structure Exponents (start p q i e x : Nat) : Prop where
  first : FirstExponent start ((p - 1) * (q - 1)) i e
  pos : 1 ≤ x
  lt : x < (p - 1) * (q - 1)
  inverse : e * x % ((p - 1) * (q - 1)) = 1

/-- An exponent that is found has an inverse, and the key is made of them (R251, R253). -/
theorem keyFromPrimes_of_first {start p q i e : Nat} (h : FirstExponent start ((p - 1) * (q - 1)) i e)
    (d b m : Reg) (dr : Draws) : ∃ x, Exponents start p q i e x ∧
      keyFromPrimes d b m start p q dr = .ok (.key d b m (p * q) e x p q) dr := by
  obtain ⟨x, hx⟩ := modInv_isSome h.coprime
  obtain ⟨hlt, hinv⟩ := modInv_spec (by have := h.above; have := h.below; omega) hx
  exact ⟨x, ⟨h, pos_of_mul_mod_eq_one hinv, hlt, hinv⟩, keyFromPrimes_key (findE_iff.2 ⟨i, h⟩) hx⟩

/-- All four numbers of a key are below its modulus, so they fit where the modulus does. -/
theorem Exponents.lt_mul {start p q i e x : Nat} (h : Exponents start p q i e x) :
    p < p * q ∧ q < p * q ∧ e < p * q ∧ x < p * q := by
  have hphi : 0 < (p - 1) * (q - 1) := (Nat.zero_le x).trans_lt h.lt
  have hp : 0 < p - 1 := Nat.pos_of_mul_pos_right hphi
  have hq : 0 < q - 1 := Nat.pos_of_mul_pos_left hphi
  have hle : (p - 1) * (q - 1) ≤ p * q := Nat.mul_le_mul (Nat.sub_le ..) (Nat.sub_le ..)
  exact ⟨lt_mul_of_one_lt_right (by omega) (by omega), lt_mul_of_one_lt_left (by omega) (by omega),
    h.first.below.trans_le hle, h.lt.trans_le hle⟩

/-! ### The registers of a key (R253, R303) -/

theorem State.writeDbg_dbgp_fits (s : State) {p : Nat} (q : Nat) (hp : p < 2 ^ s.build.maxBits) :
    (s.writeDbg p q).dbgp = if s.build.dbgPrimes then p else 0 := by
  rw [State.writeDbg, Nat.mod_eq_of_lt hp]
  split <;> rfl

theorem State.writeDbg_dbgq_fits (s : State) (p : Nat) {q : Nat} (hq : q < 2 ^ s.build.maxBits) :
    (s.writeDbg p q).dbgq = if s.build.dbgPrimes then q else 0 := by
  rw [State.writeDbg, Nat.mod_eq_of_lt hq]
  split <;> rfl

section
variable {d b m : Reg} {s : State} {start p q i e x : Nat}

/-- The register file after the three writes of a key (R253). -/
theorem State.completeOk_key_readG (u : State) (i : Instr) (n : Nat) (r : Reg) :
    (u.completeOk i (.key d b m n e x p q)).readG r = (((u.writeG m n).writeG b e).writeG d x).readG r :=
  State.readG_congr (by
    rw [State.completeOk, State.complete_g, State.countAttempts_g, State.commit, State.writeDbg_g]) r

@[simp] theorem State.completeOk_genkey_attempts (u : State) (c : Commit) :
    (u.completeOk (.genkey d b m) c).attempts = u.engine.latt := by
  simp [State.completeOk, State.countAttempts]

/-- A key whose modulus fits the registers stands in them after its completion. -/
theorem Exponents.keyMade (h : Exponents start p q i e x) (hw : (Instr.genkey d b m).WellFormed)
    (hfits : p * q < 2 ^ s.build.maxBits) (dr : Draws) :
    KeyMade s (((s.accepted (.genkey d b m)).withDraws dr).completeOk (.genkey d b m) (.key d b m (p * q) e x p q))
      d b m (p * q) e x p q := by
  obtain ⟨hp, hq, he, hx⟩ := h.lt_mul
  obtain ⟨hdb, hdm, hbm⟩ := hw
  constructor
  · rw [State.completeOk_key_readG, State.readG_writeG_other _ _ hdm.symm, State.readG_writeG_other _ _ hbm.symm]
    exact State.readG_writeG_fits _ m _ hfits
  · rw [State.completeOk_key_readG, State.readG_writeG_other _ _ hdb.symm]
    exact State.readG_writeG_fits _ b _ (he.trans hfits)
  · rw [State.completeOk_key_readG]
    exact State.readG_writeG_fits _ d _ (hx.trans hfits)
  · intro r hd hb hm
    rw [State.completeOk_key_readG, State.readG_writeG_other _ _ hd, State.readG_writeG_other _ _ hb,
      State.readG_writeG_other _ _ hm]
    rfl
  · exact completeOk_prime (i := .genkey d b m) ⟨_, _, _, _, _, rfl⟩ (by simp [WritesPrime])
  · exact State.writeDbg_dbgp_fits _ q (hp.trans hfits)
  · exact State.writeDbg_dbgq_fits _ p (hq.trans hfits)

end

/-- Numbers of `k` bits have a product of at most `2k` bits. -/
theorem mul_lt_two_pow {p q k : Nat} (hp : p < 2 ^ k) (hq : q < 2 ^ k) : p * q < 2 ^ (2 * k) := by
  rw [Nat.two_mul, Nat.pow_add]
  exact Nat.mul_lt_mul'' hp hq

section
variable {s : State} {k : Nat} {fp fq : List Attempt} {p q : Attempt} {rest : List Word}

theorem KeySearches.fits (h : KeySearches s k fp fq p q rest) : p.value k * q.value k < 2 ^ s.build.maxBits := by
  obtain ⟨-, -, hp⟩ := value_spec h.two_le p
  obtain ⟨-, -, hq⟩ := value_spec h.two_le q
  exact (mul_lt_two_pow hp hq).trans_le (Nat.pow_le_pow_right two_pos h.max)

theorem KeySearches.length_passes (h : KeySearches s k fp fq p q rest) :
    checkKeyLength s.build s.minbits s.bitlen.toInt = none := by
  have hmin := h.min
  have hmax := h.max
  rw [checkKeyLength_eq_none_iff, h.len]
  omega

theorem KeySearches.spent (h : KeySearches s k fp fq p q rest) (i : Instr) (att : Nat) :
    Spent s ((s.accepted i).draws.searched (searchDraws fp p ++ searchDraws fq q).length att)
      (searchDraws fp p ++ searchDraws fq q).length :=
  spent_after h.words _

end

/-- Settles O29: the searches give the primes, and the first exponent has an inverse. -/
theorem genkeyMakes : Obligations.GenkeyMakes := by
  unfold Obligations.GenkeyMakes
  intro d b m s k i e fp fq p q rest hs hdb hdm hbm hlen h2 hmin hmax hp hq hne hwin hfirst hrng
  have hsearch : KeySearches s k fp fq p q rest := ⟨hlen, h2, hmin, hmax, hp, hq, hne, hwin, hrng⟩
  have hw : (Instr.genkey d b m).WellFormed := ⟨hdb, hdm, hbm⟩
  have hspent := hsearch.spent (.genkey d b m) (fp.length + 1 + (fq.length + 1))
  obtain ⟨x, hx, hkey⟩ := keyFromPrimes_of_first hfirst d b m
    ((s.accepted (.genkey d b m)).draws.searched (searchDraws fp p ++ searchDraws fq q).length
        (fp.length + 1 + (fq.length + 1)))
  refine ⟨_, x, exec_genkey_of_length hs.idle hw hsearch.length_passes, ?_⟩
  rw [hsearch.keyPair, hkey]
  exact ⟨State.completeOk_completed _ hspent.within hspent.words hspent.lrng, hx.keyMade hw hsearch.fits _,
    (State.completeOk_genkey_attempts ..).trans (BitVec.zero_add _), hx.pos, hx.lt, hx.inverse⟩

/-- Settles O32: the searches give the primes, and no exponent is found for them. -/
theorem genkeyNoExponent : Obligations.GenkeyNoExponent := by
  unfold Obligations.GenkeyNoExponent
  intro d b m s k fp fq p q rest hs hdb hdm hbm hlen h2 hmin hmax hp hq hne hwin hnone hrng
  have hsearch : KeySearches s k fp fq p q rest := ⟨hlen, h2, hmin, hmax, hp, hq, hne, hwin, hrng⟩
  have hfind : findE ((p.value k - 1) * (q.value k - 1)) Config.eRetryCap s.estart.toNat = none :=
    Option.eq_none_iff_forall_ne_some.2 fun e he => (findE_iff.1 he).elim fun i hi => hnone i e hi
  exact genkey_fails hs.idle ⟨hdb, hdm, hbm⟩ hsearch.length_passes
    ((hsearch.keyPair d b m).trans (keyFromPrimes_noE hfind)) (BitVec.zero_add _) (hsearch.spent _ _)

/-! ### Every successful GENKEY (R254) -/

/-- An odd number of exactly `k` bits is no power of two. -/
theorem odd_between {k v : Nat} (hk : 2 ≤ k) (hodd : v % 2 = 1) (hbits : bitLength v = k) :
    2 ^ (k - 1) < v ∧ v < 2 ^ k := by
  obtain ⟨hge, hlt⟩ := (bitLength_eq_iff (by omega)).1 hbits
  have heven : 2 ^ (k - 1) % 2 = 0 := Nat.even_iff.1 ((Nat.even_pow' (by omega)).2 even_two)
  exact ⟨by omega, hlt⟩

/-- The key a successful GENKEY writes: of the primes of the searches, whatever the words were (R254). -/
def GoodKey (s : State) (d b m : Reg) (c : Commit) : Prop :=
  ∃ p q i e x, KeyPrimes s.bitlen.toInt (p, q) ∧ Exponents s.estart.toNat p q i e x ∧
    c = .key d b m (p * q) e x p q

/-- What steps 1 to 6 may answer, and how many words they take at most (R245, R254). -/
theorem keyPair_within (s : State) (d b m : Reg) :
    (s.keyPair d b m).Within (s.accepted (.genkey d b m)).draws
      (Config.keyRetryCap * (searchWords s s.bitlen.toInt + searchWords s s.bitlen.toInt)) (GoodKey s d b m)
      (fun _ => True) := by
  refine ((keyPrimes_within (s.accepted (.genkey d b m)) _ _ none _ (by simp)).weaken (le_refl _) (fun _ h => h)
    fun _ _ => trivial).andThen (B2 := 0) fun pq dr hpq => ?_
  cases hfind : findE ((pq.1 - 1) * (pq.2 - 1)) Config.eRetryCap s.estart.toNat with
  | none =>
    rw [keyFromPrimes_noE hfind]
    exact .fail trivial
  | some e =>
    obtain ⟨i, hi⟩ := findE_iff.1 hfind
    obtain ⟨x, hx, hkey⟩ := keyFromPrimes_of_first hi d b m dr
    rw [hkey]
    exact .pure ⟨_, _, i, e, x, hpq, hx, rfl⟩

/-- No error reads as a success (R300, R301). -/
theorem Err.code_ne_zero (e : Err) : e.code ≠ 0 := by cases e <;> decide

section
variable {d b m : Reg} {s t : State}

/-- A GENKEY completes with an error of its checks, or ends as its computation does (R104, R241, R242). -/
theorem exec_genkey_cases (hidle : s.busy = false) (ht : exec (.genkey d b m) s = .next t) :
    (t.busy = false ∧ t.errcode ≠ 0) ∨
    ((Instr.genkey d b m).WellFormed ∧ checkKeyLength s.build s.minbits s.bitlen.toInt = none ∧
      t = (s.accepted (.genkey d b m)).finish (.genkey d b m) (s.keyPair d b m)) := by
  by_cases hw : (Instr.genkey d b m).WellFormed
  · cases hlen : checkKeyLength s.build s.minbits s.bitlen.toInt with
    | some e =>
      obtain ⟨u, hu, hno⟩ := genkey_checkFails hidle ((wellFormed_iff _).2 hw) hlen
      obtain rfl := Host.Outcome.next.inj (ht.symm.trans hu)
      exact .inl ⟨hno.completed.idle, hno.completed.errcode ▸ Err.code_ne_zero e⟩
    | none =>
      rw [exec_genkey_of_length hidle hw hlen] at ht
      exact .inr ⟨hw, rfl, (Host.Outcome.next.inj ht).symm⟩
  · rw [exec_overlap hidle (Bool.eq_false_iff.2 fun h => hw ((wellFormed_iff _).1 h))] at ht
    obtain rfl := Host.Outcome.next.inj ht
    exact .inl ⟨rfl, Err.code_ne_zero .destOverlap⟩

/-- A GENKEY that has completed without an error has made a key of a length that passes its check. -/
theorem genkey_succeeded (hidle : s.busy = false) (ht : exec (.genkey d b m) s = .next t) (hbusy : t.busy = false)
    (hok : t.errcode = 0) : (Instr.genkey d b m).WellFormed ∧
      checkKeyLength s.build s.minbits s.bitlen.toInt = none ∧ ∃ c dr, GoodKey s d b m c ∧
      t = ((s.accepted (.genkey d b m)).withDraws dr).completeOk (.genkey d b m) c := by
  rcases exec_genkey_cases hidle ht with ⟨-, herr⟩ | ⟨hw, hlen, rfl⟩
  · exact absurd hok herr
  have hin := keyPair_within s d b m
  generalize s.keyPair d b m = x at hbusy hok hin
  cases x with
  | silent => cases hbusy
  | err e dr => exact absurd hok (Err.code_ne_zero e)
  | ok c dr => exact ⟨hw, hlen, c, dr, hin.1, rfl⟩

end

/-- Settles O31: the checks bound the length, the searches the primes, and the exponents are those found for them. -/
theorem genkeyGuarantee : Obligations.GenkeyGuarantee := by
  unfold Obligations.GenkeyGuarantee
  intro d b m s t hs ht hbusy hok
  obtain ⟨hw, hlen, _, dr, ⟨p, q, i, e, x, hprimes, hexp, rfl⟩, rfl⟩ := genkey_succeeded hs.idle ht hbusy hok
  obtain ⟨hmin, hmax, heven⟩ := checkKeyLength_eq_none_iff.1 hlen
  obtain ⟨k, hk⟩ : ∃ k : Nat, s.bitlen.toInt = 2 * k := ⟨(s.bitlen.toInt / 2).toNat, by omega⟩
  rw [hk] at hmin hmax
  obtain ⟨hpodd, hqodd, hpbits, hqbits, hne, hwin, h2⟩ := hprimes
  have hhalf : s.bitlen.toInt / 2 = k := by omega
  have hbits : s.bitlen.toInt.toNat = 2 * k := by omega
  rw [hhalf] at hpbits hqbits h2
  rw [hbits] at hwin
  obtain ⟨hplow, hphigh⟩ := odd_between (by omega) hpodd hpbits
  obtain ⟨hqlow, hqhigh⟩ := odd_between (by omega) hqodd hqbits
  have hmul := mul_lt_two_pow hphigh hqhigh
  have hfits : p * q < 2 ^ s.build.maxBits := hmul.trans_le (Nat.pow_le_pow_right two_pos (by omega))
  exact ⟨k, p, q, i, e, x, hk, by omega, by omega, hplow, hphigh, hqlow, hqhigh, hpodd, hqodd, hne, hwin, hmul,
    hexp.first, hexp.pos, hexp.lt, hexp.inverse, hexp.keyMade hw hfits dr⟩

/-! ### Keys of four bits (R256) -/

section
variable {u : State} (hcap : 1 ≤ u.attemptcap.toNat) (hmax : 2 ≤ u.build.maxBits)
include hcap hmax

/-- The only candidate of two bits is 3, which the tester takes for prime without a draw (R202, R222). -/
theorem generatePrime_two {d : Draws} (hw : 1 ≤ d.words.length) :
    generatePrime u (4 / 2) d = .ok 3 (d.searched 1 1) := by
  obtain ⟨w, ws, hcons⟩ := List.exists_cons_of_length_pos hw
  obtain ⟨hodd, hge, hlt⟩ := value_spec (le_refl 2) ⟨[w], []⟩
  have hthree : Attempt.value 2 ⟨[w], []⟩ = 3 := by omega
  have hends : Attempt.Ends 2 u.rounds.toNat true ⟨[w], []⟩ := ⟨rfl, by simp [hthree, Verdict]⟩
  have hsearch : Search 2 u.rounds.toNat u.attemptcap.toNat [] ⟨[w], []⟩ := ⟨hcap, List.forall_mem_nil _, hends⟩
  rw [← hthree]
  exact generatePrime_finds (le_refl 2) hmax hsearch (rest := ws) hcons

/-- Once `p` is 3, every retry draws `q = 3` again with one word, until none is left (R244). -/
theorem keyPrimes_four_kept : ∀ (j : Nat) (d : Draws), j ≤ d.words.length →
    keyPrimes u 4 j (some 3) d = .err .keyRetry (d.searched j j)
  | 0, d, _ => by simp [keyPrimes, Draws.searched, Draws.after_zero]
  | j + 1, d, hj => by
    have hrest : j ≤ (d.searched 1 1).words.length := by
      rw [Draws.searched, Draws.after, List.length_drop]
      omega
    rw [keyPrimes_succ rfl (generatePrime_two hcap hmax (by omega)), if_pos rfl, keyPrimes_four_kept j _ hrest,
      Draws.searched_searched, Nat.add_comm 1 j]

/-- The first pass draws both primes, each with one word. -/
theorem keyPrimes_four {j : Nat} {d : Draws} (hj : j + 2 ≤ d.words.length) :
    keyPrimes u 4 (j + 1) none d = .err .keyRetry (d.searched (j + 2) (j + 2)) := by
  have hlen : ∀ c, (d.searched c c).words.length = d.words.length - c := fun c => List.length_drop
  rw [keyPrimes_succ (len := 4) (kept := none) (generatePrime_two hcap hmax (by omega))
      (generatePrime_two hcap hmax (by rw [hlen]; omega)), if_pos rfl, Draws.searched_searched,
    keyPrimes_four_kept hcap hmax j _ (by rw [hlen]; omega), Draws.searched_searched, Nat.add_comm (1 + 1) j]

end

/-- Settles O33: p and q are 3 in every pass, so each of the 64 passes ends in a retry. -/
theorem genkeyFourBits : Obligations.GenkeyFourBits := by
  unfold Obligations.GenkeyFourBits
  intro d b m s hs hdb hdm hbm hfour hmin hcap hrng
  obtain ⟨-, h64, -⟩ := hs.inv.build
  have hlen : s.bitlen.toInt = 4 := by rw [hfour]; rfl
  have hpass : checkKeyLength s.build s.minbits s.bitlen.toInt = none := by
    rw [checkKeyLength_eq_none_iff, hlen]
    omega
  have hprimes := keyPrimes_four (u := s.accepted (.genkey d b m)) (j := 63)
    (d := (s.accepted (.genkey d b m)).draws) hcap (show 2 ≤ s.build.maxBits by omega) hrng
  have hpair : s.keyPair d b m = .err .keyRetry ((s.accepted (.genkey d b m)).draws.searched 65 65) := by
    rw [State.keyPair, hlen, Config.keyRetryCap, hprimes, Gen.andThen]
  exact genkey_fails hs.idle ⟨hdb, hdm, hbm⟩ hpass hpair (BitVec.zero_add _) ⟨hrng, rfl, BitVec.zero_add _⟩

/-! ## Every command ends (44_primegen.md R224, 45_keygen.md R245, 60_exceptions.md R355) -/

/-- The words a command takes at most (R204, R224, R245). -/
def commandWords (s : State) : Instr → Nat
  | .mrtest a => s.rounds.toNat * roundWords (s.readG a)
  | .genprime _ => s.attemptcap.toNat * attemptWords s.bitlen.toInt.toNat s.rounds.toNat
  | .genkey _ _ _ => Config.keyRetryCap * (searchWords s s.bitlen.toInt + searchWords s s.bitlen.toInt)
  | .montmul _ _ _ _ | .tomont _ _ _ | .frommont _ _ _ | .modexp _ _ _ _ | .gcd _ _ _ | .modinv _ _ _
  | .encrypt _ _ _ _ | .decrypt _ _ _ _ | .zeroize => 0

/-- A command still executes only if its computation found the port silent, with fewer words than it may take. -/
theorem words_lt_of_waiting {i : Instr} {s : State} {x : Gen Commit} {B : Nat} {P : Commit → Prop} {E : Err → Prop}
    (hx : x.Within (s.accepted i).draws B P E) (hbusy : ((s.accepted i).finish i x).busy = true) :
    s.rng.length < B := by
  cases x with
  | silent => exact hx
  | ok c d => cases hbusy
  | err e d => cases hbusy

/-- A command that waits for the port has not been given all the words it may take. -/
theorem words_lt_of_busy {i : Instr} {s t : State} (hidle : s.busy = false) (ht : exec i s = .next t)
    (hbusy : t.busy = true) : s.rng.length < commandWords s i := by
  have hdraw : Drawing i := by
    by_contra hd
    exact Bool.false_ne_true ((idle_of_not_drawing hidle hd ht).symm.trans hbusy)
  cases i with
  | mrtest a =>
    rw [exec_mrtest hidle] at ht
    obtain rfl := Host.Outcome.next.inj ht
    exact words_lt_of_waiting (P := fun _ => True)
      ((millerRabin_within _ _ _).andThen (B2 := 0) fun v d _ => .pure trivial) hbusy
  | genprime r =>
    rw [exec_genprime hidle] at ht
    obtain rfl := Host.Outcome.next.inj ht
    exact words_lt_of_waiting (P := fun _ => True)
      ((generatePrime_within _ _ _).andThen (B2 := 0) fun v d _ => .pure trivial) hbusy
  | genkey d b m =>
    rcases exec_genkey_cases hidle ht with ⟨hend, -⟩ | ⟨-, -, rfl⟩
    · exact absurd (hend.symm.trans hbusy) Bool.false_ne_true
    · exact words_lt_of_waiting (keyPair_within s d b m) hbusy
  | _ => exact hdraw.elim

/-- A command that is over has set `DONE`, whichever way it ended (R27). -/
theorem done_of_idle {i : Instr} {s t : State} (hidle : s.busy = false) (ht : exec i s = .next t)
    (hend : t.busy = false) : t.done = true := by
  rcases exec_inversion hidle ht with
    ⟨-, rfl⟩ | ⟨-, c, d, n, -, -, -, rfl⟩ | ⟨-, e, d, n, -, -, -, rfl⟩ | ⟨-, -, rfl⟩
  · rfl
  · rfl
  · rfl
  · cases hend

/-- Settles O40: no command waits once the port has as many words as it takes at most, and one that does not draw
never waits. -/
theorem commandsEnd : Obligations.CommandsEnd := by
  unfold Obligations.CommandsEnd
  intro i s hs
  refine ⟨⟨commandWords s i, fun ws hws => ?_⟩, fun hd => ?_⟩
  · obtain ⟨t, ht⟩ := exec_next i { s with rng := ws }
    have hend : t.busy = false := Bool.eq_false_iff.2 fun hbusy =>
      hws.not_gt (words_lt_of_busy (s := { s with rng := ws }) hs.idle ht hbusy)
    exact ⟨t, ht, hend, done_of_idle (s := { s with rng := ws }) hs.idle ht hend⟩
  · obtain ⟨t, ht⟩ := exec_next i s
    have hend := idle_of_not_drawing hs.idle hd ht
    obtain ⟨c, -, hrng, -, hnone⟩ := (drawsCounted i s t hs ht).1 hend
    rw [hnone hd] at hrng
    exact ⟨t, ht, hend, done_of_idle hs.idle ht hend, hrng⟩

end Sys2Proof.Machine

/-! ## ENCRYPT and DECRYPT (46_cipher.md R271 to R276) -/

namespace Sys2Proof.Machine

/-! ### One datapath (R273, R274) -/

/-- The state a plain command with these codes leaves on an idle engine: nothing in it names the opcode (R273). -/
def State.plainEnd (s : State) (d : Reg) : Except Err Nat → State
  | .ok v => (s.zeroise.writeG d v).complete 0 0
  | .error e => s.zeroise.complete e.code e.subcode

/-- Only the command word in `CW` tells one plain command from another, and the completion clears it (R305). -/
theorem Plain.finish_result {i : Instr} (hp : Plain i) (s : State) (d : Reg) (r : Except Err Nat) :
    (s.accepted i).finish i ((s.accepted i).result d r) = s.plainEnd d r := by
  have hprime : (s.accepted i).prime = s.prime := hp.latch _
  cases r with
  | ok v =>
    rw [State.result, State.finish, State.completeOk, hp.count]
    exact congrArg (fun b => { s.plainEnd d (.ok v) with prime := b }) hprime
  | error e =>
    rw [State.result, State.finish, State.completeErr, hp.fail]
    exact congrArg (fun b => { s.plainEnd d (.error e) with prime := b }) hprime

/-- The whole outcome of a command that checks its operands, in every state (R275). -/
theorem KernelCommand.exec_eq {i : Instr} {s : State} {d m : Reg} {xs : List Nat} {v : Nat}
    (h : KernelCommand i s d m xs v) :
    exec i s = .next (if s.busy then s.locked else s.plainEnd d (guarded (checkOperands (s.readG m) xs) v)) := by
  obtain ⟨body, hrun, hbody⟩ := h.run
  rw [hrun]
  cases hb : s.busy with
  | true => exact runCommand_busy hb
  | false =>
    rw [runCommand_idle hb h.plain.wf, hbody, h.plain.finish_result]
    rfl

/-- An operand below the modulus passes the range check, so only the modulus check is left (R137). -/
theorem checkOperands_cons_of_lt {n x : Nat} (h : x < n) (xs : List Nat) :
    checkOperands n (x :: xs) = checkOperands n xs := by
  simp [checkOperands, h.not_ge]

/-- Settles O18: the three commands end in a state that names no opcode, and a base below the modulus is neither
refused by the range check nor changed by the reduction. -/
theorem cipherOneDatapath : Obligations.CipherOneDatapath := by
  unfold Obligations.CipherOneDatapath
  intro d a b m s
  refine ⟨?_, fun ha => ?_⟩
  · rw [(kernel_encrypt d a b m s).exec_eq, (kernel_decrypt d a b m s).exec_eq]
  · rw [(kernel_modexp d a b m s).exec_eq, (kernel_encrypt d a b m s).exec_eq, checkOperands_cons_of_lt ha,
      Nat.mod_eq_of_lt ha]

/-! ### Results (R271, R272) -/

/-- Settles O16: the checks pass and ENCRYPT delivers the power. -/
theorem encryptResult : Obligations.EncryptResult := by
  unfold Obligations.EncryptResult
  intro d a b m s hs h3 hodd ha
  rw [← modExp_eq]
  exact (kernel_encrypt d a b m s).delivers hs h3 hodd (by simp [ha]) (modExp_lt (by omega) _ _)

/-- Settles O17: DECRYPT has the outcome of ENCRYPT (R273). -/
theorem decryptResult : Obligations.DecryptResult := by
  unfold Obligations.DecryptResult
  intro d a b m s
  rw [← (cipherOneDatapath d a b m s).1]
  exact encryptResult d a b m s

/-! ### The round trip (R276) -/

/-- Fermat: an exponent that is 1 modulo `p - 1` fixes every residue modulo `p`, 0 included. -/
theorem pow_modEq_self_of_prime {p k : Nat} (hp : p.Prime) (hk : p - 1 ∣ k - 1) (hpos : 0 < k) (x : Nat) :
    x ^ k ≡ x [MOD p] := by
  have h := Int.ModEq.pow_eq_pow hp hk hpos one_pos (x : Int)
  rw [pow_one] at h
  exact_mod_cast h

/-- Why RSA decrypts, messages that share a factor with the modulus included: Fermat modulo each prime. -/
theorem pow_modEq_self_of_primes {p q k : Nat} (hp : p.Prime) (hq : q.Prime) (hpq : p ≠ q)
    (hk : k % ((p - 1) * (q - 1)) = 1) (x : Nat) : x ^ k ≡ x [MOD p * q] := by
  have hpos : 0 < k := Nat.pos_of_ne_zero fun h0 => by simp [h0] at hk
  have hdvd : (p - 1) * (q - 1) ∣ k - 1 := by
    have h := Nat.dvd_sub_mod (n := (p - 1) * (q - 1)) k
    rwa [hk] at h
  exact (Nat.modEq_and_modEq_iff_modEq_mul ((Nat.coprime_primes hp hq).2 hpq)).1
    ⟨pow_modEq_self_of_prime hp (dvd_of_mul_right_dvd hdvd) hpos x,
      pow_modEq_self_of_prime hq (dvd_of_mul_left_dvd hdvd) hpos x⟩

/-- Two encryptions under exponents whose product fixes the message give it back. -/
theorem encrypt_encrypt {a b b' m c : Reg} {s : State} (o : Reg) (hs : Ready s) (h3 : 3 ≤ s.readG m)
    (hodd : s.readG m % 2 = 1) (ha : s.readG a < s.readG m) (hcm : c ≠ m) (hcb : c ≠ b')
    (hfix : s.readG a ^ (s.readG b * s.readG b') ≡ s.readG a [MOD s.readG m]) :
    ∃ t u, exec (.encrypt c a b m) s = .next t ∧ exec (.encrypt o c b' m) t = .next u ∧
      u.readG o = s.readG a ∧ u.errcode = 0 := by
  obtain ⟨t, ht, hfirst⟩ := encryptResult c a b m s hs h3 hodd ha
  have hm : t.readG m = s.readG m := hfirst.others m hcm.symm
  have hb' : t.readG b' = s.readG b' := hfirst.others b' hcb.symm
  have hc : t.readG c < t.readG m := by
    rw [hfirst.result, hm]
    exact Nat.mod_lt _ (by omega)
  obtain ⟨u, hu, hsecond⟩ := encryptResult o c b' m t (hfirst.ready hs ht) (by rwa [hm]) (by rwa [hm]) hc
  refine ⟨t, u, ht, hu, ?_, hsecond.completed.errcode⟩
  calc u.readG o = (s.readG a ^ s.readG b % s.readG m) ^ s.readG b' % s.readG m := by
        rw [hsecond.result, hfirst.result, hm, hb']
    _ = s.readG a ^ (s.readG b * s.readG b') % s.readG m := by rw [← Nat.pow_mod, pow_mul]
    _ = s.readG a := by rw [hfix, Nat.mod_eq_of_lt ha]

/-- Settles O19: DECRYPT is ENCRYPT under another exponent (R273), so both orders are two encryptions, and the
product of the exponents fixes every message. -/
theorem rsaRoundTrip : Obligations.RsaRoundTrip := by
  unfold Obligations.RsaRoundTrip
  intro a be bx m c o s p q hs hp hq hpq hp2 hq2 hm hed ha hcm hcbe hcbx
  have h3 : 3 ≤ s.readG m := by
    rw [hm]
    exact le_trans (by decide) (Nat.mul_le_mul hp.two_le hq.two_le)
  have hodd : s.readG m % 2 = 1 := by
    rw [hm]
    exact Nat.odd_iff.1 ((hp.odd_of_ne_two hp2).mul (hq.odd_of_ne_two hq2))
  have hfix := pow_modEq_self_of_primes hp hq hpq hed (s.readG a)
  rw [← hm] at ha hfix
  simp only [← (cipherOneDatapath _ _ _ _ _).1]
  exact ⟨encrypt_encrypt o hs h3 hodd ha hcm hcbx hfix,
    encrypt_encrypt o hs h3 hodd ha hcm hcbe (by rwa [mul_comm])⟩

end Sys2Proof.Machine

/-! ## Completions with an error, ZEROIZE, interrupts and aborts (47_system.md R281, 60_exceptions.md R301 to R317) -/

namespace Sys2Proof.Machine

/-! ### ZEROIZE -/

/-- ZEROIZE on an idle engine is one successful completion without a draw (R281, R303). -/
theorem exec_zeroize {s : State} (hidle : s.busy = false) : exec .zeroize s =
    .next (((s.accepted .zeroize).withDraws (s.accepted .zeroize).draws).completeOk .zeroize .clear) :=
  (execZeroize.eq_def s).trans (runCommand_idle hidle rfl)

/-- Settles O34: the one completion of ZEROIZE commits `Commit.clear`. -/
theorem zeroizeResult : Obligations.ZeroizeResult := by
  unfold Obligations.ZeroizeResult
  intro s hidle
  refine ⟨_, exec_zeroize hidle, State.completeOk_completed .clear (Nat.zero_le _) rfl rfl, fun r => ?_, rfl, rfl, rfl,
    rfl⟩
  simp [State.readG, State.completeOk, State.commit, State.countAttempts]

/-! ### What an error leaves (R304, R307) -/

/-- What the command `i` leaves in `PRIME`, `ATTEMPTS`, `DBGP` and `DBGQ` when it fails from `s` after its decode checks,
with the candidates counted so far in `latt` (R304, R307). -/
structure ErrorEffects (i : Instr) (s t : State) (latt : Word) : Prop where
  notPrime : (∃ a, i = .mrtest a) → t.prime = false
  prime : (∀ a, i ≠ .mrtest a) → t.prime = s.prime
  counted : (∃ d, i = .genprime d) ∨ (∃ d b m, i = .genkey d b m) → t.attempts = latt
  attempts : (∀ d, i ≠ .genprime d) → (∀ d b m, i ≠ .genkey d b m) → t.attempts = s.attempts
  noPrimes : (∃ d b m, i = .genkey d b m) → t.dbgp = 0 ∧ t.dbgq = 0
  dbg : (∀ d b m, i ≠ .genkey d b m) → t.dbgp = s.dbgp ∧ t.dbgq = s.dbgq

/-- The completion with an error, command by command (R304). -/
theorem completeErr_effects (s : State) (i : Instr) (e : Err) :
    ErrorEffects i s (s.completeErr (some i) e) s.engine.latt where
  notPrime := by rintro ⟨a, rfl⟩; rfl
  prime h := by
    cases i with
    | mrtest a => exact absurd rfl (h a)
    | _ => rfl
  counted := by rintro (⟨d, rfl⟩ | ⟨d, b, m, rfl⟩) <;> rfl
  attempts hp hk := by
    cases i with
    | genprime d => exact absurd rfl (hp d)
    | genkey d b m => exact absurd rfl (hk d b m)
    | _ => rfl
  noPrimes := by rintro ⟨d, b, m, rfl⟩; exact ⟨rfl, rfl⟩
  dbg h := by
    cases i with
    | genkey d b m => exact absurd rfl (h d b m)
    | _ => exact ⟨rfl, rfl⟩

/-- The latch writes `PRIME` for MRTEST only (R107). -/
theorem accepted_prime_of_ne_mrtest {i : Instr} (s : State) (h : ∀ a, i ≠ .mrtest a) :
    (s.accepted i).prime = s.prime := by
  cases i with
  | mrtest a => exact absurd rfl (h a)
  | _ => rfl

/-- The same from the state in which the host issued the command: acceptance and draws add nothing but `PRIME <- 0` of
MRTEST (R105, R107). -/
theorem accepted_completeErr_effects (s : State) (i : Instr) (d : Draws) (e : Err) :
    ErrorEffects i s (((s.accepted i).withDraws d).completeErr (some i) e) d.latt :=
  have h := completeErr_effects ((s.accepted i).withDraws d) i e
  { notPrime := h.notPrime
    prime := fun hi => (h.prime hi).trans (accepted_prime_of_ne_mrtest s hi)
    counted := h.counted
    attempts := h.attempts
    noPrimes := h.noPrimes
    dbg := h.dbg }

/-- The two ways a command can have completed with an error: GENKEY's overlap check, or an error of its own. -/
theorem exec_error_cases {i : Instr} {s t : State} (hidle : s.busy = false) (ht : exec i s = .next t)
    (hend : t.busy = false) (herr : t.errcode ≠ 0) :
    (i.wellFormed = false ∧ Failed s t .destOverlap) ∨
    ∃ e n latt, ErrOf i e ∧ Completed s t e.code e.subcode n ∧ t.g = s.g ∧ ErrorEffects i s t latt := by
  rcases exec_inversion hidle ht with
    ⟨hw, rfl⟩ | ⟨-, c, d, n, -, -, -, rfl⟩ | ⟨-, e, d, n, he, hd, -, rfl⟩ | ⟨-, -, rfl⟩
  · exact .inl ⟨hw, s.reject_failed _ _⟩
  · exact absurd rfl herr
  · exact .inr ⟨e, n, d.latt, he, State.completeErr_completed e hd.within hd.words hd.lrng, State.completeErr_g _ _ _,
      accepted_completeErr_effects s i d e⟩
  · cases hend

/-- Settles O35: an overlap changes nothing, any other error only what `ErrorEffects` says. -/
theorem errorsArePrecise : Obligations.ErrorsArePrecise := by
  unfold Obligations.ErrorsArePrecise
  intro i s t hs ht hend herr
  rcases exec_error_cases hs.idle ht hend herr with ⟨hw, hfail⟩ | ⟨e, n, latt, -, hdone, hg, heff⟩
  · obtain ⟨d, b, m, rfl, -⟩ := wellFormed_eq_false_iff.1 hw
    obtain ⟨hdone, hg, hp, hq, hatt, hprime⟩ := hfail
    refine ⟨hg, hdone.done, hdone.engine, hdone.settings, ?_, fun _ => hprime, fun _ _ => hatt, fun _ hwf => ?_,
      fun _ => ⟨hp, hq⟩⟩
    · rintro ⟨a, ha⟩
      cases ha
    · exact absurd ((wellFormed_iff _).2 hwf) (by simp [hw])
  · exact ⟨hg, hdone.done, hdone.engine, hdone.settings, heff.notPrime, heff.prime, heff.attempts,
      fun hk _ => heff.noPrimes hk, heff.dbg⟩

/-- Settles O36, command by command: the errors of `ErrOf`, and the overlap of GENKEY. -/
theorem errorsByCommand : Obligations.ErrorsByCommand := by
  unfold Obligations.ErrorsByCommand
  intro i s t hs ht hend herr
  rcases exec_error_cases hs.idle ht hend herr with ⟨hw, hfail⟩ | ⟨e, n, latt, he, hdone, -, -⟩
  · obtain ⟨d, b, m, rfl, -⟩ := wellFormed_eq_false_iff.1 hw
    rw [hfail.completed.errcode, hfail.completed.sub]
    simp [Err.code, Err.subcode]
  · rw [hdone.errcode, hdone.sub]
    cases i with
    | montmul | tomont | frommont | encrypt | decrypt | modinv => rcases he with rfl | rfl <;> simp [Err.code, Err.subcode]
    | modexp | mrtest => obtain rfl := he; simp [Err.code, Err.subcode]
    | gcd | zeroize => exact he.elim
    | genprime => rcases he with rfl | rfl | rfl | rfl <;> simp [Err.code, Err.subcode]
    | genkey => rcases he with (rfl | rfl | rfl | rfl | rfl) | rfl | rfl | rfl <;> simp [Err.code, Err.subcode]

/-! ### The interrupt (R48, R310) -/

/-- A completion sets `irq` to `IE` (R310). -/
theorem Completed.irq {s t : State} {code subcode : BitVec 4} {c : Nat} (h : Completed s t code subcode c) :
    t.irq = (s.ie && !t.busy) := by
  rw [State.irq, h.settings.ie, h.done, h.idle, Bool.not_false]

/-- `irq` after a command, by the ends a command can have. -/
theorem exec_irq {i : Instr} {s t : State} (hidle : s.busy = false) (ht : exec i s = .next t) :
    t.irq = (s.ie && !t.busy) := by
  rcases exec_inversion hidle ht with
    ⟨-, rfl⟩ | ⟨-, c, d, n, -, hd, -, rfl⟩ | ⟨-, e, d, n, -, hd, -, rfl⟩ | ⟨-, -, rfl⟩
  · exact (s.reject_completed (encode i) .destOverlap).irq
  · exact (State.completeOk_completed c hd.within hd.words hd.lrng).irq
  · exact (State.completeErr_completed e hd.within hd.words hd.lrng).irq
  · rfl

/-- Settles O41: every completion raises `DONE`, and the acknowledge is a write of `STATUS` that clears it. -/
theorem interruptAtCompletion : Obligations.InterruptAtCompletion := by
  unfold Obligations.InterruptAtCompletion
  intro i s t hs ht
  refine ⟨exec_irq hs.idle ht, fun rest => ⟨_, step_write (addr := 0x004) rfl (by omega) rfl, ?_, rfl, rfl⟩⟩
  show (t.ie && (t.done && !(2 : Word).getLsbD 1)) = false
  simp

/-! ### Aborts (R316) -/

/-- `s` after the part of an aborting `CTRL` write that is not the abort: the event taken and `IE` set (R30). -/
def State.aborting (s : State) (ie : Bool) (rest : List HostEvent) : State :=
  { s with host := rest, rdata := none, ie := ie }

/-- The step of an aborting `CTRL` write contains the abort (R316; log 18). -/
theorem step_write_abort {s : State} {v : Word} {rest : List HostEvent} (hh : s.host = .write 0x008 v :: rest)
    (h1 : v.getLsbD 1 = true) (h2 : v.getLsbD 2 = false) :
    step s = .next (s.aborting (v.getLsbD 0) rest).abort := by
  rw [step_write_ctrl hh]
  simp only [State.writeCtrl, h1, h2, Bool.false_eq_true, if_false, if_true]
  rfl

theorem abort_idle {s : State} (hb : s.busy = false) : s.abort = s := if_neg (by simp [hb])

theorem abort_busy {s : State} (hb : s.busy = true) :
    s.abort = s.completeErr (commandOf s.engine.cw) .aborted := if_pos hb

/-- An error of the running command leaves `PRIME` as it is: that of an MRTEST was 0 already (R28, R107). -/
theorem State.Inv.completeErr_prime {s : State} (h : s.Inv) (hb : s.busy = true) (e : Err) :
    (s.completeErr (commandOf s.engine.cw) e).prime = s.prime := by
  cases hc : commandOf s.engine.cw with
  | none => rfl
  | some i =>
    have heff := completeErr_effects s i e
    by_cases hi : ∃ a, i = .mrtest a
    · obtain ⟨a, rfl⟩ := hi
      rw [heff.notPrime ⟨a, rfl⟩, h.tester hb a hc]
    · exact heff.prime fun a ha => hi ⟨a, ha⟩

/-! The completion flags and the draw count of an error, whether or not the word was a command (R304). -/

@[simp] theorem State.completeErr_done (s : State) (i : Option Instr) (e : Err) : (s.completeErr i e).done = true := by
  cases i <;> rfl
@[simp] theorem State.completeErr_errcode (s : State) (i : Option Instr) (e : Err) :
    (s.completeErr i e).errcode = e.code := by cases i <;> rfl
@[simp] theorem State.completeErr_sub (s : State) (i : Option Instr) (e : Err) :
    (s.completeErr i e).sub = e.subcode := by cases i <;> rfl
@[simp] theorem State.completeErr_engine (s : State) (i : Option Instr) (e : Err) :
    (s.completeErr i e).engine = Engine.cleared := by cases i <;> rfl
@[simp] theorem State.completeErr_rng (s : State) (i : Option Instr) (e : Err) :
    (s.completeErr i e).rng = s.rng := by cases i <;> simp [State.completeErr]
@[simp] theorem State.completeErr_rngcnt (s : State) (i : Option Instr) (e : Err) :
    (s.completeErr i e).rngcnt = s.rngcnt + s.engine.lrng := by cases i <;> simp [State.completeErr]

/-- Settles O49: on a running engine the abort is a completion with an error, on an idle one it is nothing. -/
theorem abortEnds : Obligations.AbortEnds := by
  unfold Obligations.AbortEnds
  intro s v rest h hh h1 h2
  rw [step_write_abort hh h1 h2]
  refine ⟨fun hb => by rw [abort_idle (s := s.aborting _ rest) hb]; rfl, fun hb => ⟨_, rfl, ?_⟩⟩
  have hinv : (s.aborting (v.getLsbD 0) rest).Inv := h.of_same rfl rfl rfl rfl rfl id rfl rfl rfl
  rw [abort_busy (s := s.aborting _ rest) hb]
  refine ⟨State.completeErr_done _ _ _, State.completeErr_errcode _ _ _, State.completeErr_sub _ _ _,
    State.completeErr_engine _ _ _, State.completeErr_g _ _ _, State.completeErr_rng _ _ _,
    State.completeErr_rngcnt _ _ _, State.completeErr_settings _ _ _, hinv.completeErr_prime hb .aborted, fun i hc => ?_⟩
  obtain ⟨hnot, -, hcounted, hattempts, hzero, hdbg⟩ := completeErr_effects (s.aborting (v.getLsbD 0) rest) i .aborted
  rw [show commandOf (s.aborting (v.getLsbD 0) rest).engine.cw = some i from hc]
  exact ⟨hnot, hcounted, hattempts, hzero, hdbg⟩

/-! ### The words taken so far (R47, R317) -/

/-- A transition takes at most one word and counts what it takes, unless it ends the command (R47). -/
theorem Spent.tick {s u : State} {c : Nat} (h : Spent s u.draws c) (hi : u.Inv) (hb : u.tick.busy = true) :
    ∃ c, Spent s u.tick.draws c := by
  obtain ⟨hc, hrng, hlrng⟩ := h
  cases hr : u.rngReq with
  | false =>
    obtain ⟨hw, hl⟩ := tick_no_draw hi hr
    exact ⟨c, hc, hw.trans hrng, (hl hb).trans hlrng⟩
  | true =>
    cases hw : u.rng with
    | nil => rw [tick_silent hr hw]; exact ⟨c, hc, hrng, hlrng⟩
    | cons w ws =>
      have htook := tick_draws hr hw
      have hdrop : s.rng.drop c = w :: ws := hrng.symm.trans hw
      refine ⟨c + 1, ?_, ?_, ?_⟩
      · have := congrArg List.length hdrop
        rw [List.length_drop, List.length_cons] at this
        omega
      · show u.tick.rng = _
        rw [htook.rng, ← List.tail_drop, hdrop, List.tail_cons]
      · show u.tick.engine.lrng = _
        rw [htook.lrng, show u.engine.lrng = _ from hlrng, BitVec.ofNat_add]
        rfl

/-- A command that still runs after a transition ran before it (R108). -/
theorem busy_of_ticks_busy {k : Nat} {u : State} (h : (State.ticks k u).busy = true) : u.busy = true := by
  by_contra hb
  rw [ticks_idle k u (Bool.eq_false_iff.2 hb)] at h
  exact hb h

/-- As long as the command runs, its words are the first of the source and `LRNG` counts them (R47, R317). -/
theorem Spent.ticks {s : State} : ∀ (k : Nat) {u : State} {c : Nat}, Spent s u.draws c → u.Inv →
    (State.ticks k u).busy = true → ∃ c, Spent s (State.ticks k u).draws c
  | 0, _, c, h, _, _ => ⟨c, h⟩
  | k + 1, _, _, h, hi, hb =>
    let ⟨_, h'⟩ := h.tick hi (busy_of_ticks_busy (k := k) hb)
    Spent.ticks k h' hi.tick hb

theorem State.Inv.ticks : ∀ (k : Nat) {u : State}, u.Inv → (State.ticks k u).Inv
  | 0, _, h => h
  | k + 1, _, h => State.Inv.ticks k h.tick

/-- No transition puts a word back (R47). -/
theorem tick_rng_length_le {u : State} (hi : u.Inv) : u.tick.rng.length ≤ u.rng.length := by
  cases hr : u.rngReq with
  | false => rw [(tick_no_draw hi hr).1]
  | true =>
    cases hw : u.rng with
    | nil => rw [tick_silent hr hw, hw]
    | cons w ws => rw [(tick_draws hr hw).rng]; exact Nat.le_succ _

theorem ticks_rng_length_le : ∀ (k : Nat) {u : State}, u.Inv → (State.ticks k u).rng.length ≤ u.rng.length
  | 0, _, _ => Nat.le_refl _
  | k + 1, _, h => (ticks_rng_length_le k h.tick).trans (tick_rng_length_le h)

/-- A state in which the command still runs is on the way to its completion (R108). -/
theorem runs_of_busy {u t : State} {k : Nat} (h : Runs u t) (ht : t.busy = false)
    (hb : (State.ticks k u).busy = true) : Runs (State.ticks k u) t := by
  obtain ⟨n, rfl⟩ := h
  rcases Nat.le_total k n with hle | hle
  · exact ⟨n - k, by rw [← ticks_add, Nat.add_sub_cancel' hle]⟩
  · rw [← Nat.add_sub_cancel' hle, ticks_add] at hb
    exact absurd ((busy_of_ticks_busy hb).symm.trans ht) (by simp)

/-- A `CMD` write takes no word and starts the count at 0 (R105). -/
theorem issue_spent (s : State) (w : Word) : Spent s (s.issue w).draws 0 := by
  cases hd : decodeChecks w with
  | ok i => rw [issue_ok hd]; exact ⟨Nat.zero_le _, rfl, rfl⟩
  | error e => rw [issue_error hd]; exact ⟨Nat.zero_le _, rfl, rfl⟩

/-- Settles O60: each transition on the way takes the next word and counts it, and the completion lies further on the
same way (R9). -/
theorem abortedDraws : Obligations.AbortedDraws := by
  unfold Obligations.AbortedDraws
  intro i s t k hs ht hend hb
  have hissued : (s.issue (encode i)).Inv := hs.inv.issue _
  obtain ⟨c, hc, hrng, hlrng⟩ := (issue_spent s (encode i)).ticks k hissued hb
  refine ⟨c, hc, hrng, hlrng, ?_⟩
  obtain ⟨n, hn⟩ := runs_of_busy (sequencer_completes hs.idle ht hend) hend hb
  calc t.rng.length ≤ (State.ticks k (s.issue (encode i))).rng.length := hn ▸ ticks_rng_length_le n (hissued.ticks k)
    _ = s.rng.length - c := by rw [show State.rng _ = _ from hrng, List.length_drop]

end Sys2Proof.Machine
